-- ==== Sys2Proof/Word.lean ====
section
/-! DEFINITION. The engine's words: XLEN = 32 (00_scope R6), bytes and halfwords (R7), register indices (10_state R20). -/

namespace Sys2Proof

/-- A width-32 value (00_scope R7): a register, the pc, an address, an instruction word. -/
abbrev Word := BitVec 32

/-- A width-8 value (00_scope R7). -/
abbrev Byte := BitVec 8

/-- A register index, 0 to 31: "every index 0 to 31 names a register and no index is illegal" (10_state R20). -/
abbrev Reg := Fin 32

end Sys2Proof
end

