-- ==== Sys2Proof/Config.lean ====
section
/-! DEFINITION. The engine's parameters (00_scope R6) and the numbers the spec assigns to outcomes (60_exceptions R317).
The spec decides every value of every instruction, so there is no free value here. -/

namespace Sys2Proof.Config

/-- The default of the model argument `MEM_SIZE`: 1 MiB (00_scope R6, 92 D5). `State.memSize` holds the argument itself. -/
def memSizeDefault : Nat := 0x100000

/-- `RESET_PC` (00_scope R6). -/
def resetPc : Word := 0#32

/-- `EXIT_CODE`: the value of x17 or x10 that halts at ECALL (00_scope R6). -/
def exitCode : Word := 10#32

/-- What a byte of memory that neither the image nor a store has written reads as (10_state R33, 92 D3; log 2). -/
def unlistedByte : Byte := 0#8

/-- Exit statuses of the outcomes (60_exceptions R317, 92 D13). -/
def exitHalted : Nat := 0
def exitUsageError : Nat := 1
def exitLoadError : Nat := 2
def exitDecodeFault : Nat := 3
def exitMemoryFault : Nat := 4
def exitAlignmentFault : Nat := 5

end Sys2Proof.Config
end

