-- ==== Sys2Proof/WellFormed.lean ====
section
/-! DEFINITION. Which terms of `Instr` stand for an instruction the encoding can hold: a branch or JAL offset has "bit 0
forced to zero" (30_encoding R95, R97). Every other field of every constructor may hold any value of its type. -/

namespace Sys2Proof

/-- Bit 0 of a B-immediate is zero (30_encoding R95). -/
def branchOffsetOk (offset : BitVec 13) : Bool := !offset.getLsbD 0

/-- Bit 0 of a J-immediate is zero (30_encoding R97). -/
def jumpOffsetOk (offset : BitVec 21) : Bool := !offset.getLsbD 0

/-- The instruction has an encoding. -/
def Instr.wellFormed : Instr → Bool
  | .add _ _ _ => true
  | .sub _ _ _ => true
  | .sll _ _ _ => true
  | .slt _ _ _ => true
  | .sltu _ _ _ => true
  | .xor _ _ _ => true
  | .srl _ _ _ => true
  | .sra _ _ _ => true
  | .or _ _ _ => true
  | .and _ _ _ => true
  | .addi _ _ _ => true
  | .slti _ _ _ => true
  | .sltiu _ _ _ => true
  | .xori _ _ _ => true
  | .ori _ _ _ => true
  | .andi _ _ _ => true
  | .slli _ _ _ => true
  | .srli _ _ _ => true
  | .srai _ _ _ => true
  | .lb _ _ _ => true
  | .lh _ _ _ => true
  | .lw _ _ _ => true
  | .lbu _ _ _ => true
  | .lhu _ _ _ => true
  | .sb _ _ _ => true
  | .sh _ _ _ => true
  | .sw _ _ _ => true
  | .beq _ _ offset => branchOffsetOk offset
  | .bne _ _ offset => branchOffsetOk offset
  | .blt _ _ offset => branchOffsetOk offset
  | .bge _ _ offset => branchOffsetOk offset
  | .bltu _ _ offset => branchOffsetOk offset
  | .bgeu _ _ offset => branchOffsetOk offset
  | .jal _ offset => jumpOffsetOk offset
  | .jalr _ _ _ => true
  | .lui _ _ => true
  | .auipc _ _ => true
  | .ecall => true

end Sys2Proof
end

