-- ==== Sys2Proof/Decode.lean ====
section
/-! DEFINITION. The Decoder and the Dispatcher (30_encoding; 00_scope R12, R13), then the encoder. Decoder: word to record,
or `unknownOpcode`. Dispatcher: record to one of 38 operation identifiers, or `undefinedSlot`. Total on every word (R122). -/

namespace Sys2Proof

/-! ## Bits, extension, byte order -/

/-- `sext_N` (00_scope R9). -/
def sext {n : Nat} (v : BitVec n) : Word := v.signExtend 32

/-- `zext_N` (00_scope R9). -/
def zext {n : Nat} (v : BitVec n) : Word := v.setWidth 32

/-- The register a 5-bit field names (10_state R20), copied unchanged (30_encoding R92). -/
def regOfBits (b : BitVec 5) : Reg := b.toFin

/-- The 5-bit field that names a register. -/
def bitsOfReg (r : Reg) : BitVec 5 := BitVec.ofFin r

/-- The little-endian word of four bytes, byte 0 least significant (20_memory R51). -/
def wordOfBytes (b0 b1 b2 b3 : Byte) : Word := b3 ++ b2 ++ b1 ++ b0

/-- The four bytes of a word, lowest address first (20_memory R51, R55). -/
def bytesOfWord (w : Word) : List Byte :=
  [w.extractLsb' 0 8, w.extractLsb' 8 8, w.extractLsb' 16 8, w.extractLsb' 24 8]

/-! ## Fields of a word (30_encoding R81) -/

def opcodeOf (w : Word) : BitVec 7 := w.extractLsb' 0 7
def rdOf (w : Word) : Reg := regOfBits (w.extractLsb' 7 5)
def funct3Of (w : Word) : BitVec 3 := w.extractLsb' 12 3
def rs1Of (w : Word) : Reg := regOfBits (w.extractLsb' 15 5)
def rs2Of (w : Word) : Reg := regOfBits (w.extractLsb' 20 5)
def funct7Of (w : Word) : BitVec 7 := w.extractLsb' 25 7

/-- The funct7 variant index: `instr[30]` (30_encoding R100). -/
def variantOf (w : Word) : Bool := w.getLsbD 30

/-! ## Immediates (30_encoding R93 to R98) -/

/-- The six formats (30_encoding R89). -/
inductive Format where
  | r | i | s | b | u | j
  deriving DecidableEq, Repr

/-- I-immediate (30_encoding R93). -/
def immI (w : Word) : Word := sext (w.extractLsb' 20 12)

/-- S-immediate (30_encoding R94). -/
def immS (w : Word) : Word := sext (w.extractLsb' 25 7 ++ w.extractLsb' 7 5)

/-- B-immediate (30_encoding R95). -/
def immB (w : Word) : Word :=
  sext (w.extractLsb' 31 1 ++ w.extractLsb' 7 1 ++ w.extractLsb' 25 6 ++ w.extractLsb' 8 4 ++ 0#1)

/-- U-immediate, zero-extended and unshifted (30_encoding R96). -/
def immU (w : Word) : Word := zext (w.extractLsb' 12 20)

/-- J-immediate (30_encoding R97). -/
def immJ (w : Word) : Word :=
  sext (w.extractLsb' 31 1 ++ w.extractLsb' 12 8 ++ w.extractLsb' 20 1 ++ w.extractLsb' 21 10 ++ 0#1)

/-- The immediate output: a six-way multiplexer selected by the format (30_encoding R98). -/
def immOf (f : Format) (w : Word) : Word :=
  match f with
  | .r => 0#32
  | .i => immI w
  | .s => immS w
  | .b => immB w
  | .u => immU w
  | .j => immJ w

/-! ## The Decoder (30_encoding R90 to R92) -/

/-- The opcode class (30_encoding R90). -/
inductive Cls where
  | op | opImm | load | jalr | system | store | branch | lui | auipc | jal
  deriving DecidableEq, Repr

/-- Why a word is a `DecodeFault` (60_exceptions R312). -/
inductive DecodeReason where
  /-- the low seven bits are none of the ten opcodes (30_encoding R91) -/
  | unknownOpcode
  /-- the opcode is known and the dispatch slot is undefined (30_encoding R119) -/
  | undefinedSlot
  deriving DecidableEq, Repr

/-- The classification table's first two columns (30_encoding R90). -/
def clsOf (opcode : BitVec 7) : Option Cls :=
  if opcode = 0x33#7 then some .op
  else if opcode = 0x13#7 then some .opImm
  else if opcode = 0x03#7 then some .load
  else if opcode = 0x67#7 then some .jalr
  else if opcode = 0x73#7 then some .system
  else if opcode = 0x23#7 then some .store
  else if opcode = 0x63#7 then some .branch
  else if opcode = 0x37#7 then some .lui
  else if opcode = 0x17#7 then some .auipc
  else if opcode = 0x6F#7 then some .jal
  else none

/-- The classification table's third column (30_encoding R90). -/
def Cls.format : Cls → Format
  | .op => .r
  | .opImm => .i
  | .load => .i
  | .jalr => .i
  | .system => .i
  | .store => .s
  | .branch => .b
  | .lui => .u
  | .auipc => .u
  | .jal => .j

/-- The class populates `rd` (30_encoding R90). -/
def Cls.hasRd : Cls → Bool
  | .store => false
  | .branch => false
  | .op => true
  | .opImm => true
  | .load => true
  | .jalr => true
  | .system => true
  | .lui => true
  | .auipc => true
  | .jal => true

/-- The class populates `rs1` (30_encoding R90). -/
def Cls.hasRs1 : Cls → Bool
  | .lui => false
  | .auipc => false
  | .jal => false
  | .op => true
  | .opImm => true
  | .load => true
  | .jalr => true
  | .system => true
  | .store => true
  | .branch => true

/-- The class populates `rs2` (30_encoding R90). -/
def Cls.hasRs2 : Cls → Bool
  | .op => true
  | .store => true
  | .branch => true
  | .opImm => false
  | .load => false
  | .jalr => false
  | .system => false
  | .lui => false
  | .auipc => false
  | .jal => false

/-- The class populates `funct3` (30_encoding R90). -/
def Cls.hasFunct3 : Cls → Bool
  | .lui => false
  | .auipc => false
  | .jal => false
  | .op => true
  | .opImm => true
  | .load => true
  | .jalr => true
  | .system => true
  | .store => true
  | .branch => true

/-- The word's `funct7` and `variant` are populated: class OP, or OP_IMM with funct3 001 or 101 (30_encoding R90). -/
def Cls.hasFunct7 (c : Cls) (funct3 : BitVec 3) : Bool :=
  match c with
  | .op => true
  | .opImm => funct3 == 0b001#3 || funct3 == 0b101#3
  | .load => false
  | .jalr => false
  | .system => false
  | .store => false
  | .branch => false
  | .lui => false
  | .auipc => false
  | .jal => false

/-- The decoded-instruction record (10_state R30). -/
structure Record where
  cls : Cls
  opcode : BitVec 7
  rd : Reg
  rs1 : Reg
  rs2 : Reg
  funct3 : BitVec 3
  funct7 : BitVec 7
  variant : Bool
  imm : Word
  deriving DecidableEq, Repr

/-- The record of a word of class `c`: a field the class does not populate is 0 (10_state R31, 30_encoding R92). -/
def recordOf (c : Cls) (w : Word) : Record where
  cls := c
  opcode := opcodeOf w
  rd := if c.hasRd then rdOf w else 0
  rs1 := if c.hasRs1 then rs1Of w else 0
  rs2 := if c.hasRs2 then rs2Of w else 0
  funct3 := if c.hasFunct3 then funct3Of w else 0#3
  funct7 := if c.hasFunct7 (funct3Of w) then funct7Of w else 0#7
  variant := c.hasFunct7 (funct3Of w) && variantOf w
  imm := immOf c.format w

/-- The Decoder (30_encoding R90, R91). -/
def decoder (w : Word) : Except DecodeReason Record :=
  match clsOf (opcodeOf w) with
  | none => .error .unknownOpcode
  | some c => .ok (recordOf c w)

/-! ## The Dispatcher (30_encoding R110 to R119) -/

/-- The operation identifiers (30_encoding R110). -/
inductive Op where
  | add | sub | sll | slt | sltu | xor | srl | sra | or | and
  | addi | slti | sltiu | xori | ori | andi | slli | srli | srai
  | lb | lh | lw | lbu | lhu
  | sb | sh | sw
  | beq | bne | blt | bge | bltu | bgeu
  | jal | jalr
  | lui | auipc
  | ecall
  deriving DecidableEq, Repr

/-- The OP table, funct3 then variant (30_encoding R112). -/
def opSlot (funct3 : BitVec 3) (variant : Bool) : Option Op :=
  match funct3.toNat, variant with
  | 0, false => some .add
  | 0, true => some .sub
  | 1, false => some .sll
  | 2, false => some .slt
  | 3, false => some .sltu
  | 4, false => some .xor
  | 5, false => some .srl
  | 5, true => some .sra
  | 6, false => some .or
  | 7, false => some .and
  | _, _ => none

/-- The OP slot after the funct7 check: funct7 is 0x00 or 0x20 (30_encoding R101, R112). -/
def dispatchOp (funct3 : BitVec 3) (funct7 : BitVec 7) (variant : Bool) : Option Op :=
  if funct7 = 0x00#7 ∨ funct7 = 0x20#7 then opSlot funct3 variant else none

/-- The OP_IMM table; the shift slots check `instr[31:26]`, the upper six bits of funct7 (30_encoding R101, R113). -/
def dispatchOpImm (funct3 : BitVec 3) (funct7 : BitVec 7) : Option Op :=
  match funct3.toNat with
  | 0 => some .addi
  | 1 => if funct7.extractLsb' 1 6 = 0b000000#6 then some .slli else none
  | 2 => some .slti
  | 3 => some .sltiu
  | 4 => some .xori
  | 5 =>
    if funct7.extractLsb' 1 6 = 0b000000#6 then some .srli
    else if funct7.extractLsb' 1 6 = 0b010000#6 then some .srai
    else none
  | 6 => some .ori
  | 7 => some .andi
  | _ => none

/-- The LOAD table (30_encoding R114). -/
def dispatchLoad (funct3 : BitVec 3) : Option Op :=
  match funct3.toNat with
  | 0 => some .lb
  | 1 => some .lh
  | 2 => some .lw
  | 4 => some .lbu
  | 5 => some .lhu
  | _ => none

/-- The STORE table (30_encoding R115). -/
def dispatchStore (funct3 : BitVec 3) : Option Op :=
  match funct3.toNat with
  | 0 => some .sb
  | 1 => some .sh
  | 2 => some .sw
  | _ => none

/-- The BRANCH table (30_encoding R116). -/
def dispatchBranch (funct3 : BitVec 3) : Option Op :=
  match funct3.toNat with
  | 0 => some .beq
  | 1 => some .bne
  | 4 => some .blt
  | 5 => some .bge
  | 6 => some .bltu
  | 7 => some .bgeu
  | _ => none

/-- JALR has the one slot funct3 = 000 (30_encoding R117). -/
def dispatchJalr (funct3 : BitVec 3) : Option Op :=
  if funct3 = 0b000#3 then some .jalr else none

/-- SYSTEM has the one slot whose whole word is 0x00000073 (30_encoding R118). -/
def dispatchSystem (r : Record) : Option Op :=
  if r.funct3 = 0b000#3 ∧ r.rd = 0 ∧ r.rs1 = 0 ∧ r.imm = 0#32 then some .ecall else none

/-- The two-level table (30_encoding R111). -/
def dispatchSlot (r : Record) : Option Op :=
  match r.cls with
  | .op => dispatchOp r.funct3 r.funct7 r.variant
  | .opImm => dispatchOpImm r.funct3 r.funct7
  | .load => dispatchLoad r.funct3
  | .store => dispatchStore r.funct3
  | .branch => dispatchBranch r.funct3
  | .jalr => dispatchJalr r.funct3
  | .system => dispatchSystem r
  | .jal => some .jal
  | .lui => some .lui
  | .auipc => some .auipc

/-- The Dispatcher: an undefined slot is a `DecodeFault` (30_encoding R119). -/
def dispatcher (r : Record) : Except DecodeReason Op :=
  match dispatchSlot r with
  | none => .error .undefinedSlot
  | some op => .ok op

/-- The instruction an operation identifier and its record stand for. -/
def instrOf (op : Op) (r : Record) : Instr :=
  match op with
  | .add => .add r.rd r.rs1 r.rs2
  | .sub => .sub r.rd r.rs1 r.rs2
  | .sll => .sll r.rd r.rs1 r.rs2
  | .slt => .slt r.rd r.rs1 r.rs2
  | .sltu => .sltu r.rd r.rs1 r.rs2
  | .xor => .xor r.rd r.rs1 r.rs2
  | .srl => .srl r.rd r.rs1 r.rs2
  | .sra => .sra r.rd r.rs1 r.rs2
  | .or => .or r.rd r.rs1 r.rs2
  | .and => .and r.rd r.rs1 r.rs2
  | .addi => .addi r.rd r.rs1 (r.imm.setWidth 12)
  | .slti => .slti r.rd r.rs1 (r.imm.setWidth 12)
  | .sltiu => .sltiu r.rd r.rs1 (r.imm.setWidth 12)
  | .xori => .xori r.rd r.rs1 (r.imm.setWidth 12)
  | .ori => .ori r.rd r.rs1 (r.imm.setWidth 12)
  | .andi => .andi r.rd r.rs1 (r.imm.setWidth 12)
  | .slli => .slli r.rd r.rs1 (r.imm.setWidth 6)
  | .srli => .srli r.rd r.rs1 (r.imm.setWidth 6)
  | .srai => .srai r.rd r.rs1 (r.imm.setWidth 6)
  | .lb => .lb r.rd r.rs1 (r.imm.setWidth 12)
  | .lh => .lh r.rd r.rs1 (r.imm.setWidth 12)
  | .lw => .lw r.rd r.rs1 (r.imm.setWidth 12)
  | .lbu => .lbu r.rd r.rs1 (r.imm.setWidth 12)
  | .lhu => .lhu r.rd r.rs1 (r.imm.setWidth 12)
  | .sb => .sb r.rs1 r.rs2 (r.imm.setWidth 12)
  | .sh => .sh r.rs1 r.rs2 (r.imm.setWidth 12)
  | .sw => .sw r.rs1 r.rs2 (r.imm.setWidth 12)
  | .beq => .beq r.rs1 r.rs2 (r.imm.setWidth 13)
  | .bne => .bne r.rs1 r.rs2 (r.imm.setWidth 13)
  | .blt => .blt r.rs1 r.rs2 (r.imm.setWidth 13)
  | .bge => .bge r.rs1 r.rs2 (r.imm.setWidth 13)
  | .bltu => .bltu r.rs1 r.rs2 (r.imm.setWidth 13)
  | .bgeu => .bgeu r.rs1 r.rs2 (r.imm.setWidth 13)
  | .jal => .jal r.rd (r.imm.setWidth 21)
  | .jalr => .jalr r.rd r.rs1 (r.imm.setWidth 12)
  | .lui => .lui r.rd (r.imm.setWidth 20)
  | .auipc => .auipc r.rd (r.imm.setWidth 20)
  | .ecall => .ecall

/-- Decode and dispatch, one after the other: the operation a word selects with its record, or the reason it is illegal
(30_encoding R122). -/
def select (w : Word) : Except DecodeReason (Op × Record) :=
  match decoder w with
  | .error e => .error e
  | .ok r =>
    match dispatcher r with
    | .error e => .error e
    | .ok op => .ok (op, r)

/-- The instruction a word stands for, or the reason it is a `DecodeFault`. -/
def decodeWord (w : Word) : Except DecodeReason Instr :=
  match select w with
  | .error e => .error e
  | .ok (op, r) => .ok (instrOf op r)

/-- Why a byte sequence gives no instruction. -/
inductive Reject where
  /-- fewer than the four bytes of an instruction (30_encoding R80); a step never meets it: its fetch is bounds-checked (log 13) -/
  | tooShort
  /-- the word is a `DecodeFault` -/
  | illegal (reason : DecodeReason)
  deriving DecidableEq, Repr

/-- Decoding bytes, lowest address first: one instruction and the bytes after it (30_encoding R80: one length). -/
def decodeBytes : List Byte → Except Reject (Instr × List Byte)
  | b0 :: b1 :: b2 :: b3 :: rest =>
    match decodeWord (wordOfBytes b0 b1 b2 b3) with
    | .error e => .error (.illegal e)
    | .ok i => .ok (i, rest)
  | _ => .error .tooShort

/-- The word whose low `nbits` bits are those of `w` and whose other bits are 0. -/
def tableWord (nbits w : Nat) : Word := BitVec.ofNat 32 (w % 2 ^ nbits)

/-- What the decoder reads from an instruction numbered as spec/opcode_table.json numbers it, laid out in memory order. -/
def decodeTableWord (nbits w : Nat) : Option Instr :=
  match decodeBytes (bytesOfWord (tableWord nbits w)) with
  | .ok (i, _) => some i
  | .error _ => none

/-! ## The opcode table (spec/opcode_table.json; 30_encoding R122) -/

/-- The row's `match`. -/
def Op.matchBits : Op → Word
  | .add => 0x00000033#32
  | .sub => 0x40000033#32
  | .sll => 0x00001033#32
  | .slt => 0x00002033#32
  | .sltu => 0x00003033#32
  | .xor => 0x00004033#32
  | .srl => 0x00005033#32
  | .sra => 0x40005033#32
  | .or => 0x00006033#32
  | .and => 0x00007033#32
  | .addi => 0x00000013#32
  | .slti => 0x00002013#32
  | .sltiu => 0x00003013#32
  | .xori => 0x00004013#32
  | .ori => 0x00006013#32
  | .andi => 0x00007013#32
  | .slli => 0x00001013#32
  | .srli => 0x00005013#32
  | .srai => 0x40005013#32
  | .lb => 0x00000003#32
  | .lh => 0x00001003#32
  | .lw => 0x00002003#32
  | .lbu => 0x00004003#32
  | .lhu => 0x00005003#32
  | .sb => 0x00000023#32
  | .sh => 0x00001023#32
  | .sw => 0x00002023#32
  | .beq => 0x00000063#32
  | .bne => 0x00001063#32
  | .blt => 0x00004063#32
  | .bge => 0x00005063#32
  | .bltu => 0x00006063#32
  | .bgeu => 0x00007063#32
  | .jal => 0x0000006F#32
  | .jalr => 0x00000067#32
  | .lui => 0x00000037#32
  | .auipc => 0x00000017#32
  | .ecall => 0x00000073#32

/-- The row's `mask`. -/
def Op.maskBits : Op → Word
  | .add => 0xFE00707F#32
  | .sub => 0xFE00707F#32
  | .sll => 0xFE00707F#32
  | .slt => 0xFE00707F#32
  | .sltu => 0xFE00707F#32
  | .xor => 0xFE00707F#32
  | .srl => 0xFE00707F#32
  | .sra => 0xFE00707F#32
  | .or => 0xFE00707F#32
  | .and => 0xFE00707F#32
  | .addi => 0x0000707F#32
  | .slti => 0x0000707F#32
  | .sltiu => 0x0000707F#32
  | .xori => 0x0000707F#32
  | .ori => 0x0000707F#32
  | .andi => 0x0000707F#32
  | .slli => 0xFC00707F#32
  | .srli => 0xFC00707F#32
  | .srai => 0xFC00707F#32
  | .lb => 0x0000707F#32
  | .lh => 0x0000707F#32
  | .lw => 0x0000707F#32
  | .lbu => 0x0000707F#32
  | .lhu => 0x0000707F#32
  | .sb => 0x0000707F#32
  | .sh => 0x0000707F#32
  | .sw => 0x0000707F#32
  | .beq => 0x0000707F#32
  | .bne => 0x0000707F#32
  | .blt => 0x0000707F#32
  | .bge => 0x0000707F#32
  | .bltu => 0x0000707F#32
  | .bgeu => 0x0000707F#32
  | .jal => 0x0000007F#32
  | .jalr => 0x0000707F#32
  | .lui => 0x0000007F#32
  | .auipc => 0x0000007F#32
  | .ecall => 0xFFFFFFFF#32

/-- The operation identifier of an instruction. -/
def Instr.op : Instr → Op
  | .add _ _ _ => .add
  | .sub _ _ _ => .sub
  | .sll _ _ _ => .sll
  | .slt _ _ _ => .slt
  | .sltu _ _ _ => .sltu
  | .xor _ _ _ => .xor
  | .srl _ _ _ => .srl
  | .sra _ _ _ => .sra
  | .or _ _ _ => .or
  | .and _ _ _ => .and
  | .addi _ _ _ => .addi
  | .slti _ _ _ => .slti
  | .sltiu _ _ _ => .sltiu
  | .xori _ _ _ => .xori
  | .ori _ _ _ => .ori
  | .andi _ _ _ => .andi
  | .slli _ _ _ => .slli
  | .srli _ _ _ => .srli
  | .srai _ _ _ => .srai
  | .lb _ _ _ => .lb
  | .lh _ _ _ => .lh
  | .lw _ _ _ => .lw
  | .lbu _ _ _ => .lbu
  | .lhu _ _ _ => .lhu
  | .sb _ _ _ => .sb
  | .sh _ _ _ => .sh
  | .sw _ _ _ => .sw
  | .beq _ _ _ => .beq
  | .bne _ _ _ => .bne
  | .blt _ _ _ => .blt
  | .bge _ _ _ => .bge
  | .bltu _ _ _ => .bltu
  | .bgeu _ _ _ => .bgeu
  | .jal _ _ => .jal
  | .jalr _ _ _ => .jalr
  | .lui _ _ => .lui
  | .auipc _ _ => .auipc
  | .ecall => .ecall

/-! ## The encoder, from the format tables of 30_encoding R82 to R88 -/

/-- R format (30_encoding R82), opcode 0x33. -/
def encR (funct7 : BitVec 7) (funct3 : BitVec 3) (rd rs1 rs2 : Reg) : Word :=
  funct7 ++ bitsOfReg rs2 ++ bitsOfReg rs1 ++ funct3 ++ bitsOfReg rd ++ 0x33#7

/-- I format (30_encoding R83). -/
def encI (opcode : BitVec 7) (funct3 : BitVec 3) (rd rs1 : Reg) (imm : BitVec 12) : Word :=
  imm ++ bitsOfReg rs1 ++ funct3 ++ bitsOfReg rd ++ opcode

/-- The shift forms of the I format, opcode 0x13 (30_encoding R83, R101). -/
def encShift (funct6 : BitVec 6) (funct3 : BitVec 3) (rd rs1 : Reg) (amount : BitVec 6) : Word :=
  funct6 ++ amount ++ bitsOfReg rs1 ++ funct3 ++ bitsOfReg rd ++ 0x13#7

/-- S format (30_encoding R85), opcode 0x23. -/
def encS (funct3 : BitVec 3) (rs1 rs2 : Reg) (imm : BitVec 12) : Word :=
  imm.extractLsb' 5 7 ++ bitsOfReg rs2 ++ bitsOfReg rs1 ++ funct3 ++ imm.extractLsb' 0 5 ++ 0x23#7

/-- B format (30_encoding R86), opcode 0x63. -/
def encB (funct3 : BitVec 3) (rs1 rs2 : Reg) (offset : BitVec 13) : Word :=
  offset.extractLsb' 12 1 ++ offset.extractLsb' 5 6 ++ bitsOfReg rs2 ++ bitsOfReg rs1 ++ funct3 ++
    offset.extractLsb' 1 4 ++ offset.extractLsb' 11 1 ++ 0x63#7

/-- U format (30_encoding R87). -/
def encU (opcode : BitVec 7) (rd : Reg) (imm20 : BitVec 20) : Word :=
  imm20 ++ bitsOfReg rd ++ opcode

/-- J format (30_encoding R88), opcode 0x6F. -/
def encJ (rd : Reg) (offset : BitVec 21) : Word :=
  offset.extractLsb' 20 1 ++ offset.extractLsb' 1 10 ++ offset.extractLsb' 11 1 ++ offset.extractLsb' 12 8 ++
    bitsOfReg rd ++ 0x6F#7

/-- The word of a well-formed instruction. -/
def encode : Instr → Word
  | .add rd rs1 rs2 => encR 0x00#7 0b000#3 rd rs1 rs2
  | .sub rd rs1 rs2 => encR 0x20#7 0b000#3 rd rs1 rs2
  | .sll rd rs1 rs2 => encR 0x00#7 0b001#3 rd rs1 rs2
  | .slt rd rs1 rs2 => encR 0x00#7 0b010#3 rd rs1 rs2
  | .sltu rd rs1 rs2 => encR 0x00#7 0b011#3 rd rs1 rs2
  | .xor rd rs1 rs2 => encR 0x00#7 0b100#3 rd rs1 rs2
  | .srl rd rs1 rs2 => encR 0x00#7 0b101#3 rd rs1 rs2
  | .sra rd rs1 rs2 => encR 0x20#7 0b101#3 rd rs1 rs2
  | .or rd rs1 rs2 => encR 0x00#7 0b110#3 rd rs1 rs2
  | .and rd rs1 rs2 => encR 0x00#7 0b111#3 rd rs1 rs2
  | .addi rd rs1 imm => encI 0x13#7 0b000#3 rd rs1 imm
  | .slti rd rs1 imm => encI 0x13#7 0b010#3 rd rs1 imm
  | .sltiu rd rs1 imm => encI 0x13#7 0b011#3 rd rs1 imm
  | .xori rd rs1 imm => encI 0x13#7 0b100#3 rd rs1 imm
  | .ori rd rs1 imm => encI 0x13#7 0b110#3 rd rs1 imm
  | .andi rd rs1 imm => encI 0x13#7 0b111#3 rd rs1 imm
  | .slli rd rs1 amount => encShift 0b000000#6 0b001#3 rd rs1 amount
  | .srli rd rs1 amount => encShift 0b000000#6 0b101#3 rd rs1 amount
  | .srai rd rs1 amount => encShift 0b010000#6 0b101#3 rd rs1 amount
  | .lb rd rs1 imm => encI 0x03#7 0b000#3 rd rs1 imm
  | .lh rd rs1 imm => encI 0x03#7 0b001#3 rd rs1 imm
  | .lw rd rs1 imm => encI 0x03#7 0b010#3 rd rs1 imm
  | .lbu rd rs1 imm => encI 0x03#7 0b100#3 rd rs1 imm
  | .lhu rd rs1 imm => encI 0x03#7 0b101#3 rd rs1 imm
  | .sb rs1 rs2 imm => encS 0b000#3 rs1 rs2 imm
  | .sh rs1 rs2 imm => encS 0b001#3 rs1 rs2 imm
  | .sw rs1 rs2 imm => encS 0b010#3 rs1 rs2 imm
  | .beq rs1 rs2 offset => encB 0b000#3 rs1 rs2 offset
  | .bne rs1 rs2 offset => encB 0b001#3 rs1 rs2 offset
  | .blt rs1 rs2 offset => encB 0b100#3 rs1 rs2 offset
  | .bge rs1 rs2 offset => encB 0b101#3 rs1 rs2 offset
  | .bltu rs1 rs2 offset => encB 0b110#3 rs1 rs2 offset
  | .bgeu rs1 rs2 offset => encB 0b111#3 rs1 rs2 offset
  | .jal rd offset => encJ rd offset
  | .jalr rd rs1 imm => encI 0x67#7 0b000#3 rd rs1 imm
  | .lui rd imm20 => encU 0x37#7 rd imm20
  | .auipc rd imm20 => encU 0x17#7 rd imm20
  | .ecall => encI 0x73#7 0b000#3 0 0 0#12

/-- The bytes of an instruction, lowest address first. -/
def encodeBytes (i : Instr) : List Byte := bytesOfWord (encode i)

end Sys2Proof
end

