-- ==== Sys2Proof/Machine/State.lean ====
section
/-! DEFINITION. The machine's state (10_state), what a fault records (60_exceptions R315), the reasons a step stops, and
the state at reset (10_state R33). -/

namespace Sys2Proof.Machine

/-- Which access a `MemoryFault` came from (60_exceptions R313). -/
inductive Access where
  | fetch | load | store
  deriving DecidableEq, Repr

/-- The width of an access: 1, 2 or 4 bytes (20_memory R58). -/
inductive Width where
  | byte | half | word
  deriving DecidableEq, Repr

/-- What a fault records (60_exceptions R315): the kind, the reason or access kind, the address `pc` of the faulting
instruction, the faulting address, and for a decode fault the word. -/
inductive FaultRecord where
  /-- `DecodeFault`: raised by the decode and dispatch stages (60_exceptions R312); the spec's own stop, safe. -/
  | decode (reason : DecodeReason) (pc : Word) (word : Word)
  /-- `MemoryFault`: raised by the fetch stage, a load or a store out of bounds (60_exceptions R313); the spec's own stop, safe. -/
  | memory (access : Access) (pc : Word) (addr : Word)
  /-- `AlignmentFault`: raised when the new pc is not a multiple of 4 (60_exceptions R314); the spec's own stop, safe. -/
  | alignment (pc : Word) (addr : Word)
  deriving DecidableEq, Repr

/-- The run state (10_state R27). -/
inductive RunState where
  | running
  | halted
  | faulted (record : FaultRecord)
  deriving DecidableEq, Repr

/-- The memory: the bytes that differ from what an unlisted address reads as, addresses strictly rising (10_state R32). -/
abbrev Memory := List Host.Cell

/-- The whole machine state (10_state R20 to R34). -/
structure State where
  /-- x0 to x31 (10_state R20); read and written through `readReg` and `writeReg` only -/
  regs : Vector Word 32
  /-- the program counter: during a step, the address of the instruction being executed (10_state R25) -/
  pc : Word
  /-- the run state (10_state R27) -/
  run : RunState
  /-- the branch-taken signal (10_state R26) -/
  branched : Bool
  /-- the target that `pc <- target` records for the advance stage (40_control_loop R145, R152); 0 between steps (log 3) -/
  target : Word
  /-- the request to halt, read by the halt stage (40_control_loop R148, R152); false between steps (log 3) -/
  haltReq : Bool
  /-- the memory (10_state R32) -/
  mem : Memory
  /-- the model argument `MEM_SIZE` (00_scope R6, 92 D5); no step changes it (log 1) -/
  memSize : Nat
  /-- the result sink: its 128 bytes once written (70_reset R355, R356; log 7) -/
  sink : Option (List Byte)
  deriving DecidableEq, Repr

/-- Why the machine stops. -/
inductive Fault where
  /-- `raise`: a fault of the spec ends the run in `Faulted` (60_exceptions R311). `left` is the state the engine is left
  in, its run state `faulted record` (R316, log 5). Raised by `issue` (fetch, decode, dispatch), by the loads and stores,
  and by the alignment check. Safe: the hardware stops too. -/
  | raised (record : FaultRecord) (left : State)
  /-- A step was asked of an engine that is `Halted` or `Faulted`: "No step exists from either" (40_control_loop R149).
  Raised by `issue`. Safe: the hardware takes no step either (log 6). -/
  | terminated (run : RunState)
  deriving DecidableEq, Repr

/-- Why an instruction has no outcome. -/
inductive Refusal where
  /-- The instruction is not modelled yet; answered by `exec`'s own arms only. Safe: nothing is claimed of it. -/
  | notModelled (mnemonic : String)
  deriving DecidableEq, Repr

/-- The outcome of an instruction or a step. -/
abbrev Result := Host.Outcome State Fault Refusal

/-- The machine right after reset (10_state R33, 70_reset R350), with no image placed: every register and the pc 0,
`Running`, `branched` false, every byte of memory 0x00. `boot` places an image. -/
def State.reset : State where
  regs := Vector.replicate 32 0#32
  pc := Config.resetPc
  run := .running
  branched := false
  target := 0#32
  haltReq := false
  mem := []
  memSize := Config.memSizeDefault
  sink := none

end Sys2Proof.Machine
end

