-- ==== Sys2Proof/Machine/Operands.lean ====
section
/-! DEFINITION. Operand forms and the arithmetic of the execution units (00_scope R8, R9; 30_encoding R99; 41 R180). -/

namespace Sys2Proof.Machine

/-- `a <s b` on two's-complement readings (00_scope R8). -/
def ltSigned (a b : Word) : Bool := a.slt b

/-- `a <u b` on unsigned readings (00_scope R8). -/
def ltUnsigned (a b : Word) : Bool := a.ult b

/-- `bool_to_word` (00_scope R8). -/
def boolToWord (c : Bool) : Word := if c then 1#32 else 0#32

/-- The shift amount of a register shift: `b[4:0]` (30_encoding R99). -/
def shamtOfReg (b : Word) : Nat := (b.extractLsb' 0 5).toNat

/-- The shift amount of an immediate shift: the low five bits of the encoded amount (30_encoding R99). -/
def shamtOfAmount (amount : BitVec 6) : Nat := (amount.extractLsb' 0 5).toNat

/-- `a << s` (00_scope R8). -/
def shiftLeft (a : Word) (s : Nat) : Word := a <<< s

/-- `a >>u s`, zero fill (00_scope R8). -/
def shiftRightLogical (a : Word) (s : Nat) : Word := a >>> s

/-- `a >>s s`, filled with `a[31]` (00_scope R8). -/
def shiftRightArith (a : Word) (s : Nat) : Word := a.sshiftRight s

/-- `imm << 12` of a U-immediate: the shift happens at use (30_encoding R96). -/
def upperImm (imm20 : BitVec 20) : Word := zext imm20 <<< 12

/-- The effective address of a load or store, modulo 2^32 (20_memory R52). -/
def effAddr (base : Word) (imm : BitVec 12) : Word := base + sext imm

/-- The target of a branch or JAL, modulo 2^32 (45 R250, 46 R270). -/
def relTarget {n : Nat} (pc : Word) (offset : BitVec n) : Word := pc + sext offset

/-- The target of JALR: bit 0 of the sum is cleared (46 R271, 92 D7). -/
def jalrTarget (base : Word) (imm : BitVec 12) : Word := (base + sext imm) &&& 0xFFFFFFFE#32

/-- The link value `pc + 4`, modulo 2^32 (46 R270, R271). -/
def linkOf (pc : Word) : Word := pc + 4#32

/-- How many bytes an access of a width moves (20_memory R58). -/
def Width.bytes : Width → Nat
  | .byte => 1
  | .half => 2
  | .word => 4

/-- `sext_8` of the value read (43 R211). -/
def sextByte (v : Word) : Word := sext (v.setWidth 8)

/-- `zext_8` of the value read (43 R214). -/
def zextByte (v : Word) : Word := zext (v.setWidth 8)

/-- `sext_16` of the value read (43 R212). -/
def sextHalf (v : Word) : Word := sext (v.setWidth 16)

/-- `zext_16` of the value read (43 R215). -/
def zextHalf (v : Word) : Word := zext (v.setWidth 16)

end Sys2Proof.Machine
end

