-- ==== Sys2Proof/Machine/Flags.lean ====
section
/-! DEFINITION. The engine has no flags or condition codes (10_state R28): a comparison decides a branch inside one step.
Here are the six branch conditions; `branched` (R26), the one flag-like bit, is set by `jumpTo` in Ops.lean. -/

namespace Sys2Proof.Machine

/-- BEQ's condition (45 R251). -/
def condEq (a b : Word) : Bool := a == b

/-- BNE's condition (45 R252). -/
def condNe (a b : Word) : Bool := a != b

/-- BLT's condition, signed (45 R253). -/
def condLt (a b : Word) : Bool := ltSigned a b

/-- BGE's condition, signed (45 R254). -/
def condGe (a b : Word) : Bool := !ltSigned a b

/-- BLTU's condition, unsigned (45 R255). -/
def condLtu (a b : Word) : Bool := ltUnsigned a b

/-- BGEU's condition, unsigned (45 R256). -/
def condGeu (a b : Word) : Bool := !ltUnsigned a b

end Sys2Proof.Machine
end

