-- ==== Sys2Proof/Machine/Ops.lean ====
section
/-! DEFINITION. The named operations over registers, memory and the run: every read and write goes through one of them, and
the stages of the control loop (40_control_loop R141 to R148) are built of them. -/

namespace Sys2Proof.Machine

/-! ## Registers (10_state R20 to R22) -/

/-- `x[i]`: x0 reads 0 (10_state R21). -/
def State.readReg (s : State) (r : Reg) : Word :=
  if r = 0 then 0#32 else s.regs[r.val]

/-- `x[i] <- v`: a write to x0 is discarded at the write port (10_state R22). -/
def State.writeReg (s : State) (r : Reg) (v : Word) : State :=
  if r = 0 then s else { s with regs := s.regs.set r.val v }

/-! ## Memory (20_memory) -/

/-- The canonical form: addresses strictly rising, no entry equal to what an unlisted address reads as. -/
abbrev Memory.wf (m : Memory) : Prop :=
  m.Pairwise (fun c d => c.1 < d.1) ∧ ∀ c ∈ m, c.2 ≠ Config.unlistedByte

/-- The byte at an address; an unlisted one reads as 0x00 (10_state R33). -/
def Memory.readByte : Memory → Nat → Byte
  | [], _ => Config.unlistedByte
  | c :: m, a => if c.1 = a then c.2 else Memory.readByte m a

/-- A cell put before a list, left out where it equals what an unlisted address reads as. -/
def Memory.cons (a : Nat) (b : Byte) (m : Memory) : Memory :=
  if b = Config.unlistedByte then m else (a, b) :: m

/-- `memory[a] = b`, keeping the canonical form. -/
def Memory.writeByte : Memory → Nat → Byte → Memory
  | [], a, b => Memory.cons a b []
  | c :: m, a, b =>
    if a < c.1 then Memory.cons a b (c :: m)
    else if a = c.1 then Memory.cons a b m
    else c :: Memory.writeByte m a b

/-- Bytes written one after the other from an address upward (20_memory R55; an image: 70_reset R351). -/
def Memory.writeBytes (m : Memory) (a : Nat) : List Byte → Memory
  | [] => m
  | b :: bs => Memory.writeBytes (Memory.writeByte m a b) (a + 1) bs

/-- The little-endian value of an access, zero-extended to 32 bits (20_memory R51, R54). -/
def Memory.readLE (m : Memory) (a : Nat) : Width → Word
  | .byte => zext (Memory.readByte m a)
  | .half => zext (Memory.readByte m (a + 1) ++ Memory.readByte m a)
  | .word =>
    wordOfBytes (Memory.readByte m a) (Memory.readByte m (a + 1)) (Memory.readByte m (a + 2)) (Memory.readByte m (a + 3))

/-- The bytes a store of a width writes: the low 8, 16 or 32 bits, low byte first (20_memory R55, R58). -/
def storeBytes (width : Width) (v : Word) : List Byte := (bytesOfWord v).take width.bytes

/-- The byte of the machine's memory at an address. -/
def State.byteAt (s : State) (a : Nat) : Byte := Memory.readByte s.mem a

/-- The state with another memory. -/
def State.withMem (s : State) (m : Memory) : State := { s with mem := m }

/-- The access is in bounds: `addr + n <= MEM_SIZE`, the sum in unbounded integers (20_memory R53). -/
abbrev State.inBounds (s : State) (addr : Word) (width : Width) : Prop :=
  addr.toNat + width.bytes ≤ s.memSize

/-- `MemRead(addr, n)` (20_memory R54). -/
def State.memRead (s : State) (access : Access) (addr : Word) (width : Width) : Except FaultRecord Word :=
  if s.inBounds addr width then .ok (Memory.readLE s.mem addr.toNat width)
  else .error (.memory access s.pc addr)

/-- `MemWrite(addr, n, v)`: out of bounds, it writes no byte (20_memory R55). -/
def State.memWrite (s : State) (addr : Word) (width : Width) (v : Word) : Except FaultRecord State :=
  if s.inBounds addr width then .ok (s.withMem (Memory.writeBytes s.mem addr.toNat (storeBytes width v)))
  else .error (.memory .store s.pc addr)

/-! ## Faults (60_exceptions) -/

/-- The state a fault leaves: the run state is `Faulted` with the record (60_exceptions R311). -/
def State.enterFaulted (s : State) (record : FaultRecord) : State := { s with run := .faulted record }

/-- `raise F(info)`: the run ends in `Faulted` (60_exceptions R311). The engine has no trap entry: nothing else is saved,
no mode changes, control goes nowhere (R320), and there is no return from it. -/
def raise (record : FaultRecord) (s : State) : Result := .fault (.raised record (s.enterFaulted record))

/-! ## What an execution unit may do (40_control_loop R145) -/

/-- A register result: `x[rd] <- v`. -/
def writeResult (s : State) (rd : Reg) (v : Word) : Result := .next (s.writeReg rd v)

/-- `pc <- target`: record the target and set `branched` (00_scope R10, 40_control_loop R145). -/
def State.jumpTo (s : State) (target : Word) : State := { s with branched := true, target := target }

/-- A conditional branch (45 R250): taken, it sets the target pc + offset; otherwise it has no effect. -/
def branchIf (s : State) (taken : Bool) (offset : BitVec 13) : Result :=
  .next (if taken then s.jumpTo (relTarget s.pc offset) else s)

/-- A load (43 R210): address, bounds-checked read, extension, register write. -/
def loadTo (s : State) (rd rs1 : Reg) (imm : BitVec 12) (width : Width) (extend : Word → Word) : Result :=
  match s.memRead .load (effAddr (s.readReg rs1) imm) width with
  | .error record => raise record s
  | .ok v => writeResult s rd (extend v)

/-- A store (44 R230): address, bounds-checked write of the low bytes of x[rs2]. -/
def storeFrom (s : State) (rs1 rs2 : Reg) (imm : BitVec 12) (width : Width) : Result :=
  match s.memWrite (effAddr (s.readReg rs1) imm) width (s.readReg rs2) with
  | .error record => raise record s
  | .ok t => .next t

/-- The exit condition of ECALL: x17 or x10 equals 10, full width (48 R300, 92 D24). -/
def State.exitCondition (s : State) : Bool := s.readReg 17 == Config.exitCode || s.readReg 10 == Config.exitCode

/-- `halt`: ask for the transition to `Halted` at the end of the step (00_scope R10). -/
def State.requestHalt (s : State) : State := { s with haltReq := true }

/-! ## The stages of a step (40_control_loop R140 to R148) -/

/-- The step's first line: `branched <- false; halt_req <- false` (40_control_loop R152); the target latch is cleared with
them (log 3). -/
def State.beginCycle (s : State) : State := { s with branched := false, target := 0#32, haltReq := false }

/-- Fetch, decode and dispatch (40_control_loop R141 to R143), in that order: the instruction at the pc, or the first
fault. Nothing is changed. -/
def State.fetchDecode (s : State) : Except FaultRecord Instr :=
  match s.memRead .fetch s.pc .word with
  | .error record => .error record
  | .ok w =>
    match decodeWord w with
    | .error reason => .error (.decode reason s.pc w)
    | .ok i => .ok i

/-- What a step does before its instruction executes: a step exists in `Running` only (40_control_loop R140, R149). The
answer is the instruction and the state it executes in, or the fault. -/
def issue (s : State) : Except Fault (Instr × State) :=
  match s.run with
  | .running =>
    match s.beginCycle.fetchDecode with
    | .error record => .error (.raised record (s.beginCycle.enterFaulted record))
    | .ok i => .ok (i, s.beginCycle)
  | .halted => .error (.terminated .halted)
  | .faulted record => .error (.terminated (.faulted record))

/-- The pc after the advance stage (40_control_loop R146): the recorded target, or pc + 4 modulo 2^32. -/
def State.nextPc (s : State) : Word := if s.branched then s.target else s.pc + 4#32

/-- The advance stage (40_control_loop R146): the pc takes its new value, `branched` and the latch are cleared. -/
def State.advance (s : State) : State := { s with pc := s.nextPc, branched := false, target := 0#32 }

/-- A pc that is a multiple of 4 (10_state R25). -/
abbrev aligned (pc : Word) : Prop := pc.toNat % 4 = 0

/-- The result sink's bytes: 32 little-endian words, x0 to x31 in index order (70_reset R356). -/
def State.dump (s : State) : List Byte := (List.finRange 32).flatMap (fun r => bytesOfWord (s.readReg r))

/-- The transition to `Halted`: the sink is written once, from the registers at that moment (70_reset R355). -/
def State.enterHalted (s : State) : State := { s with run := .halted, haltReq := false, sink := some s.dump }

/-- The halt stage (40_control_loop R148). -/
def State.haltStage (s : State) : State := if s.haltReq then s.enterHalted else s

/-- Advance, alignment check, halt (40_control_loop R146 to R148), for the instruction at `pc`. -/
def retire (pc : Word) (t : State) : Result :=
  if aligned t.advance.pc then .next t.advance.haltStage
  else raise (.alignment pc t.advance.pc) t.advance

/-- The rest of a step after its execute stage: a stage that raised a fault ends it (40_control_loop R140). -/
def finish (pc : Word) : Result → Result
  | .next t => retire pc t
  | .fault f => .fault f
  | .refused r => .refused r

end Sys2Proof.Machine
end

