-- ==== Sys2Proof/Machine/AluImm.lean ====
section
/-! DEFINITION. Integer register-immediate instructions (42_alu_imm R190 to R198). Each definition is the
execute stage of its instruction (40_control_loop R145); the step's other stages are in Ops.lean. -/

namespace Sys2Proof.Machine

/-- ADDI (42 R190): `x[rd] <- a + imm`, modulo 2^32. -/
def execAddi (rd rs1 : Reg) (imm : BitVec 12) (s : State) : Result :=
  writeResult s rd (s.readReg rs1 + sext imm)

/-- SLTI (42 R191): `x[rd] <- bool_to_word(a <s imm)`. -/
def execSlti (rd rs1 : Reg) (imm : BitVec 12) (s : State) : Result :=
  writeResult s rd (boolToWord (ltSigned (s.readReg rs1) (sext imm)))

/-- SLTIU (42 R192): `x[rd] <- bool_to_word(a <u imm)`, the sign-extended immediate read as unsigned. -/
def execSltiu (rd rs1 : Reg) (imm : BitVec 12) (s : State) : Result :=
  writeResult s rd (boolToWord (ltUnsigned (s.readReg rs1) (sext imm)))

/-- XORI (42 R193): `x[rd] <- a ^ imm`. -/
def execXori (rd rs1 : Reg) (imm : BitVec 12) (s : State) : Result :=
  writeResult s rd (s.readReg rs1 ^^^ sext imm)

/-- ORI (42 R194): `x[rd] <- a | imm`. -/
def execOri (rd rs1 : Reg) (imm : BitVec 12) (s : State) : Result :=
  writeResult s rd (s.readReg rs1 ||| sext imm)

/-- ANDI (42 R195): `x[rd] <- a & imm`. -/
def execAndi (rd rs1 : Reg) (imm : BitVec 12) (s : State) : Result :=
  writeResult s rd (s.readReg rs1 &&& sext imm)

/-- SLLI (42 R196): `x[rd] <- a << imm[4:0]`. -/
def execSlli (rd rs1 : Reg) (amount : BitVec 6) (s : State) : Result :=
  writeResult s rd (shiftLeft (s.readReg rs1) (shamtOfAmount amount))

/-- SRLI (42 R197): `x[rd] <- a >>u imm[4:0]`. -/
def execSrli (rd rs1 : Reg) (amount : BitVec 6) (s : State) : Result :=
  writeResult s rd (shiftRightLogical (s.readReg rs1) (shamtOfAmount amount))

/-- SRAI (42 R198): `x[rd] <- a >>s imm[4:0]`. -/
def execSrai (rd rs1 : Reg) (amount : BitVec 6) (s : State) : Result :=
  writeResult s rd (shiftRightArith (s.readReg rs1) (shamtOfAmount amount))

end Sys2Proof.Machine
end

