-- ==== Sys2Proof/Machine/AluReg.lean ====
section
/-! DEFINITION. Integer register-register instructions (41_alu_reg R170 to R179). Each definition is the
execute stage of its instruction (40_control_loop R145); the step's other stages are in Ops.lean. -/

namespace Sys2Proof.Machine

/-- ADD (41 R170): `x[rd] <- a + b`, modulo 2^32. -/
def execAdd (rd rs1 rs2 : Reg) (s : State) : Result :=
  writeResult s rd (s.readReg rs1 + s.readReg rs2)

/-- SUB (41 R171): `x[rd] <- a - b`, modulo 2^32. -/
def execSub (rd rs1 rs2 : Reg) (s : State) : Result :=
  writeResult s rd (s.readReg rs1 - s.readReg rs2)

/-- SLL (41 R172): `x[rd] <- a << b[4:0]`. -/
def execSll (rd rs1 rs2 : Reg) (s : State) : Result :=
  writeResult s rd (shiftLeft (s.readReg rs1) (shamtOfReg (s.readReg rs2)))

/-- SLT (41 R173): `x[rd] <- bool_to_word(a <s b)`. -/
def execSlt (rd rs1 rs2 : Reg) (s : State) : Result :=
  writeResult s rd (boolToWord (ltSigned (s.readReg rs1) (s.readReg rs2)))

/-- SLTU (41 R174): `x[rd] <- bool_to_word(a <u b)`. -/
def execSltu (rd rs1 rs2 : Reg) (s : State) : Result :=
  writeResult s rd (boolToWord (ltUnsigned (s.readReg rs1) (s.readReg rs2)))

/-- XOR (41 R175): `x[rd] <- a ^ b`. -/
def execXor (rd rs1 rs2 : Reg) (s : State) : Result :=
  writeResult s rd (s.readReg rs1 ^^^ s.readReg rs2)

/-- SRL (41 R176): `x[rd] <- a >>u b[4:0]`. -/
def execSrl (rd rs1 rs2 : Reg) (s : State) : Result :=
  writeResult s rd (shiftRightLogical (s.readReg rs1) (shamtOfReg (s.readReg rs2)))

/-- SRA (41 R177): `x[rd] <- a >>s b[4:0]`. -/
def execSra (rd rs1 rs2 : Reg) (s : State) : Result :=
  writeResult s rd (shiftRightArith (s.readReg rs1) (shamtOfReg (s.readReg rs2)))

/-- OR (41 R178): `x[rd] <- a | b`. -/
def execOr (rd rs1 rs2 : Reg) (s : State) : Result :=
  writeResult s rd (s.readReg rs1 ||| s.readReg rs2)

/-- AND (41 R179): `x[rd] <- a & b`. -/
def execAnd (rd rs1 rs2 : Reg) (s : State) : Result :=
  writeResult s rd (s.readReg rs1 &&& s.readReg rs2)

end Sys2Proof.Machine
end

