-- ==== Sys2Proof/Machine/Branches.lean ====
section
/-! DEFINITION. Conditional branches (45_branches R250 to R256). Each definition is the
execute stage of its instruction (40_control_loop R145); the step's other stages are in Ops.lean. -/

namespace Sys2Proof.Machine

/-- BEQ (45 R251): `if a == b: pc <- pc + imm`. -/
def execBeq (rs1 rs2 : Reg) (offset : BitVec 13) (s : State) : Result :=
  branchIf s (condEq (s.readReg rs1) (s.readReg rs2)) offset

/-- BNE (45 R252): `if a != b: pc <- pc + imm`. -/
def execBne (rs1 rs2 : Reg) (offset : BitVec 13) (s : State) : Result :=
  branchIf s (condNe (s.readReg rs1) (s.readReg rs2)) offset

/-- BLT (45 R253): `if a <s b: pc <- pc + imm`. -/
def execBlt (rs1 rs2 : Reg) (offset : BitVec 13) (s : State) : Result :=
  branchIf s (condLt (s.readReg rs1) (s.readReg rs2)) offset

/-- BGE (45 R254): `if not (a <s b): pc <- pc + imm`. -/
def execBge (rs1 rs2 : Reg) (offset : BitVec 13) (s : State) : Result :=
  branchIf s (condGe (s.readReg rs1) (s.readReg rs2)) offset

/-- BLTU (45 R255): `if a <u b: pc <- pc + imm`. -/
def execBltu (rs1 rs2 : Reg) (offset : BitVec 13) (s : State) : Result :=
  branchIf s (condLtu (s.readReg rs1) (s.readReg rs2)) offset

/-- BGEU (45 R256): `if not (a <u b): pc <- pc + imm`. -/
def execBgeu (rs1 rs2 : Reg) (offset : BitVec 13) (s : State) : Result :=
  branchIf s (condGeu (s.readReg rs1) (s.readReg rs2)) offset

end Sys2Proof.Machine
end

