-- ==== Sys2Proof/Machine/Jumps.lean ====
section
/-! DEFINITION. Unconditional jumps (46_jumps R270, R271). Each definition is the
execute stage of its instruction (40_control_loop R145); the step's other stages are in Ops.lean. -/

namespace Sys2Proof.Machine

/-- JAL (46 R270): `x[rd] <- pc + 4`, `pc <- pc + imm`. -/
def execJal (rd : Reg) (offset : BitVec 21) (s : State) : Result :=
  .next ((s.writeReg rd (linkOf s.pc)).jumpTo (relTarget s.pc offset))

/-- JALR (46 R271): the target is computed from x[rs1] before the link write, bit 0 cleared. -/
def execJalr (rd rs1 : Reg) (imm : BitVec 12) (s : State) : Result :=
  .next ((s.writeReg rd (linkOf s.pc)).jumpTo (jalrTarget (s.readReg rs1) imm))

end Sys2Proof.Machine
end

