-- ==== Sys2Proof/Machine/Loads.lean ====
section
/-! DEFINITION. Loads (43_loads R210 to R215). Each definition is the
execute stage of its instruction (40_control_loop R145); the step's other stages are in Ops.lean. -/

namespace Sys2Proof.Machine

/-- LB (43 R211): `x[rd] <- sext_8(MemRead(x[rs1] + imm, 1))`. -/
def execLb (rd rs1 : Reg) (imm : BitVec 12) (s : State) : Result :=
  loadTo s rd rs1 imm .byte sextByte

/-- LH (43 R212): `x[rd] <- sext_16(MemRead(x[rs1] + imm, 2))`. -/
def execLh (rd rs1 : Reg) (imm : BitVec 12) (s : State) : Result :=
  loadTo s rd rs1 imm .half sextHalf

/-- LW (43 R213): `x[rd] <- MemRead(x[rs1] + imm, 4)`. -/
def execLw (rd rs1 : Reg) (imm : BitVec 12) (s : State) : Result :=
  loadTo s rd rs1 imm .word id

/-- LBU (43 R214): `x[rd] <- zext_8(MemRead(x[rs1] + imm, 1))`. -/
def execLbu (rd rs1 : Reg) (imm : BitVec 12) (s : State) : Result :=
  loadTo s rd rs1 imm .byte zextByte

/-- LHU (43 R215): `x[rd] <- zext_16(MemRead(x[rs1] + imm, 2))`. -/
def execLhu (rd rs1 : Reg) (imm : BitVec 12) (s : State) : Result :=
  loadTo s rd rs1 imm .half zextHalf

end Sys2Proof.Machine
end

