-- ==== Sys2Proof/Machine/Stores.lean ====
section
/-! DEFINITION. Stores (44_stores R230 to R233). Each definition is the
execute stage of its instruction (40_control_loop R145); the step's other stages are in Ops.lean. -/

namespace Sys2Proof.Machine

/-- SB (44 R231): `MemWrite(x[rs1] + imm, 1, x[rs2])`. -/
def execSb (rs1 rs2 : Reg) (imm : BitVec 12) (s : State) : Result :=
  storeFrom s rs1 rs2 imm .byte

/-- SH (44 R232): `MemWrite(x[rs1] + imm, 2, x[rs2])`. -/
def execSh (rs1 rs2 : Reg) (imm : BitVec 12) (s : State) : Result :=
  storeFrom s rs1 rs2 imm .half

/-- SW (44 R233): `MemWrite(x[rs1] + imm, 4, x[rs2])`. -/
def execSw (rs1 rs2 : Reg) (imm : BitVec 12) (s : State) : Result :=
  storeFrom s rs1 rs2 imm .word

end Sys2Proof.Machine
end

