-- ==== Sys2Proof/Machine/System.lean ====
section
/-! DEFINITION. The system instruction, the exit trap (48_system R300 to R302). Each definition is the
execute stage of its instruction (40_control_loop R145); the step's other stages are in Ops.lean. -/

namespace Sys2Proof.Machine

/-- ECALL (48 R300): it halts the run when the exit condition holds, and otherwise has no effect. It is no trap: it saves
no state and transfers control nowhere (R302). -/
def execEcall (s : State) : Result :=
  .next (if s.exitCondition then s.requestHalt else s)

end Sys2Proof.Machine
end

