-- ==== Sys2Proof/Machine/UpperImm.lean ====
section
/-! DEFINITION. Upper-immediate instructions (47_upper_imm R290, R291). Each definition is the
execute stage of its instruction (40_control_loop R145); the step's other stages are in Ops.lean. -/

namespace Sys2Proof.Machine

/-- LUI (47 R290): `x[rd] <- imm << 12`. -/
def execLui (rd : Reg) (imm20 : BitVec 20) (s : State) : Result :=
  writeResult s rd (upperImm imm20)

/-- AUIPC (47 R291): `x[rd] <- pc + (imm << 12)`, pc the instruction's own address. -/
def execAuipc (rd : Reg) (imm20 : BitVec 20) (s : State) : Result :=
  writeResult s rd (s.pc + upperImm imm20)

end Sys2Proof.Machine
end

