-- ==== Sys2Proof/Machine/Step.lean ====
section
/-! DEFINITION. One step of the control loop (40_control_loop R140, R152): issue, execute, finish. -/

namespace Sys2Proof.Machine

/-- A step: fetch, decode and dispatch; execute; advance, alignment check, halt (40_control_loop R152). -/
def step (s : State) : Host.Outcome State Fault Refusal :=
  match issue s with
  | .error f => .fault f
  | .ok (i, s0) => finish s0.pc (exec i s0)

/-- `s` with the word of an opcode-table row stored where the next fetch reads: the four bytes at the pc (20_memory R57).
A window that is out of bounds is left alone, since those bytes do not exist. The model's stand-in for an image placed
from outside (log 9). -/
def State.withFetchWord (s : State) (nbits w : Nat) : State :=
  if s.inBounds s.pc .word then s.withMem (Memory.writeBytes s.mem s.pc.toNat (bytesOfWord (tableWord nbits w))) else s

end Sys2Proof.Machine
end

