-- ==== Sys2Proof/Machine/Boot.lean ====
section
/-! DEFINITION. How a run begins (70_reset R350 to R352): the host supplies an image, or the engine never starts. -/

namespace Sys2Proof.Machine

/-- What the host can bring to the start of a run (70_reset R352). -/
inductive ImageInput where
  /-- no image was named -/
  | missing
  /-- the image cannot be read -/
  | unreadable
  /-- the bytes of the image -/
  | image (bytes : List Byte)
  deriving DecidableEq, Repr

/-- Why the engine never starts (60_exceptions R310, 70_reset R352). -/
inductive StartError where
  | usageError
  | loadError
  deriving DecidableEq, Repr

/-- The state in which an image of bytes stands at offset 0 and everything else is as at reset (10_state R33, 70_reset R351). -/
def State.loaded (memSize : Nat) (bytes : List Byte) : State :=
  { State.reset with memSize := memSize, mem := Memory.writeBytes [] 0 bytes }

/-- The start of a run with capacity `memSize` (70_reset R350 to R352): an image longer than memory is refused. -/
def boot (memSize : Nat) : ImageInput → Except StartError State
  | .missing => .error .usageError
  | .unreadable => .error .loadError
  | .image bytes => if bytes.length ≤ memSize then .ok (State.loaded memSize bytes) else .error .loadError

end Sys2Proof.Machine
end

