-- ==== Sys2Proof/Machine/Run.lean ====
section
/-! DEFINITION. The end of a run and what is seen of it (40_control_loop R153, 60_exceptions R317). -/

namespace Sys2Proof.Machine

/-- The kind of a fault, the one thing of it that is observable (60_exceptions R315, R317). -/
inductive FaultKind where
  | decodeFault | memoryFault | alignmentFault
  deriving DecidableEq, Repr

/-- The kind a record names (60_exceptions R315). -/
def FaultRecord.kind : FaultRecord → FaultKind
  | .decode _ _ _ => .decodeFault
  | .memory _ _ _ => .memoryFault
  | .alignment _ _ => .alignmentFault

/-- The observable outcome of a run: exactly one of these two (40_control_loop R153). -/
inductive RunOutcome where
  /-- `Halted`, with the result sink -/
  | halted (sink : List Byte)
  /-- `Faulted(kind)`, with no result sink -/
  | faulted (kind : FaultKind)
  deriving DecidableEq, Repr

/-- What a state shows of its run: nothing while it is `Running`, otherwise its outcome (40_control_loop R153). -/
def State.outcome (s : State) : Option RunOutcome :=
  match s.run with
  | .running => none
  | .halted => s.sink.map .halted
  | .faulted record => some (.faulted record.kind)

/-- A run under a step budget: `none` is "not finished", never `Halted` (40_control_loop R153, 92 D18). -/
def runFor : Nat → State → Option RunOutcome
  | 0, s => s.outcome
  | fuel + 1, s =>
    match s.run with
    | .running =>
      match step s with
      | .next t => runFor fuel t
      | .fault (.raised _ left) => left.outcome
      | .fault (.terminated _) => none
      | .refused _ => none
    | .halted => s.outcome
    | .faulted _ => s.outcome

/-- Exit status of a run's outcome (60_exceptions R317, 92 D13). -/
def RunOutcome.exitStatus : RunOutcome → Nat
  | .halted _ => Config.exitHalted
  | .faulted .decodeFault => Config.exitDecodeFault
  | .faulted .memoryFault => Config.exitMemoryFault
  | .faulted .alignmentFault => Config.exitAlignmentFault

/-- Exit status of a run that never starts (60_exceptions R317, 92 D13). -/
def StartError.exitStatus : StartError → Nat
  | .usageError => Config.exitUsageError
  | .loadError => Config.exitLoadError

end Sys2Proof.Machine
end

