-- ==== Sys2Proof/Safety.lean ====
section
/-! DEFINITION. The terms claims are stated in: what a state between two steps satisfies, what an instruction reads, writes,
accesses and jumps to, and what a step did. -/

namespace Sys2Proof.Machine

/-! ## Between two steps -/

/-- What holds of the engine between two steps: 40_control_loop R150 (the slot of x0 is 0, the pc a multiple of 4, `branched`
clear), the model's two latches clear (log 3), memory canonical and inside its capacity (20_memory R50), and the result sink
written exactly when the run has halted (70_reset R355). A faulted run is left through `Fault.raised`, so a state a step
answers is `Running` or `Halted`. -/
structure State.Inv (s : State) : Prop where
  x0 : s.regs[0] = 0#32
  pcAligned : aligned s.pc
  branched : s.branched = false
  target : s.target = 0#32
  haltReq : s.haltReq = false
  memCanonical : Memory.wf s.mem
  memBounded : ∀ c ∈ s.mem, c.1 < s.memSize
  runSink : (s.run = .running ∧ s.sink = none) ∨ (s.run = .halted ∧ s.sink = some s.dump)

/-- A running engine whose next fetch is in bounds and reads the word `w`, little-endian (20_memory R57). -/
structure State.Fetches (s : State) (w : Word) : Prop where
  running : s.run = .running
  fetchInBounds : s.pc.toNat + 4 ≤ s.memSize
  bytes : ∀ k, k < 4 → s.byteAt (s.pc.toNat + k) = w.extractLsb' (8 * k) 8

end Sys2Proof.Machine

namespace Sys2Proof

open Machine

/-! ## What an instruction touches (10_state R24) -/

/-- The register an instruction writes; none for stores, branches and ECALL. -/
def Instr.dest : Instr → Option Reg
  | .add rd _ _ => some rd
  | .sub rd _ _ => some rd
  | .sll rd _ _ => some rd
  | .slt rd _ _ => some rd
  | .sltu rd _ _ => some rd
  | .xor rd _ _ => some rd
  | .srl rd _ _ => some rd
  | .sra rd _ _ => some rd
  | .or rd _ _ => some rd
  | .and rd _ _ => some rd
  | .addi rd _ _ => some rd
  | .slti rd _ _ => some rd
  | .sltiu rd _ _ => some rd
  | .xori rd _ _ => some rd
  | .ori rd _ _ => some rd
  | .andi rd _ _ => some rd
  | .slli rd _ _ => some rd
  | .srli rd _ _ => some rd
  | .srai rd _ _ => some rd
  | .lb rd _ _ => some rd
  | .lh rd _ _ => some rd
  | .lw rd _ _ => some rd
  | .lbu rd _ _ => some rd
  | .lhu rd _ _ => some rd
  | .sb _ _ _ => none
  | .sh _ _ _ => none
  | .sw _ _ _ => none
  | .beq _ _ _ => none
  | .bne _ _ _ => none
  | .blt _ _ _ => none
  | .bge _ _ _ => none
  | .bltu _ _ _ => none
  | .bgeu _ _ _ => none
  | .jal rd _ => some rd
  | .jalr rd _ _ => some rd
  | .lui rd _ => some rd
  | .auipc rd _ => some rd
  | .ecall => none

/-- The registers an instruction reads. -/
def Instr.sources : Instr → List Reg
  | .add _ rs1 rs2 => [rs1, rs2]
  | .sub _ rs1 rs2 => [rs1, rs2]
  | .sll _ rs1 rs2 => [rs1, rs2]
  | .slt _ rs1 rs2 => [rs1, rs2]
  | .sltu _ rs1 rs2 => [rs1, rs2]
  | .xor _ rs1 rs2 => [rs1, rs2]
  | .srl _ rs1 rs2 => [rs1, rs2]
  | .sra _ rs1 rs2 => [rs1, rs2]
  | .or _ rs1 rs2 => [rs1, rs2]
  | .and _ rs1 rs2 => [rs1, rs2]
  | .addi _ rs1 _ => [rs1]
  | .slti _ rs1 _ => [rs1]
  | .sltiu _ rs1 _ => [rs1]
  | .xori _ rs1 _ => [rs1]
  | .ori _ rs1 _ => [rs1]
  | .andi _ rs1 _ => [rs1]
  | .slli _ rs1 _ => [rs1]
  | .srli _ rs1 _ => [rs1]
  | .srai _ rs1 _ => [rs1]
  | .lb _ rs1 _ => [rs1]
  | .lh _ rs1 _ => [rs1]
  | .lw _ rs1 _ => [rs1]
  | .lbu _ rs1 _ => [rs1]
  | .lhu _ rs1 _ => [rs1]
  | .sb rs1 rs2 _ => [rs1, rs2]
  | .sh rs1 rs2 _ => [rs1, rs2]
  | .sw rs1 rs2 _ => [rs1, rs2]
  | .beq rs1 rs2 _ => [rs1, rs2]
  | .bne rs1 rs2 _ => [rs1, rs2]
  | .blt rs1 rs2 _ => [rs1, rs2]
  | .bge rs1 rs2 _ => [rs1, rs2]
  | .bltu rs1 rs2 _ => [rs1, rs2]
  | .bgeu rs1 rs2 _ => [rs1, rs2]
  | .jal _ _ => []
  | .jalr _ rs1 _ => [rs1]
  | .lui _ _ => []
  | .auipc _ _ => []
  | .ecall => [10, 17]

/-- The address and width a load reads; none for any other instruction (43 R210). -/
def Instr.loadAccess (i : Instr) (s : State) : Option (Word × Width) :=
  match i with
  | .add _ _ _ => none
  | .sub _ _ _ => none
  | .sll _ _ _ => none
  | .slt _ _ _ => none
  | .sltu _ _ _ => none
  | .xor _ _ _ => none
  | .srl _ _ _ => none
  | .sra _ _ _ => none
  | .or _ _ _ => none
  | .and _ _ _ => none
  | .addi _ _ _ => none
  | .slti _ _ _ => none
  | .sltiu _ _ _ => none
  | .xori _ _ _ => none
  | .ori _ _ _ => none
  | .andi _ _ _ => none
  | .slli _ _ _ => none
  | .srli _ _ _ => none
  | .srai _ _ _ => none
  | .lb _ rs1 imm => some (effAddr (s.readReg rs1) imm, .byte)
  | .lh _ rs1 imm => some (effAddr (s.readReg rs1) imm, .half)
  | .lw _ rs1 imm => some (effAddr (s.readReg rs1) imm, .word)
  | .lbu _ rs1 imm => some (effAddr (s.readReg rs1) imm, .byte)
  | .lhu _ rs1 imm => some (effAddr (s.readReg rs1) imm, .half)
  | .sb _ _ _ => none
  | .sh _ _ _ => none
  | .sw _ _ _ => none
  | .beq _ _ _ => none
  | .bne _ _ _ => none
  | .blt _ _ _ => none
  | .bge _ _ _ => none
  | .bltu _ _ _ => none
  | .bgeu _ _ _ => none
  | .jal _ _ => none
  | .jalr _ _ _ => none
  | .lui _ _ => none
  | .auipc _ _ => none
  | .ecall => none

/-- The address and width a store writes; none for any other instruction (44 R230). -/
def Instr.storeAccess (i : Instr) (s : State) : Option (Word × Width) :=
  match i with
  | .add _ _ _ => none
  | .sub _ _ _ => none
  | .sll _ _ _ => none
  | .slt _ _ _ => none
  | .sltu _ _ _ => none
  | .xor _ _ _ => none
  | .srl _ _ _ => none
  | .sra _ _ _ => none
  | .or _ _ _ => none
  | .and _ _ _ => none
  | .addi _ _ _ => none
  | .slti _ _ _ => none
  | .sltiu _ _ _ => none
  | .xori _ _ _ => none
  | .ori _ _ _ => none
  | .andi _ _ _ => none
  | .slli _ _ _ => none
  | .srli _ _ _ => none
  | .srai _ _ _ => none
  | .lb _ _ _ => none
  | .lh _ _ _ => none
  | .lw _ _ _ => none
  | .lbu _ _ _ => none
  | .lhu _ _ _ => none
  | .sb rs1 _ imm => some (effAddr (s.readReg rs1) imm, .byte)
  | .sh rs1 _ imm => some (effAddr (s.readReg rs1) imm, .half)
  | .sw rs1 _ imm => some (effAddr (s.readReg rs1) imm, .word)
  | .beq _ _ _ => none
  | .bne _ _ _ => none
  | .blt _ _ _ => none
  | .bge _ _ _ => none
  | .bltu _ _ _ => none
  | .bgeu _ _ _ => none
  | .jal _ _ => none
  | .jalr _ _ _ => none
  | .lui _ _ => none
  | .auipc _ _ => none
  | .ecall => none

/-- Where a jump or a taken branch goes; none for any other instruction and for a branch not taken (45 R250, 46 R270, R271). -/
def Instr.jumpTarget (i : Instr) (s : State) : Option Word :=
  match i with
  | .add _ _ _ => none
  | .sub _ _ _ => none
  | .sll _ _ _ => none
  | .slt _ _ _ => none
  | .sltu _ _ _ => none
  | .xor _ _ _ => none
  | .srl _ _ _ => none
  | .sra _ _ _ => none
  | .or _ _ _ => none
  | .and _ _ _ => none
  | .addi _ _ _ => none
  | .slti _ _ _ => none
  | .sltiu _ _ _ => none
  | .xori _ _ _ => none
  | .ori _ _ _ => none
  | .andi _ _ _ => none
  | .slli _ _ _ => none
  | .srli _ _ _ => none
  | .srai _ _ _ => none
  | .lb _ _ _ => none
  | .lh _ _ _ => none
  | .lw _ _ _ => none
  | .lbu _ _ _ => none
  | .lhu _ _ _ => none
  | .sb _ _ _ => none
  | .sh _ _ _ => none
  | .sw _ _ _ => none
  | .beq rs1 rs2 offset => if s.readReg rs1 = s.readReg rs2 then some (relTarget s.pc offset) else none
  | .bne rs1 rs2 offset => if s.readReg rs1 ≠ s.readReg rs2 then some (relTarget s.pc offset) else none
  | .blt rs1 rs2 offset => if (s.readReg rs1).toInt < (s.readReg rs2).toInt then some (relTarget s.pc offset) else none
  | .bge rs1 rs2 offset => if (s.readReg rs2).toInt ≤ (s.readReg rs1).toInt then some (relTarget s.pc offset) else none
  | .bltu rs1 rs2 offset => if (s.readReg rs1).toNat < (s.readReg rs2).toNat then some (relTarget s.pc offset) else none
  | .bgeu rs1 rs2 offset => if (s.readReg rs2).toNat ≤ (s.readReg rs1).toNat then some (relTarget s.pc offset) else none
  | .jal _ offset => some (relTarget s.pc offset)
  | .jalr _ rs1 imm => some (jalrTarget (s.readReg rs1) imm)
  | .lui _ _ => none
  | .auipc _ _ => none
  | .ecall => none

end Sys2Proof

namespace Sys2Proof.Machine

/-! ## What changed from one state to another -/

/-- Every register reads as before. -/
def RegsKept (s t : State) : Prop := ∀ r : Reg, t.readReg r = s.readReg r

/-- `rd` holds `v` (unless it is x0, which reads 0), every other register reads as before (10_state R21, R22). -/
def RegSet (s t : State) (rd : Reg) (v : Word) : Prop :=
  (rd ≠ 0 → t.readReg rd = v) ∧ t.readReg 0 = 0#32 ∧ ∀ r : Reg, r ≠ rd → t.readReg r = s.readReg r

/-- Every byte of memory reads as before. -/
def BytesKept (s t : State) : Prop := ∀ a : Nat, t.byteAt a = s.byteAt a

/-- The `n` bytes from `a` hold the low bytes of `v`, low byte first; every other byte reads as before (20_memory R55). -/
def BytesStored (s t : State) (a n : Nat) (v : Word) : Prop :=
  ∀ k : Nat, t.byteAt k = if a ≤ k ∧ k < a + n then v.extractLsb' (8 * (k - a)) 8 else s.byteAt k

/-- Everything but registers, memory and the step's own latches is as before. -/
def ControlKept (s t : State) : Prop :=
  t.pc = s.pc ∧ t.run = s.run ∧ t.memSize = s.memSize ∧ t.sink = s.sink

/-- The step's own latches are as before: no jump was asked for, no halt was asked for. -/
def LatchesKept (s t : State) : Prop :=
  t.branched = s.branched ∧ t.target = s.target ∧ t.haltReq = s.haltReq

/-- A jump to `target` was asked for, and no halt (40_control_loop R145). -/
def JumpAsked (s t : State) (target : Word) : Prop :=
  t.branched = true ∧ t.target = target ∧ t.haltReq = s.haltReq

/-- The run goes on at `newPc`: nothing but the pc, registers and memory may differ, and the latches are clear. -/
def GoesOn (s t : State) (newPc : Word) : Prop :=
  t.pc = newPc ∧ t.run = .running ∧ t.memSize = s.memSize ∧ t.sink = s.sink ∧
    t.branched = false ∧ t.target = 0#32 ∧ t.haltReq = false

/-! ## What a step did -/

/-- The step answers a state in which the run goes on at `newPc`, and of which `P` holds. -/
def StepsTo (s : State) (newPc : Word) (P : State → Prop) : Prop :=
  ∃ t, step s = .next t ∧ GoesOn s t newPc ∧ P t

/-- The step ends the run in `Faulted` with the record, and writes no result sink (60_exceptions R311, R317). -/
def StepFaults (s : State) (record : FaultRecord) : Prop :=
  ∃ left, step s = .fault (.raised record left) ∧ left.run = .faulted record ∧ left.sink = s.sink

/-- A branch to `target` (45 R250): taken it goes there, or faults if the target is not a multiple of 4; not taken it falls
through. It writes no register and no memory. -/
def BranchSteps (s : State) (taken : Prop) (target : Word) : Prop :=
  (taken → aligned target → StepsTo s target (fun t => RegsKept s t ∧ BytesKept s t)) ∧
  (taken → ¬ aligned target → StepFaults s (.alignment s.pc target)) ∧
  (¬ taken → StepsTo s (s.pc + 4#32) (fun t => RegsKept s t ∧ BytesKept s t))

/-! ## Numbers the rules name, read off a word independently of the decoder -/

/-- The I-immediate as a number, -2048 to 2047 (30_encoding R93). -/
def immINum (w : Word) : Int := (w.extractLsb' 20 12).toInt

/-- The S-immediate as a number (30_encoding R94). -/
def immSNum (w : Word) : Int := (w.extractLsb' 25 7 ++ w.extractLsb' 7 5).toInt

/-- The B-immediate as a number (30_encoding R95). -/
def immBNum (w : Word) : Int :=
  2 * (w.extractLsb' 31 1 ++ w.extractLsb' 7 1 ++ w.extractLsb' 25 6 ++ w.extractLsb' 8 4).toInt

/-- The J-immediate as a number (30_encoding R97). -/
def immJNum (w : Word) : Int :=
  2 * (w.extractLsb' 31 1 ++ w.extractLsb' 12 8 ++ w.extractLsb' 20 1 ++ w.extractLsb' 21 10).toInt

/-- A number as a word, modulo 2^32. -/
def wordOfInt (n : Int) : Word := BitVec.ofInt 32 n

/-- The two bytes at an address as a number, little-endian. -/
def State.halfAt (s : State) (a : Nat) : Nat := (s.byteAt a).toNat + 256 * (s.byteAt (a + 1)).toNat

/-- The four bytes at an address as a number, little-endian. -/
def State.wordAt (s : State) (a : Nat) : Nat := s.halfAt a + 65536 * s.halfAt (a + 2)

end Sys2Proof.Machine
end

