-- ==== Sys2Proof/Certificates/Slice0/Obligations.lean ====
section
/-! DEFINITION. The statements for the provers. Each says what a rule of the spec says an instruction, the decoder or the
machine does; OBLIGATIONS.json lists them with their rules. In every statement about a word, `s.Fetches w` says that the
engine runs and its next fetch reads `w`; `rdOf`, `rs1Of`, `rs2Of` are the register fields of 30_encoding R81. -/

open Sys2Proof Sys2Proof.Machine

/-! ## Decoding -/

/-- Nine words of the decode table of 95_test_vectors 2.1, one or more of each of the six formats, decode to the instructions
listed there; the tenth word is ECALL's, from 30_encoding R118 and 95_test_vectors 2.9 (V-E1). -/
def Obligations.SpecWordsDecodeAsListed : Prop :=
  decodeWord 0x41DF0FB3#32 = .ok (.sub 31 30 29) ∧
  decodeWord 0x80010093#32 = .ok (.addi 1 2 0x800#12) ∧
  decodeWord 0x41F15093#32 = .ok (.srai 1 2 31#6) ∧
  decodeWord 0xFFF32283#32 = .ok (.lw 5 6 0xFFF#12) ∧
  decodeWord 0x7E742FA3#32 = .ok (.sw 8 7 0x7FF#12) ∧
  decodeWord 0x8041C063#32 = .ok (.blt 3 4 0x1000#13) ∧
  decodeWord 0xFFFFF4B7#32 = .ok (.lui 9 0xFFFFF#20) ∧
  decodeWord 0x7FFFF0EF#32 = .ok (.jal 1 0xFFFFE#21) ∧
  decodeWord 0x800F8067#32 = .ok (.jalr 0 31 0x800#12) ∧
  decodeWord 0x00000073#32 = .ok .ecall

/-- Decoding an encoded well-formed instruction gives it back, for all 38 instructions and every operand value the encoding
admits; the same of its bytes in memory order, whatever follows them. -/
def Obligations.DecodeOfEncodeIsIdentity : Prop :=
  ∀ i : Instr, i.wellFormed = true →
    decodeWord (encode i) = .ok i ∧ ∀ rest : List Byte, decodeBytes (encodeBytes i ++ rest) = .ok (i, rest)

/-- Every word the decoder accepts has one meaning and no dropped bit: the instruction it gives is well formed, and encodes
to that very word. -/
def Obligations.EncodeOfDecodeIsIdentity : Prop :=
  ∀ (w : Word) (i : Instr), decodeWord w = .ok i → i.wellFormed = true ∧ encode i = w

/-- 30_encoding R122: a word selects an operation exactly when it agrees with the row's match under its mask, no word
matches two rows, and a word matching no row is a decode fault. -/
def Obligations.WordSelectsRowByMatchAndMask : Prop :=
  (∀ (w : Word) (op : Op), (∃ r, select w = .ok (op, r)) ↔ w &&& op.maskBits = op.matchBits) ∧
  (∀ (w : Word) (p q : Op), w &&& p.maskBits = p.matchBits → w &&& q.maskBits = q.matchBits → p = q) ∧
  (∀ w : Word, (∀ op : Op, w &&& op.maskBits ≠ op.matchBits) → ∃ reason, decodeWord w = .error reason)

/-- 30_encoding R91: exactly the words whose low seven bits are none of the ten opcodes of R90 are unknown opcodes, and 118
of the 128 opcode values are such. -/
def Obligations.UnknownOpcodeOutsideTheTen : Prop :=
  (∀ w : Word, decodeWord w = .error .unknownOpcode ↔
    w.toNat % 128 ∉ [0x33, 0x13, 0x03, 0x67, 0x73, 0x23, 0x63, 0x37, 0x17, 0x6F]) ∧
  ((List.range 128).filter (fun n => decodeWord (BitVec.ofNat 32 n) == .error .unknownOpcode)).length = 118

/-- 60_exceptions R312: the causes of a `DecodeFault` by reason, each raised by the step before the instruction has any
effect; a word outside both lists is an instruction. -/
def Obligations.DecodeFaultCausesByReason : Prop :=
  ∀ (s : State) (w : Word), s.Fetches w →
    let opcode := w.toNat % 128
    let funct3 := w.toNat / 2 ^ 12 % 8
    let funct7 := w.toNat / 2 ^ 25
    let known := opcode ∈ [0x33, 0x13, 0x03, 0x67, 0x73, 0x23, 0x63, 0x37, 0x17, 0x6F]
    let undefinedSlot :=
      (opcode = 0x33 ∧ (funct7 ≠ 0x00 ∧ funct7 ≠ 0x20 ∨ funct7 = 0x20 ∧ funct3 ≠ 0 ∧ funct3 ≠ 5)) ∨
      (opcode = 0x13 ∧ (funct3 = 1 ∧ funct7 / 2 ≠ 0 ∨ funct3 = 5 ∧ funct7 / 2 ≠ 0 ∧ funct7 / 2 ≠ 16)) ∨
      (opcode = 0x03 ∧ (funct3 = 3 ∨ funct3 = 6 ∨ funct3 = 7)) ∨
      (opcode = 0x23 ∧ 3 ≤ funct3) ∨
      (opcode = 0x63 ∧ (funct3 = 2 ∨ funct3 = 3)) ∨
      (opcode = 0x67 ∧ funct3 ≠ 0) ∨
      (opcode = 0x73 ∧ w ≠ 0x00000073#32)
    (¬ known → StepFaults s (.decode .unknownOpcode s.pc w)) ∧
    (known → undefinedSlot → StepFaults s (.decode .undefinedSlot s.pc w)) ∧
    (known → ¬ undefinedSlot → ∃ i, decodeWord w = .ok i) ∧
    (∀ reason left, step s = .fault (.raised (.decode reason s.pc w) left) →
      left.pc = s.pc ∧ left.regs = s.regs ∧ left.mem = s.mem)

/-- 30_encoding R93 to R98: every bit of the five immediates, and their ranges; the B- and J-immediates are even, the
U-immediate is unshifted; the record's immediate is the one its class selects, 0 for the R format. -/
def Obligations.ImmediatesBitByBit : Prop :=
  ∀ w : Word,
    (∀ j : Nat, j < 32 → (immI w).getLsbD j = if j < 12 then w.getLsbD (20 + j) else w.getLsbD 31) ∧
    (-2048 ≤ (immI w).toInt ∧ (immI w).toInt ≤ 2047) ∧
    (∀ j : Nat, j < 32 → (immS w).getLsbD j =
      if j < 5 then w.getLsbD (7 + j) else if j < 12 then w.getLsbD (20 + j) else w.getLsbD 31) ∧
    (-2048 ≤ (immS w).toInt ∧ (immS w).toInt ≤ 2047) ∧
    (∀ j : Nat, j < 32 → (immB w).getLsbD j =
      if j = 0 then false else if j < 5 then w.getLsbD (7 + j) else if j < 11 then w.getLsbD (20 + j)
      else if j = 11 then w.getLsbD 7 else w.getLsbD 31) ∧
    (-4096 ≤ (immB w).toInt ∧ (immB w).toInt ≤ 4094 ∧ (immB w).toInt % 2 = 0) ∧
    (∀ j : Nat, j < 32 → (immU w).getLsbD j = if j < 20 then w.getLsbD (12 + j) else false) ∧
    (∀ j : Nat, j < 32 → (immJ w).getLsbD j =
      if j = 0 then false else if j < 11 then w.getLsbD (20 + j) else if j = 11 then w.getLsbD 20
      else if j < 20 then w.getLsbD j else w.getLsbD 31) ∧
    (-1048576 ≤ (immJ w).toInt ∧ (immJ w).toInt ≤ 1048574 ∧ (immJ w).toInt % 2 = 0) ∧
    (∀ r : Record, decoder w = .ok r → r.imm =
      match r.cls with
      | .op => 0#32
      | .opImm | .load | .jalr | .system => immI w
      | .store => immS w
      | .branch => immB w
      | .lui | .auipc => immU w
      | .jal => immJ w)

/-- 30_encoding R90, R92: the decoded record holds the fields its class populates, from the positions of R81, and 0 in every
other field. -/
def Obligations.RecordHoldsItsClassFields : Prop :=
  ∀ (w : Word) (r : Record), decoder w = .ok r →
    r.opcode = w.extractLsb' 0 7 ∧ clsOf r.opcode = some r.cls ∧
    r.rd.val = (if r.cls = .store ∨ r.cls = .branch then 0 else w.toNat / 2 ^ 7 % 32) ∧
    r.rs1.val = (if r.cls = .lui ∨ r.cls = .auipc ∨ r.cls = .jal then 0 else w.toNat / 2 ^ 15 % 32) ∧
    r.rs2.val = (if r.cls = .op ∨ r.cls = .store ∨ r.cls = .branch then w.toNat / 2 ^ 20 % 32 else 0) ∧
    r.funct3.toNat = (if r.cls = .lui ∨ r.cls = .auipc ∨ r.cls = .jal then 0 else w.toNat / 2 ^ 12 % 8) ∧
    r.funct7.toNat =
      (if r.cls = .op ∨ r.cls = .opImm ∧ (w.toNat / 2 ^ 12 % 8 = 1 ∨ w.toNat / 2 ^ 12 % 8 = 5) then w.toNat / 2 ^ 25 else 0) ∧
    r.variant = r.funct7.getLsbD 5 ∧
    r.imm = immOf r.cls.format w

/-! ## The execute stage: each instruction completes, and what it leaves -/

/-- The register-register instructions complete in every state: `rd` holds the result, nothing else changes (41_alu_reg). -/
def Obligations.RegisterRegisterFormsComplete : Prop :=
  ∀ (s : State) (rd rs1 rs2 : Reg),
    let a := s.readReg rs1
    let b := s.readReg rs2
    let sh := b.toNat % 32
    let answers := fun (i : Instr) (v : Word) =>
      ∃ t, exec i s = .next t ∧ RegSet s t rd v ∧ BytesKept s t ∧ ControlKept s t ∧ LatchesKept s t
    answers (.add rd rs1 rs2) (a + b) ∧
    answers (.sub rd rs1 rs2) (a - b) ∧
    answers (.sll rd rs1 rs2) (a <<< sh) ∧
    answers (.slt rd rs1 rs2) (if a.toInt < b.toInt then 1#32 else 0#32) ∧
    answers (.sltu rd rs1 rs2) (if a.toNat < b.toNat then 1#32 else 0#32) ∧
    answers (.xor rd rs1 rs2) (a ^^^ b) ∧
    answers (.srl rd rs1 rs2) (a >>> sh) ∧
    answers (.sra rd rs1 rs2) (a.sshiftRight sh) ∧
    answers (.or rd rs1 rs2) (a ||| b) ∧
    answers (.and rd rs1 rs2) (a &&& b)

/-- The register-immediate and upper-immediate instructions complete in every state: `rd` holds the result, nothing else
changes (42_alu_imm, 47_upper_imm). -/
def Obligations.ImmediateFormsComplete : Prop :=
  ∀ (s : State) (rd rs1 : Reg) (imm : BitVec 12) (amount : BitVec 6) (imm20 : BitVec 20),
    let a := s.readReg rs1
    let k := imm.signExtend 32
    let sh := amount.toNat % 32
    let answers := fun (i : Instr) (v : Word) =>
      ∃ t, exec i s = .next t ∧ RegSet s t rd v ∧ BytesKept s t ∧ ControlKept s t ∧ LatchesKept s t
    answers (.addi rd rs1 imm) (a + k) ∧
    answers (.slti rd rs1 imm) (if a.toInt < imm.toInt then 1#32 else 0#32) ∧
    answers (.sltiu rd rs1 imm) (if a.toNat < k.toNat then 1#32 else 0#32) ∧
    answers (.xori rd rs1 imm) (a ^^^ k) ∧
    answers (.ori rd rs1 imm) (a ||| k) ∧
    answers (.andi rd rs1 imm) (a &&& k) ∧
    answers (.slli rd rs1 amount) (a <<< sh) ∧
    answers (.srli rd rs1 amount) (a >>> sh) ∧
    answers (.srai rd rs1 amount) (a.sshiftRight sh) ∧
    answers (.lui rd imm20) (imm20 ++ 0#12) ∧
    answers (.auipc rd imm20) (s.pc + (imm20 ++ 0#12))

/-- A load in bounds completes: `rd` holds the extended little-endian value of its bytes, nothing else changes. Out of
bounds it raises its `MemoryFault`, whatever `rd` is (43_loads). -/
def Obligations.LoadsCompleteInBounds : Prop :=
  ∀ (s : State) (rd rs1 : Reg) (imm : BitVec 12),
    let addr := effAddr (s.readReg rs1) imm
    let b0 := s.byteAt addr.toNat
    let b1 := s.byteAt (addr.toNat + 1)
    let b2 := s.byteAt (addr.toNat + 2)
    let b3 := s.byteAt (addr.toNat + 3)
    let answers := fun (i : Instr) (n : Nat) (v : Word) =>
      (addr.toNat + n ≤ s.memSize →
        ∃ t, exec i s = .next t ∧ RegSet s t rd v ∧ BytesKept s t ∧ ControlKept s t ∧ LatchesKept s t) ∧
      (s.memSize < addr.toNat + n → exec i s = raise (.memory .load s.pc addr) s)
    answers (.lb rd rs1 imm) 1 (b0.signExtend 32) ∧
    answers (.lh rd rs1 imm) 2 ((b1 ++ b0).signExtend 32) ∧
    answers (.lw rd rs1 imm) 4 (b3 ++ b2 ++ b1 ++ b0) ∧
    answers (.lbu rd rs1 imm) 1 (b0.setWidth 32) ∧
    answers (.lhu rd rs1 imm) 2 ((b1 ++ b0).setWidth 32)

/-- A store in bounds completes: the `n` bytes from its address hold the low bytes of x[rs2], every other byte, every
register and everything else is unchanged. Out of bounds it raises its `MemoryFault` (44_stores). -/
def Obligations.StoresCompleteInBounds : Prop :=
  ∀ (s : State) (rs1 rs2 : Reg) (imm : BitVec 12), Memory.wf s.mem →
    let addr := effAddr (s.readReg rs1) imm
    let answers := fun (i : Instr) (n : Nat) =>
      (addr.toNat + n ≤ s.memSize →
        ∃ t, exec i s = .next t ∧ RegsKept s t ∧ BytesStored s t addr.toNat n (s.readReg rs2) ∧ ControlKept s t ∧
          LatchesKept s t) ∧
      (s.memSize < addr.toNat + n → exec i s = raise (.memory .store s.pc addr) s)
    answers (.sb rs1 rs2 imm) 1 ∧
    answers (.sh rs1 rs2 imm) 2 ∧
    answers (.sw rs1 rs2 imm) 4

/-- A branch completes in every state: taken, it asks for the jump to pc + offset; not taken, it changes nothing. It writes
no register and no memory (45_branches). -/
def Obligations.BranchesComplete : Prop :=
  ∀ (s : State) (rs1 rs2 : Reg) (offset : BitVec 13),
    let a := s.readReg rs1
    let b := s.readReg rs2
    let answers := fun (i : Instr) (taken : Prop) =>
      ∃ t, exec i s = .next t ∧ RegsKept s t ∧ BytesKept s t ∧ ControlKept s t ∧
        (taken → JumpAsked s t (s.pc + offset.signExtend 32)) ∧ (¬ taken → LatchesKept s t)
    answers (.beq rs1 rs2 offset) (a = b) ∧
    answers (.bne rs1 rs2 offset) (a ≠ b) ∧
    answers (.blt rs1 rs2 offset) (a.toInt < b.toInt) ∧
    answers (.bge rs1 rs2 offset) (b.toInt ≤ a.toInt) ∧
    answers (.bltu rs1 rs2 offset) (a.toNat < b.toNat) ∧
    answers (.bgeu rs1 rs2 offset) (b.toNat ≤ a.toNat)

/-- JAL and JALR complete in every state: `rd` holds pc + 4, the jump asked for goes to pc + offset, or to x[rs1] + imm with
bit 0 clear, x[rs1] read before the link write; nothing else changes (46_jumps). -/
def Obligations.JumpsComplete : Prop :=
  ∀ (s : State) (rd rs1 : Reg) (offset : BitVec 21) (imm : BitVec 12),
    let answers := fun (i : Instr) (target : Word) =>
      ∃ t, exec i s = .next t ∧ RegSet s t rd (s.pc + 4#32) ∧ BytesKept s t ∧ ControlKept s t ∧ JumpAsked s t target
    answers (.jal rd offset) (s.pc + offset.signExtend 32) ∧
    answers (.jalr rd rs1 imm)
      (let sum := s.readReg rs1 + imm.signExtend 32
       if sum.toNat % 2 = 1 then sum - 1#32 else sum)

/-- ECALL completes in every state: it changes nothing but the request to halt, which it makes exactly when x17 or x10 is
10 (48_system). -/
def Obligations.EcallCompletes : Prop :=
  ∀ s : State,
    ∃ t, exec .ecall s = .next t ∧ RegsKept s t ∧ BytesKept s t ∧ ControlKept s t ∧
      t.branched = s.branched ∧ t.target = s.target ∧
      (t.haltReq = true ↔ s.haltReq = true ∨ s.readReg 17 = 10#32 ∨ s.readReg 10 = 10#32)

/-! ## Frames over all instructions -/

/-- 10_state R24: an instruction writes no register but its destination. -/
def Obligations.OnlyTheDestinationRegisterChanges : Prop :=
  ∀ (i : Instr) (s t : State), exec i s = .next t → ∀ r : Reg, i.dest ≠ some r → t.readReg r = s.readReg r

/-- Only a store changes memory, and only the bytes it stores to, at the address its own operands give. -/
def Obligations.OnlyStoredBytesChange : Prop :=
  ∀ (i : Instr) (s t : State), Memory.wf s.mem → exec i s = .next t → ∀ k : Nat, t.byteAt k ≠ s.byteAt k →
    ∃ a width, i.storeAccess s = some (a, width) ∧ a.toNat ≤ k ∧ k < a.toNat + width.bytes

/-- 10_state R24, R28: what an instruction does depends on the registers it reads, the pc, the bytes it loads and the
capacity, and on nothing else: from two states that agree on those (and on the step's latches, which no instruction reads)
it gives the same value in its destination register, the same bytes stored at the same address, the same jump and the same
request to halt. -/
def Obligations.ResultDependsOnSourcesOnly : Prop :=
  ∀ (i : Instr) (s s' t : State), Memory.wf s.mem → Memory.wf s'.mem →
    s'.pc = s.pc → s'.memSize = s.memSize → LatchesKept s s' → (∀ r ∈ i.sources, s'.readReg r = s.readReg r) →
    (∀ a width, i.loadAccess s = some (a, width) → ∀ k, k < width.bytes → s'.byteAt (a.toNat + k) = s.byteAt (a.toNat + k)) →
    exec i s = .next t →
    ∃ t', exec i s' = .next t' ∧ LatchesKept t t' ∧ (∀ rd, i.dest = some rd → t'.readReg rd = t.readReg rd) ∧
      (∀ a width, i.storeAccess s = some (a, width) → i.storeAccess s' = some (a, width) ∧
        ∀ k, k < width.bytes → t'.byteAt (a.toNat + k) = t.byteAt (a.toNat + k))

/-- 10_state R21, R22: whatever an instruction writes, x0 reads 0 afterwards and its slot is untouched; an instruction whose
destination is x0 changes no register. -/
def Obligations.ZeroRegisterStaysZero : Prop :=
  ∀ (i : Instr) (s t : State), exec i s = .next t →
    t.readReg 0 = 0#32 ∧ t.regs[0] = s.regs[0] ∧ (i.dest = some 0 → RegsKept s t)

/-- ADD then SUB with the same second operand returns the first, under wraparound (41 R170's law). -/
def Obligations.SubUndoesAdd : Prop :=
  ∀ (s t u : State) (rd rd' rs1 rs2 : Reg), rd ≠ 0 → rd' ≠ 0 → rd ≠ rs2 →
    exec (.add rd rs1 rs2) s = .next t → exec (.sub rd' rd rs2) t = .next u → u.readReg rd' = s.readReg rs1

/-- A word stored by SW at an address in bounds, then read back by LH at that address and at the address plus 2, gives its
low and high halfwords exactly (the property 20_memory R51 and 44 R233 quote). -/
def Obligations.HalvesOfAStoredWord : Prop :=
  ∀ (s t : State) (rs1 rs2 rd : Reg) (imm imm2 : BitVec 12), Memory.wf s.mem → rd ≠ 0 →
    effAddr (s.readReg rs1) imm2 = effAddr (s.readReg rs1) imm + 2#32 →
    (effAddr (s.readReg rs1) imm).toNat + 4 ≤ s.memSize → (effAddr (s.readReg rs1) imm).toNat + 4 ≤ 2 ^ 32 →
    exec (.sw rs1 rs2 imm) s = .next t →
    (∃ u, exec (.lh rd rs1 imm) t = .next u ∧ u.readReg rd = ((s.readReg rs2).extractLsb' 0 16).signExtend 32) ∧
    (∃ u, exec (.lh rd rs1 imm2) t = .next u ∧ u.readReg rd = ((s.readReg rs2).extractLsb' 16 16).signExtend 32)

/-! ## Memory -/

/-- 20_memory R53, R54: `MemRead` in bounds gives the little-endian value of its bytes, zero above them; out of bounds, the
sum taken without wrapping, it is the `MemoryFault` of the access. -/
def Obligations.MemReadIsLittleEndianAndChecked : Prop :=
  ∀ (s : State) (access : Access) (addr : Word) (width : Width),
    (addr.toNat + width.bytes ≤ s.memSize →
      ∃ v, s.memRead access addr width = .ok v ∧
        (∀ k, k < width.bytes → v.extractLsb' (8 * k) 8 = s.byteAt (addr.toNat + k)) ∧ v.toNat < 2 ^ (8 * width.bytes)) ∧
    (s.memSize < addr.toNat + width.bytes → s.memRead access addr width = .error (.memory access s.pc addr))

/-- 20_memory R55: `MemWrite` in bounds writes its bytes low byte first and no other; out of bounds it is the `MemoryFault` of
a store. That the memory written is canonical again is no rule of the spec: the canonical form is the model's choice of
representation (log 2). -/
def Obligations.MemWriteStoresItsBytesOnly : Prop :=
  ∀ (s : State) (addr : Word) (width : Width) (v : Word), Memory.wf s.mem →
    (addr.toNat + width.bytes ≤ s.memSize →
      ∃ t, s.memWrite addr width v = .ok t ∧ BytesStored s t addr.toNat width.bytes v ∧ t.regs = s.regs ∧
        ControlKept s t ∧ LatchesKept s t ∧ Memory.wf t.mem) ∧
    (s.memSize < addr.toNat + width.bytes → s.memWrite addr width v = .error (.memory .store s.pc addr))

/-- Two memories in canonical form that read alike everywhere are the same data. -/
def Obligations.CanonicalMemoriesAreEqualWhenTheyReadAlike : Prop :=
  ∀ m m' : Memory, Memory.wf m → Memory.wf m' → (∀ a, Memory.readByte m a = Memory.readByte m' a) → m = m'

/-! ## One step on a fetched word, family by family -/

/-- A step of an engine whose bytes at the pc decode to a well-formed instruction is that instruction's execute stage,
then the advance, the alignment check and the halt stage (40_control_loop R152): next, when the new pc is a multiple of 4;
an alignment fault otherwise; the execute stage's own fault when it raises one. -/
def Obligations.StepRunsTheDecodedInstruction : Prop :=
  ∀ (s : State) (i : Instr), s.run = .running → s.pc.toNat + 4 ≤ s.memSize →
    decodeBytes ((List.range 4).map (fun k => s.byteAt (s.pc.toNat + k))) = .ok (i, []) →
    (∀ t, exec i s.beginCycle = .next t → aligned t.nextPc → step s = .next t.advance.haltStage) ∧
    (∀ t, exec i s.beginCycle = .next t → ¬ aligned t.nextPc → step s = raise (.alignment s.pc t.nextPc) t.advance) ∧
    (∀ f, exec i s.beginCycle = .fault f → step s = .fault f)

/-- An instruction placed where the next fetch reads is the one the next step runs, for every well-formed instruction and
every running engine with an aligned pc. -/
def Obligations.PlacedInstructionRunsNext : Prop :=
  ∀ (s : State) (i : Instr), i.wellFormed = true → s.run = .running → s.pc.toNat + 4 ≤ s.memSize → Memory.wf s.mem →
    let s' := s.withFetchWord 32 (encode i).toNat
    s'.Fetches (encode i) ∧ step s' = finish s.pc (exec i s'.beginCycle)

/-- 41_alu_reg R170 to R179: a step on a word of each register-register row. -/
def Obligations.StepOnRegisterRegisterWords : Prop :=
  ∀ (s : State) (w : Word), s.Fetches w → aligned s.pc →
    let a := s.readReg (rs1Of w)
    let b := s.readReg (rs2Of w)
    let sh := b.toNat % 32
    let sets := fun (v : Word) => StepsTo s (s.pc + 4#32) (fun t => RegSet s t (rdOf w) v ∧ BytesKept s t)
    let row := w &&& 0xFE00707F#32
    (row = 0x00000033#32 → sets (BitVec.ofNat 32 (a.toNat + b.toNat))) ∧
    (row = 0x40000033#32 → sets (wordOfInt (a.toNat - b.toNat))) ∧
    (row = 0x00001033#32 → sets (BitVec.ofNat 32 (a.toNat * 2 ^ sh))) ∧
    (row = 0x00002033#32 → sets (if a.toInt < b.toInt then 1#32 else 0#32)) ∧
    (row = 0x00003033#32 → sets (if a.toNat < b.toNat then 1#32 else 0#32)) ∧
    (row = 0x00004033#32 → sets (a ^^^ b)) ∧
    (row = 0x00005033#32 → sets (BitVec.ofNat 32 (a.toNat / 2 ^ sh))) ∧
    (row = 0x40005033#32 → sets (wordOfInt (a.toInt / 2 ^ sh))) ∧
    (row = 0x00006033#32 → sets (a ||| b)) ∧
    (row = 0x00007033#32 → sets (a &&& b))

/-- 42_alu_imm R190, R191, R193 to R198: a step on a word of each register-immediate row but SLTIU's. The shift amount is
`instr[24:20]`; bit 25 of a shift's word may have either value; a shift's word with any other `instr[31:26]` is an undefined
slot. -/
def Obligations.StepOnRegisterImmediateWords : Prop :=
  ∀ (s : State) (w : Word), s.Fetches w → aligned s.pc →
    let a := s.readReg (rs1Of w)
    let k := immINum w
    let sh := w.toNat / 2 ^ 20 % 32
    let sets := fun (v : Word) => StepsTo s (s.pc + 4#32) (fun t => RegSet s t (rdOf w) v ∧ BytesKept s t)
    let row := w &&& 0x0000707F#32
    let shiftRow := w &&& 0xFC00707F#32
    (row = 0x00000013#32 → sets (wordOfInt (a.toNat + k))) ∧
    (row = 0x00002013#32 → sets (if a.toInt < k then 1#32 else 0#32)) ∧
    (row = 0x00004013#32 → sets (a ^^^ wordOfInt k)) ∧
    (row = 0x00006013#32 → sets (a ||| wordOfInt k)) ∧
    (row = 0x00007013#32 → sets (a &&& wordOfInt k)) ∧
    (shiftRow = 0x00001013#32 → sets (BitVec.ofNat 32 (a.toNat * 2 ^ sh))) ∧
    (shiftRow = 0x00005013#32 → sets (BitVec.ofNat 32 (a.toNat / 2 ^ sh))) ∧
    (shiftRow = 0x40005013#32 → sets (wordOfInt (a.toInt / 2 ^ sh))) ∧
    (row = 0x00001013#32 → shiftRow ≠ 0x00001013#32 → StepFaults s (.decode .undefinedSlot s.pc w)) ∧
    (row = 0x00005013#32 → shiftRow ≠ 0x00005013#32 → shiftRow ≠ 0x40005013#32 →
      StepFaults s (.decode .undefinedSlot s.pc w))

/-- SLTIU compares with the sign-extended immediate read as unsigned. The spec marks that reading as its own inference
("[derived: ...]" in 42 R192), so this statement cites no rule. -/
def Obligations.StepOnSltiuWords : Prop :=
  ∀ (s : State) (w : Word), s.Fetches w → aligned s.pc → w &&& 0x0000707F#32 = 0x00003013#32 →
    StepsTo s (s.pc + 4#32) (fun t =>
      RegSet s t (rdOf w)
        (if ((s.readReg (rs1Of w)).toNat : Int) < immINum w % 2 ^ 32 then 1#32 else 0#32) ∧ BytesKept s t)

/-- 43_loads R210 to R215: a step on a word of each load row; its address is x[rs1] + imm modulo 2^32, its bounds the
unwrapped sum, its fault raised with no register written. -/
def Obligations.StepOnLoadWords : Prop :=
  ∀ (s : State) (w : Word), s.Fetches w → aligned s.pc →
    let addr := wordOfInt ((s.readReg (rs1Of w)).toNat + immINum w)
    let a := addr.toNat
    let half := s.halfAt a
    let byte := (s.byteAt a).toNat
    let loads := fun (n : Nat) (v : Int) =>
      (a + n ≤ s.memSize →
        StepsTo s (s.pc + 4#32) (fun t => RegSet s t (rdOf w) (wordOfInt v) ∧ BytesKept s t)) ∧
      (s.memSize < a + n → StepFaults s (.memory .load s.pc addr) ∧
        ∀ f left, step s = .fault (.raised f left) → left.regs = s.regs ∧ left.mem = s.mem)
    let row := w &&& 0x0000707F#32
    (row = 0x00000003#32 → loads 1 (if byte < 128 then byte else byte - 256)) ∧
    (row = 0x00001003#32 → loads 2 (if half < 32768 then half else half - 65536)) ∧
    (row = 0x00002003#32 → loads 4 (s.wordAt a)) ∧
    (row = 0x00004003#32 → loads 1 byte) ∧
    (row = 0x00005003#32 → loads 2 half)

/-- 44_stores R230 to R233: a step on a word of each store row; it writes the low bytes of x[rs2] at x[rs1] + imm and no
other byte, or faults and writes none. -/
def Obligations.StepOnStoreWords : Prop :=
  ∀ (s : State) (w : Word), s.Fetches w → aligned s.pc → Memory.wf s.mem →
    let addr := wordOfInt ((s.readReg (rs1Of w)).toNat + immSNum w)
    let a := addr.toNat
    let stores := fun (n : Nat) =>
      (a + n ≤ s.memSize →
        StepsTo s (s.pc + 4#32) (fun t => RegsKept s t ∧ BytesStored s t a n (s.readReg (rs2Of w)))) ∧
      (s.memSize < a + n → StepFaults s (.memory .store s.pc addr) ∧
        ∀ f left, step s = .fault (.raised f left) → left.regs = s.regs ∧ left.mem = s.mem)
    let row := w &&& 0x0000707F#32
    (row = 0x00000023#32 → stores 1) ∧
    (row = 0x00001023#32 → stores 2) ∧
    (row = 0x00002023#32 → stores 4)

/-- 45_branches R251 to R256, each with the common part R250 gives it: a step on a word of each branch row. -/
def Obligations.StepOnBranchWords : Prop :=
  ∀ (s : State) (w : Word), s.Fetches w → aligned s.pc →
    let a := s.readReg (rs1Of w)
    let b := s.readReg (rs2Of w)
    let target := wordOfInt (s.pc.toNat + immBNum w)
    let row := w &&& 0x0000707F#32
    (row = 0x00000063#32 → BranchSteps s (a = b) target) ∧
    (row = 0x00001063#32 → BranchSteps s (a ≠ b) target) ∧
    (row = 0x00004063#32 → BranchSteps s (a.toInt < b.toInt) target) ∧
    (row = 0x00005063#32 → BranchSteps s (¬ a.toInt < b.toInt) target) ∧
    (row = 0x00006063#32 → BranchSteps s (a.toNat < b.toNat) target) ∧
    (row = 0x00007063#32 → BranchSteps s (¬ a.toNat < b.toNat) target)

/-- 46_jumps R270: a step on a JAL word links pc + 4 and goes to pc + offset, modulo 2^32, or faults when that is no
multiple of 4. -/
def Obligations.StepOnJalWords : Prop :=
  ∀ (s : State) (w : Word), s.Fetches w → w &&& 0x0000007F#32 = 0x0000006F#32 →
    let target := wordOfInt (s.pc.toNat + immJNum w)
    let link := BitVec.ofNat 32 (s.pc.toNat + 4)
    (aligned target → StepsTo s target (fun t => RegSet s t (rdOf w) link ∧ BytesKept s t)) ∧
    (¬ aligned target → StepFaults s (.alignment s.pc target))

/-- 46_jumps R271: a step on a JALR word links pc + 4 and goes to x[rs1] + imm with bit 0 cleared, x[rs1] read before the
link write, or faults when that target is no multiple of 4; a JALR opcode with another funct3 is an undefined slot. -/
def Obligations.StepOnJalrWords : Prop :=
  ∀ (s : State) (w : Word), s.Fetches w →
    let sum := wordOfInt ((s.readReg (rs1Of w)).toNat + immINum w)
    let target := BitVec.ofNat 32 (sum.toNat / 2 * 2)
    let link := BitVec.ofNat 32 (s.pc.toNat + 4)
    (w &&& 0x0000707F#32 = 0x00000067#32 →
      (aligned target → StepsTo s target (fun t => RegSet s t (rdOf w) link ∧ BytesKept s t)) ∧
      (¬ aligned target → StepFaults s (.alignment s.pc target))) ∧
    (w &&& 0x0000007F#32 = 0x00000067#32 → w &&& 0x0000707F#32 ≠ 0x00000067#32 →
      StepFaults s (.decode .undefinedSlot s.pc w))

/-- 47_upper_imm R290, R291: a step on a LUI and on an AUIPC word. -/
def Obligations.StepOnUpperImmediateWords : Prop :=
  ∀ (s : State) (w : Word), s.Fetches w → aligned s.pc →
    let k := w.toNat / 2 ^ 12 * 2 ^ 12
    let sets := fun (v : Word) => StepsTo s (s.pc + 4#32) (fun t => RegSet s t (rdOf w) v ∧ BytesKept s t)
    (w &&& 0x0000007F#32 = 0x00000037#32 → sets (BitVec.ofNat 32 k)) ∧
    (w &&& 0x0000007F#32 = 0x00000017#32 → sets (BitVec.ofNat 32 (s.pc.toNat + k)))

/-- 48_system R300: ECALL with x17 or x10 equal to 10, full width, halts the run with the pc advanced by 4 and no register
or byte written; with neither it has no effect but the advance. -/
def Obligations.StepOnEcall : Prop :=
  ∀ s : State, s.Fetches 0x00000073#32 → aligned s.pc →
    (s.readReg 17 = 10#32 ∨ s.readReg 10 = 10#32 →
      ∃ t, step s = .next t ∧ t.run = .halted ∧ t.pc = s.pc + 4#32 ∧ RegsKept s t ∧ BytesKept s t ∧ t.sink = some t.dump) ∧
    (¬ (s.readReg 17 = 10#32 ∨ s.readReg 10 = 10#32) →
      StepsTo s (s.pc + 4#32) (fun t => RegsKept s t ∧ BytesKept s t))

/-- 48_system R301: every other word with opcode 0x73 raises `DecodeFault(undefined_slot)`: EBREAK, every CSR instruction,
MRET, WFI. -/
def Obligations.OtherSystemWordsFault : Prop :=
  ∀ (s : State) (w : Word), s.Fetches w → w &&& 0x0000007F#32 = 0x00000073#32 → w ≠ 0x00000073#32 →
    StepFaults s (.decode .undefinedSlot s.pc w)

/-! ## The control loop -/

/-- 40_control_loop R146: `branched` is clear after the step and the new pc is the jump's target, or pc + 4 modulo 2^32. -/
def Obligations.NewPcIsTargetOrPcPlusFour : Prop :=
  ∀ (s t : State) (w : Word) (i : Instr), s.Fetches w → decodeWord w = .ok i → step s = .next t →
    t.branched = false ∧
    t.pc = (match i.jumpTarget s with
      | some target => target
      | none => BitVec.ofNat 32 (s.pc.toNat + 4))

/-- 60_exceptions R314: an `AlignmentFault` is raised exactly when the instruction is a JAL, a JALR or a taken branch whose
target is no multiple of 4; a load or store never raises it. -/
def Obligations.AlignmentFaultOnlyByJumps : Prop :=
  ∀ (s : State) (w : Word) (i : Instr) (target : Word), s.Fetches w → decodeWord w = .ok i → aligned s.pc →
    (StepFaults s (.alignment s.pc target) ↔ i.jumpTarget s = some target ∧ ¬ aligned target) ∧
    (i.loadAccess s ≠ none ∨ i.storeAccess s ≠ none → ¬ StepFaults s (.alignment s.pc target))

/-- 60_exceptions R313: a running engine raises a `MemoryFault` exactly when its fetch, its load or its store is out of
bounds in unbounded integers, and it has then written no register and no memory. -/
def Obligations.MemoryFaultCausesByAccess : Prop :=
  ∀ (s : State) (addr : Word), s.run = .running →
    (StepFaults s (.memory .fetch s.pc addr) ↔ addr = s.pc ∧ s.memSize < s.pc.toNat + 4) ∧
    (StepFaults s (.memory .load s.pc addr) ↔
      ∃ w i width, s.Fetches w ∧ decodeWord w = .ok i ∧ i.loadAccess s = some (addr, width) ∧
        s.memSize < addr.toNat + width.bytes) ∧
    (StepFaults s (.memory .store s.pc addr) ↔
      ∃ w i width, s.Fetches w ∧ decodeWord w = .ok i ∧ i.storeAccess s = some (addr, width) ∧
        s.memSize < addr.toNat + width.bytes) ∧
    (∀ access left, step s = .fault (.raised (.memory access s.pc addr) left) → left.regs = s.regs ∧ left.mem = s.mem)

/-- 60_exceptions R318: the first fault in stage order is the one raised. -/
def Obligations.FirstFaultInStageOrder : Prop :=
  ∀ s : State, s.run = .running →
    (s.memSize < s.pc.toNat + 4 → StepFaults s (.memory .fetch s.pc s.pc)) ∧
    (∀ w, s.Fetches w →
      (∀ reason, decodeWord w = .error reason → StepFaults s (.decode reason s.pc w)) ∧
      (∀ i a width, decodeWord w = .ok i → i.loadAccess s = some (a, width) → s.memSize < a.toNat + width.bytes →
        StepFaults s (.memory .load s.pc a)) ∧
      (∀ i a width, decodeWord w = .ok i → i.storeAccess s = some (a, width) → s.memSize < a.toNat + width.bytes →
        StepFaults s (.memory .store s.pc a)) ∧
      (∀ i target, decodeWord w = .ok i → i.jumpTarget s = some target → ¬ aligned target →
        StepFaults s (.alignment s.pc target)))

/-- 60_exceptions R311: a fault sets the run state to `Faulted` with its record, and no further step exists from the state
it leaves. That a step asked for there answers `terminated` is the model's choice (log 6). -/
def Obligations.FaultIsTerminal : Prop :=
  ∀ (s left : State) (record : FaultRecord), step s = .fault (.raised record left) →
    s.run = .running ∧ left.run = .faulted record ∧ step left = .fault (.terminated (.faulted record)) ∧ left.sink = s.sink

/-- 60_exceptions R316: what a fault leaves: the registers, the memory and the pc as before the instruction for a decode or
memory fault; for an alignment fault the new pc, and the link register written. -/
def Obligations.StateAFaultLeaves : Prop :=
  ∀ (s left : State) (record : FaultRecord), step s = .fault (.raised record left) →
    match record with
    | .decode _ pc _ => pc = s.pc ∧ left.pc = s.pc ∧ left.regs = s.regs ∧ left.mem = s.mem
    | .memory _ pc _ => pc = s.pc ∧ left.pc = s.pc ∧ left.regs = s.regs ∧ left.mem = s.mem
    | .alignment pc addr =>
      pc = s.pc ∧ left.pc = addr ∧ ¬ aligned addr ∧
        ∀ w i rd, s.Fetches w → decodeWord w = .ok i → i.jumpTarget s = some addr → i.dest = some rd →
          RegSet s left rd (s.pc + 4#32)

/-- A step never refuses: every instruction of the opcode table has its meaning. -/
def Obligations.StepNeverRefuses : Prop :=
  ∀ (s : State) (r : Refusal), step s ≠ .refused r

/-- 40_control_loop R149: a halted or faulted engine takes no step. The model answers `terminated` (log 6). -/
def Obligations.NoStepFromATerminalState : Prop :=
  ∀ s : State, s.run ≠ .running → step s = .fault (.terminated s.run)

/-- The invariant between steps holds at reset. -/
def Obligations.InvariantHoldsAtReset : Prop := State.reset.Inv

/-- Every step keeps the invariant between steps: x0's slot 0, the pc a multiple of 4, `branched` and the step's latches
clear, memory canonical and inside the capacity, the sink written exactly when halted. From every state that meets it, not
only from runs. -/
def Obligations.StepKeepsTheInvariant : Prop :=
  ∀ s t : State, s.Inv → step s = .next t → t.Inv

/-- The capacity is a parameter of the run: no step changes it (00_scope R6). -/
def Obligations.StepKeepsTheCapacity : Prop :=
  ∀ s t : State, step s = .next t → t.memSize = s.memSize

/-- Only an ECALL whose exit condition holds halts the run or writes the result sink (48_system R300, 70_reset R355). -/
def Obligations.OnlyTheExitEcallHalts : Prop :=
  ∀ s t : State, step s = .next t →
    (t.run = .halted ↔ s.Fetches 0x00000073#32 ∧ (s.readReg 17 = 10#32 ∨ s.readReg 10 = 10#32)) ∧
    (t.run ≠ .halted → t.run = .running ∧ t.sink = s.sink)

/-- 70_reset R356: the sink a halting step writes has exactly 128 bytes, byte 4*i + k being bits 8k+7:8k of x[i], for all 32
registers in index order. -/
def Obligations.ResultSinkFormat : Prop :=
  ∀ s t : State, step s = .next t → t.run = .halted →
    ∃ bytes, t.sink = some bytes ∧ bytes.length = 128 ∧
      ∀ (i : Reg) (k : Nat), k < 4 → bytes[4 * i.val + k]? = some ((t.readReg i).extractLsb' (8 * k) 8)

/-- 70_reset R358: a store at `p` that writes the word at `p + 4` decides the instruction the next step fetches. -/
def Obligations.StoreIntoTheNextInstruction : Prop :=
  ∀ (s : State) (w : Word) (rs1 rs2 : Reg) (imm : BitVec 12), s.Fetches w → decodeWord w = .ok (.sw rs1 rs2 imm) →
    aligned s.pc → Memory.wf s.mem → s.pc.toNat + 8 ≤ s.memSize → s.pc.toNat + 8 ≤ 2 ^ 32 →
    effAddr (s.readReg rs1) imm = s.pc + 4#32 →
    ∃ t, step s = .next t ∧ t.Fetches (s.readReg rs2)

/-- An instruction that jumps to itself and links nowhere (`jal x0, 0` by 46 R270, a taken branch with offset 0 by 45 R250)
does so forever: the step changes nothing, and under every step budget the run is not finished, never `Halted`
(40_control_loop R153). -/
def Obligations.JumpToSelfNeverFinishes : Prop :=
  (∀ (s : State) (w : Word) (i : Instr) (fuel : Nat), s.Inv → s.Fetches w → decodeWord w = .ok i →
    i.jumpTarget s = some s.pc → (∀ rd, i.dest = some rd → rd = 0) → step s = .next s ∧ runFor fuel s = none) ∧
  (∀ (s : State) (fuel : Nat), s.Inv → s.Fetches 0x0000006F#32 → step s = .next s ∧ runFor fuel s = none)

/-- A run that has an outcome under one budget has it under every larger one: "not finished" is the only answer a budget can
change (40_control_loop R153, 92 D18). -/
def Obligations.OutcomeDoesNotDependOnTheBudget : Prop :=
  ∀ (s : State) (fuel more : Nat) (o : RunOutcome), runFor fuel s = some o → runFor (fuel + more) s = some o

/-- A run has at most one outcome, and a sink exactly when it halted: from every state that meets the invariant, an outcome
`Faulted` comes from a state with no sink (40_control_loop R153, 60_exceptions R317). -/
def Obligations.FaultedRunWritesNoSink : Prop :=
  ∀ (s left : State) (record : FaultRecord), s.Inv → step s = .fault (.raised record left) →
    left.sink = none ∧ left.outcome = some (.faulted record.kind)

/-! ## Reset and the start of a run -/

/-- 10_state R33: the value of every piece of state when the engine is created from an image, for every capacity and every
image that fits: registers 0, pc 0, `Running`, `branched` false, image byte i at address i, 0x00 beyond. -/
def Obligations.BootGivesTheResetValues : Prop :=
  ∀ (memSize : Nat) (bytes : List Byte), bytes.length ≤ memSize →
    ∃ s, boot memSize (.image bytes) = .ok s ∧ (∀ r, s.readReg r = 0#32) ∧ s.pc = 0#32 ∧ s.run = .running ∧
      s.branched = false ∧ (∀ a, (h : a < bytes.length) → s.byteAt a = bytes[a]) ∧
      (∀ a, bytes.length ≤ a → s.byteAt a = 0x00#8)

/-- An engine created from an image that fits meets the invariant between steps, has the capacity it was given and an
unwritten sink. The capacity and the sink as fields of `State` are the model's choice (logs 1 and 7). -/
def Obligations.BootMeetsTheInvariant : Prop :=
  ∀ (memSize : Nat) (bytes : List Byte), bytes.length ≤ memSize →
    ∃ s, boot memSize (.image bytes) = .ok s ∧ s.Inv ∧ s.memSize = memSize ∧ s.sink = none

/-- 70_reset R352: without an image, with one that cannot be read, or with one longer than memory, the engine never starts. -/
def Obligations.EngineNeverStartsWithoutAnImage : Prop :=
  ∀ memSize : Nat,
    boot memSize .missing = .error .usageError ∧ boot memSize .unreadable = .error .loadError ∧
    ∀ bytes : List Byte, memSize < bytes.length → boot memSize (.image bytes) = .error .loadError

/-- The first step after boot runs the first instruction of the image, for every well-formed instruction, every rest of the
image and every capacity it fits in (70_reset R350, R351). -/
def Obligations.BootedImageRunsItsFirstInstruction : Prop :=
  ∀ (memSize : Nat) (i : Instr) (rest : List Byte), i.wellFormed = true → 4 + rest.length ≤ memSize →
    ∃ s, boot memSize (.image (encodeBytes i ++ rest)) = .ok s ∧ step s = finish 0#32 (exec i s)

/-- With an empty image the first fetch reads 0x00000000 and raises `DecodeFault(unknown_opcode)`, at the default capacity
and at every capacity of four bytes or more (70_reset R351's derived clause). -/
def Obligations.EmptyImageFaultsAtOnce : Prop :=
  StepFaults State.reset (.decode .unknownOpcode 0#32 0#32) ∧
  ∀ (memSize : Nat) (s : State), 4 ≤ memSize → boot memSize (.image []) = .ok s →
    StepFaults s (.decode .unknownOpcode 0#32 0#32)

/-- 60_exceptions R317: the exit statuses the spec assigns, one per outcome. -/
def Obligations.ExitStatusPerOutcome : Prop :=
  (∀ sink, (RunOutcome.halted sink).exitStatus = 0) ∧
  StartError.usageError.exitStatus = 1 ∧ StartError.loadError.exitStatus = 2 ∧
  (RunOutcome.faulted .decodeFault).exitStatus = 3 ∧ (RunOutcome.faulted .memoryFault).exitStatus = 4 ∧
  (RunOutcome.faulted .alignmentFault).exitStatus = 5
end

