-- ==== Sys2Proof/Laws/State.lean ====
section
/-! SUPPORT. One lemma per field per named update of the state, so that no proof unfolds a record update. -/

namespace Sys2Proof.Machine

/-! ### writeReg -/

@[simp] theorem State.writeReg_pc (s : State) (r : Reg) (v : Word) : (s.writeReg r v).pc = s.pc := by
  unfold State.writeReg; split <;> rfl
@[simp] theorem State.writeReg_run (s : State) (r : Reg) (v : Word) : (s.writeReg r v).run = s.run := by
  unfold State.writeReg; split <;> rfl
@[simp] theorem State.writeReg_branched (s : State) (r : Reg) (v : Word) : (s.writeReg r v).branched = s.branched := by
  unfold State.writeReg; split <;> rfl
@[simp] theorem State.writeReg_target (s : State) (r : Reg) (v : Word) : (s.writeReg r v).target = s.target := by
  unfold State.writeReg; split <;> rfl
@[simp] theorem State.writeReg_haltReq (s : State) (r : Reg) (v : Word) : (s.writeReg r v).haltReq = s.haltReq := by
  unfold State.writeReg; split <;> rfl
@[simp] theorem State.writeReg_mem (s : State) (r : Reg) (v : Word) : (s.writeReg r v).mem = s.mem := by
  unfold State.writeReg; split <;> rfl
@[simp] theorem State.writeReg_memSize (s : State) (r : Reg) (v : Word) : (s.writeReg r v).memSize = s.memSize := by
  unfold State.writeReg; split <;> rfl
@[simp] theorem State.writeReg_sink (s : State) (r : Reg) (v : Word) : (s.writeReg r v).sink = s.sink := by
  unfold State.writeReg; split <;> rfl

/-! ### withMem -/

@[simp] theorem State.withMem_regs (s : State) (m : Memory) : (s.withMem m).regs = s.regs := rfl
@[simp] theorem State.withMem_pc (s : State) (m : Memory) : (s.withMem m).pc = s.pc := rfl
@[simp] theorem State.withMem_run (s : State) (m : Memory) : (s.withMem m).run = s.run := rfl
@[simp] theorem State.withMem_branched (s : State) (m : Memory) : (s.withMem m).branched = s.branched := rfl
@[simp] theorem State.withMem_target (s : State) (m : Memory) : (s.withMem m).target = s.target := rfl
@[simp] theorem State.withMem_haltReq (s : State) (m : Memory) : (s.withMem m).haltReq = s.haltReq := rfl
@[simp] theorem State.withMem_mem (s : State) (m : Memory) : (s.withMem m).mem = m := rfl
@[simp] theorem State.withMem_memSize (s : State) (m : Memory) : (s.withMem m).memSize = s.memSize := rfl
@[simp] theorem State.withMem_sink (s : State) (m : Memory) : (s.withMem m).sink = s.sink := rfl

/-! ### jumpTo -/

@[simp] theorem State.jumpTo_regs (s : State) (t : Word) : (s.jumpTo t).regs = s.regs := rfl
@[simp] theorem State.jumpTo_pc (s : State) (t : Word) : (s.jumpTo t).pc = s.pc := rfl
@[simp] theorem State.jumpTo_run (s : State) (t : Word) : (s.jumpTo t).run = s.run := rfl
@[simp] theorem State.jumpTo_branched (s : State) (t : Word) : (s.jumpTo t).branched = true := rfl
@[simp] theorem State.jumpTo_target (s : State) (t : Word) : (s.jumpTo t).target = t := rfl
@[simp] theorem State.jumpTo_haltReq (s : State) (t : Word) : (s.jumpTo t).haltReq = s.haltReq := rfl
@[simp] theorem State.jumpTo_mem (s : State) (t : Word) : (s.jumpTo t).mem = s.mem := rfl
@[simp] theorem State.jumpTo_memSize (s : State) (t : Word) : (s.jumpTo t).memSize = s.memSize := rfl
@[simp] theorem State.jumpTo_sink (s : State) (t : Word) : (s.jumpTo t).sink = s.sink := rfl

/-! ### requestHalt -/

@[simp] theorem State.requestHalt_regs (s : State) : (s.requestHalt).regs = s.regs := rfl
@[simp] theorem State.requestHalt_pc (s : State) : (s.requestHalt).pc = s.pc := rfl
@[simp] theorem State.requestHalt_run (s : State) : (s.requestHalt).run = s.run := rfl
@[simp] theorem State.requestHalt_branched (s : State) : (s.requestHalt).branched = s.branched := rfl
@[simp] theorem State.requestHalt_target (s : State) : (s.requestHalt).target = s.target := rfl
@[simp] theorem State.requestHalt_haltReq (s : State) : (s.requestHalt).haltReq = true := rfl
@[simp] theorem State.requestHalt_mem (s : State) : (s.requestHalt).mem = s.mem := rfl
@[simp] theorem State.requestHalt_memSize (s : State) : (s.requestHalt).memSize = s.memSize := rfl
@[simp] theorem State.requestHalt_sink (s : State) : (s.requestHalt).sink = s.sink := rfl

/-! ### beginCycle -/

@[simp] theorem State.beginCycle_regs (s : State) : (s.beginCycle).regs = s.regs := rfl
@[simp] theorem State.beginCycle_pc (s : State) : (s.beginCycle).pc = s.pc := rfl
@[simp] theorem State.beginCycle_run (s : State) : (s.beginCycle).run = s.run := rfl
@[simp] theorem State.beginCycle_branched (s : State) : (s.beginCycle).branched = false := rfl
@[simp] theorem State.beginCycle_target (s : State) : (s.beginCycle).target = 0#32 := rfl
@[simp] theorem State.beginCycle_haltReq (s : State) : (s.beginCycle).haltReq = false := rfl
@[simp] theorem State.beginCycle_mem (s : State) : (s.beginCycle).mem = s.mem := rfl
@[simp] theorem State.beginCycle_memSize (s : State) : (s.beginCycle).memSize = s.memSize := rfl
@[simp] theorem State.beginCycle_sink (s : State) : (s.beginCycle).sink = s.sink := rfl

/-! ### advance -/

@[simp] theorem State.advance_regs (s : State) : (s.advance).regs = s.regs := rfl
@[simp] theorem State.advance_pc (s : State) : (s.advance).pc = s.nextPc := rfl
@[simp] theorem State.advance_run (s : State) : (s.advance).run = s.run := rfl
@[simp] theorem State.advance_branched (s : State) : (s.advance).branched = false := rfl
@[simp] theorem State.advance_target (s : State) : (s.advance).target = 0#32 := rfl
@[simp] theorem State.advance_haltReq (s : State) : (s.advance).haltReq = s.haltReq := rfl
@[simp] theorem State.advance_mem (s : State) : (s.advance).mem = s.mem := rfl
@[simp] theorem State.advance_memSize (s : State) : (s.advance).memSize = s.memSize := rfl
@[simp] theorem State.advance_sink (s : State) : (s.advance).sink = s.sink := rfl

/-! ### enterFaulted -/

@[simp] theorem State.enterFaulted_regs (s : State) (r : FaultRecord) : (s.enterFaulted r).regs = s.regs := rfl
@[simp] theorem State.enterFaulted_pc (s : State) (r : FaultRecord) : (s.enterFaulted r).pc = s.pc := rfl
@[simp] theorem State.enterFaulted_run (s : State) (r : FaultRecord) : (s.enterFaulted r).run = .faulted r := rfl
@[simp] theorem State.enterFaulted_branched (s : State) (r : FaultRecord) : (s.enterFaulted r).branched = s.branched := rfl
@[simp] theorem State.enterFaulted_target (s : State) (r : FaultRecord) : (s.enterFaulted r).target = s.target := rfl
@[simp] theorem State.enterFaulted_haltReq (s : State) (r : FaultRecord) : (s.enterFaulted r).haltReq = s.haltReq := rfl
@[simp] theorem State.enterFaulted_mem (s : State) (r : FaultRecord) : (s.enterFaulted r).mem = s.mem := rfl
@[simp] theorem State.enterFaulted_memSize (s : State) (r : FaultRecord) : (s.enterFaulted r).memSize = s.memSize := rfl
@[simp] theorem State.enterFaulted_sink (s : State) (r : FaultRecord) : (s.enterFaulted r).sink = s.sink := rfl

/-! ### enterHalted -/

@[simp] theorem State.enterHalted_regs (s : State) : (s.enterHalted).regs = s.regs := rfl
@[simp] theorem State.enterHalted_pc (s : State) : (s.enterHalted).pc = s.pc := rfl
@[simp] theorem State.enterHalted_run (s : State) : (s.enterHalted).run = .halted := rfl
@[simp] theorem State.enterHalted_branched (s : State) : (s.enterHalted).branched = s.branched := rfl
@[simp] theorem State.enterHalted_target (s : State) : (s.enterHalted).target = s.target := rfl
@[simp] theorem State.enterHalted_haltReq (s : State) : (s.enterHalted).haltReq = false := rfl
@[simp] theorem State.enterHalted_mem (s : State) : (s.enterHalted).mem = s.mem := rfl
@[simp] theorem State.enterHalted_memSize (s : State) : (s.enterHalted).memSize = s.memSize := rfl
@[simp] theorem State.enterHalted_sink (s : State) : (s.enterHalted).sink = some s.dump := rfl

/-! ### haltStage: everything but the run state, the request and the sink -/

@[simp] theorem State.haltStage_regs (s : State) : s.haltStage.regs = s.regs := by
  unfold State.haltStage; split <;> rfl
@[simp] theorem State.haltStage_pc (s : State) : s.haltStage.pc = s.pc := by
  unfold State.haltStage; split <;> rfl
@[simp] theorem State.haltStage_branched (s : State) : s.haltStage.branched = s.branched := by
  unfold State.haltStage; split <;> rfl
@[simp] theorem State.haltStage_target (s : State) : s.haltStage.target = s.target := by
  unfold State.haltStage; split <;> rfl
@[simp] theorem State.haltStage_mem (s : State) : s.haltStage.mem = s.mem := by
  unfold State.haltStage; split <;> rfl
@[simp] theorem State.haltStage_memSize (s : State) : s.haltStage.memSize = s.memSize := by
  unfold State.haltStage; split <;> rfl

@[simp] theorem State.haltStage_haltReq (s : State) : s.haltStage.haltReq = false := by
  unfold State.haltStage; split <;> simp_all

theorem State.haltStage_of_request {s : State} (h : s.haltReq = true) : s.haltStage = s.enterHalted := by
  simp [State.haltStage, h]

theorem State.haltStage_of_no_request {s : State} (h : s.haltReq = false) : s.haltStage = s := by
  simp [State.haltStage, h]

/-! ### Registers through the updates -/

@[simp] theorem State.withMem_readReg (s : State) (m : Memory) (r : Reg) : (s.withMem m).readReg r = s.readReg r := rfl
@[simp] theorem State.jumpTo_readReg (s : State) (t : Word) (r : Reg) : (s.jumpTo t).readReg r = s.readReg r := rfl
@[simp] theorem State.requestHalt_readReg (s : State) (r : Reg) : (s.requestHalt).readReg r = s.readReg r := rfl
@[simp] theorem State.beginCycle_readReg (s : State) (r : Reg) : (s.beginCycle).readReg r = s.readReg r := rfl
@[simp] theorem State.advance_readReg (s : State) (r : Reg) : (s.advance).readReg r = s.readReg r := rfl
@[simp] theorem State.enterFaulted_readReg (s : State) (f : FaultRecord) (r : Reg) : (s.enterFaulted f).readReg r = s.readReg r := rfl
@[simp] theorem State.enterHalted_readReg (s : State) (r : Reg) : (s.enterHalted).readReg r = s.readReg r := rfl
@[simp] theorem State.haltStage_readReg (s : State) (r : Reg) : s.haltStage.readReg r = s.readReg r := by
  unfold State.haltStage; split <;> rfl

/-! ### The bytes of memory through the updates -/

@[simp] theorem State.jumpTo_byteAt (s : State) (t : Word) (k : Nat) : (s.jumpTo t).byteAt k = s.byteAt k := rfl
@[simp] theorem State.requestHalt_byteAt (s : State) (k : Nat) : (s.requestHalt).byteAt k = s.byteAt k := rfl
@[simp] theorem State.beginCycle_byteAt (s : State) (k : Nat) : (s.beginCycle).byteAt k = s.byteAt k := rfl
@[simp] theorem State.advance_byteAt (s : State) (k : Nat) : (s.advance).byteAt k = s.byteAt k := rfl
@[simp] theorem State.enterFaulted_byteAt (s : State) (f : FaultRecord) (k : Nat) : (s.enterFaulted f).byteAt k = s.byteAt k := rfl
@[simp] theorem State.enterHalted_byteAt (s : State) (k : Nat) : (s.enterHalted).byteAt k = s.byteAt k := rfl
@[simp] theorem State.writeReg_byteAt (s : State) (r : Reg) (v : Word) (k : Nat) : (s.writeReg r v).byteAt k = s.byteAt k := by
  unfold State.byteAt; simp
@[simp] theorem State.haltStage_byteAt (s : State) (k : Nat) : s.haltStage.byteAt k = s.byteAt k := by
  unfold State.byteAt; simp
@[simp] theorem State.withMem_byteAt (s : State) (m : Memory) (k : Nat) : (s.withMem m).byteAt k = Memory.readByte m k := rfl

/-! ### The dump depends on the registers only -/

theorem State.dump_congr {s t : State} (h : ∀ r, t.readReg r = s.readReg r) : t.dump = s.dump := by
  simp [State.dump, h]

/-! ### A state between steps: the latches are clear, so the first line of a step changes nothing -/

theorem State.beginCycle_eq_self {s : State} (hb : s.branched = false) (ht : s.target = 0#32) (hh : s.haltReq = false) :
    s.beginCycle = s := by
  cases s; simp_all [State.beginCycle]

end Sys2Proof.Machine
end

