-- ==== Sys2Proof/Laws/Memory.lean ====
section
/-! SUPPORT. Memory: reads after writes, and the canonical form kept by every operation (20_memory). -/

namespace Sys2Proof.Machine

/-! ## One byte -/

@[simp] theorem Memory.readByte_nil (a : Nat) : Memory.readByte [] a = Config.unlistedByte := rfl

theorem Memory.readByte_cons (c : Host.Cell) (m : Memory) (a : Nat) :
    Memory.readByte (c :: m) a = if c.1 = a then c.2 else Memory.readByte m a := rfl

/-- An address below every listed one reads as unlisted. -/
theorem Memory.readByte_of_forall_ne {m : Memory} {a : Nat} (h : ∀ c ∈ m, c.1 ≠ a) :
    Memory.readByte m a = Config.unlistedByte := by
  induction m with
  | nil => rfl
  | cons c m ih =>
    have hc := h c (by simp)
    rw [Memory.readByte_cons, if_neg hc, ih (fun d hd => h d (by simp [hd]))]

theorem Memory.readByte_consCell {m : Memory} {a k : Nat} {b : Byte} (h : ∀ c ∈ m, c.1 ≠ a) :
    Memory.readByte (Memory.cons a b m) k = if k = a then b else Memory.readByte m k := by
  unfold Memory.cons
  split
  · rename_i hb
    split
    · rename_i hk
      rw [hk, Memory.readByte_of_forall_ne h, hb]
    · rfl
  · rw [Memory.readByte_cons]
    by_cases hk : a = k
    · simp [hk]
    · simp [hk, Ne.symm hk]

/-- A byte read after a write: the byte written at its address, unchanged elsewhere. -/
theorem Memory.readByte_writeByte {m : Memory} (h : Memory.wf m) (a k : Nat) (b : Byte) :
    Memory.readByte (Memory.writeByte m a b) k = if k = a then b else Memory.readByte m k := by
  induction m with
  | nil => exact Memory.readByte_consCell (by simp)
  | cons c m ih =>
    have hs := List.pairwise_cons.mp h.1
    have hm : Memory.wf m := ⟨hs.2, fun d hd => h.2 d (by simp [hd])⟩
    unfold Memory.writeByte
    split
    · rename_i hlt
      refine Memory.readByte_consCell ?_
      intro d hd
      rcases List.mem_cons.mp hd with rfl | hd
      · omega
      · have := hs.1 d hd; omega
    · split
      · rename_i heq
        rw [Memory.readByte_consCell (fun d hd => by have := hs.1 d hd; omega), Memory.readByte_cons]
        by_cases hk : k = a
        · simp [hk]
        · have : ¬ c.1 = k := by omega
          simp [hk, this]
      · rename_i hlt heq
        rw [Memory.readByte_cons, ih hm, Memory.readByte_cons]
        by_cases hk : k = a
        · have : ¬ c.1 = k := by omega
          simp [hk]; omega
        · simp [hk]

theorem Memory.mem_cons_iff {m : Memory} {a : Nat} {b : Byte} {d : Host.Cell} (h : d ∈ Memory.cons a b m) :
    (d = (a, b) ∧ b ≠ Config.unlistedByte) ∨ d ∈ m := by
  unfold Memory.cons at h
  split at h
  · exact .inr h
  · rename_i hb
    rcases List.mem_cons.mp h with h | h
    · exact .inl ⟨h, hb⟩
    · exact .inr h

/-- What is listed after a write was listed before, or is the byte written. -/
theorem Memory.mem_writeByte {m : Memory} {a : Nat} {b : Byte} {d : Host.Cell} (h : d ∈ Memory.writeByte m a b) :
    (d = (a, b) ∧ b ≠ Config.unlistedByte) ∨ d ∈ m := by
  induction m with
  | nil => exact Memory.mem_cons_iff h
  | cons c m ih =>
    unfold Memory.writeByte at h
    split at h
    · exact Memory.mem_cons_iff h
    · split at h
      · rcases Memory.mem_cons_iff h with h | h
        · exact .inl h
        · exact .inr (by simp [h])
      · rcases List.mem_cons.mp h with h | h
        · exact .inr (by simp [h])
        · rcases ih h with h | h
          · exact .inl h
          · exact .inr (by simp [h])

theorem Memory.cons_wf {m : Memory} {a : Nat} {b : Byte} (h : Memory.wf m) (ha : ∀ d ∈ m, a < d.1) :
    Memory.wf (Memory.cons a b m) := by
  unfold Memory.cons
  split
  · exact h
  · rename_i hb
    refine ⟨List.pairwise_cons.mpr ⟨ha, h.1⟩, ?_⟩
    intro d hd
    rcases List.mem_cons.mp hd with rfl | hd
    · exact hb
    · exact h.2 d hd

/-- A byte write keeps the canonical form. -/
theorem Memory.writeByte_wf {m : Memory} (h : Memory.wf m) (a : Nat) (b : Byte) : Memory.wf (Memory.writeByte m a b) := by
  induction m with
  | nil => exact Memory.cons_wf h (by simp)
  | cons c m ih =>
    have hs := List.pairwise_cons.mp h.1
    have hm : Memory.wf m := ⟨hs.2, fun d hd => h.2 d (by simp [hd])⟩
    unfold Memory.writeByte
    split
    · refine Memory.cons_wf h ?_
      intro d hd
      rcases List.mem_cons.mp hd with rfl | hd
      · assumption
      · have := hs.1 d hd; omega
    · split
      · exact Memory.cons_wf hm (fun d hd => by have := hs.1 d hd; omega)
      · refine ⟨List.pairwise_cons.mpr ⟨?_, (ih hm).1⟩, ?_⟩
        · intro d hd
          rcases Memory.mem_writeByte hd with ⟨rfl, -⟩ | hd
          · simp only; omega
          · exact hs.1 d hd
        · intro d hd
          rcases List.mem_cons.mp hd with rfl | hd
          · exact h.2 d (by simp)
          · exact (ih hm).2 d hd

/-- The memory at reset is in the canonical form. -/
theorem reset_mem_wf : Memory.wf State.reset.mem := by
  constructor <;> simp [State.reset]

/-! ## Several bytes -/

/-- Writing bytes keeps the canonical form. -/
theorem Memory.writeBytes_wf {m : Memory} (h : Memory.wf m) (a : Nat) (bs : List Byte) :
    Memory.wf (Memory.writeBytes m a bs) := by
  induction bs generalizing m a with
  | nil => exact h
  | cons b bs ih => exact ih (Memory.writeByte_wf h a b) (a + 1)

/-- A byte read after writing bytes from `a` upward: the byte written there, unchanged outside them. -/
theorem Memory.readByte_writeBytes {m : Memory} (h : Memory.wf m) (a k : Nat) (bs : List Byte) :
    Memory.readByte (Memory.writeBytes m a bs) k =
      if a ≤ k ∧ k < a + bs.length then bs.getD (k - a) Config.unlistedByte else Memory.readByte m k := by
  induction bs generalizing m a with
  | nil => simp [Memory.writeBytes]
  | cons b bs ih =>
    rw [Memory.writeBytes, ih (Memory.writeByte_wf h a b), Memory.readByte_writeByte h, List.length_cons]
    by_cases h1 : a + 1 ≤ k ∧ k < a + 1 + bs.length
    · have h2 : a ≤ k ∧ k < a + (bs.length + 1) := by omega
      have h3 : k - a = (k - (a + 1)) + 1 := by omega
      rw [if_pos h1, if_pos h2, h3, List.getD_cons_succ]
    · rw [if_neg h1]
      by_cases hk : k = a
      · have h2 : a ≤ k ∧ k < a + (bs.length + 1) := by omega
        rw [if_pos hk, if_pos h2, hk]
        simp
      · have h2 : ¬ (a ≤ k ∧ k < a + (bs.length + 1)) := by omega
        rw [if_neg hk, if_neg h2]

/-- What is listed after writing bytes was listed before, or lies among them. -/
theorem Memory.mem_writeBytes {m : Memory} {a : Nat} {bs : List Byte} {d : Host.Cell} (h : d ∈ Memory.writeBytes m a bs) :
    (a ≤ d.1 ∧ d.1 < a + bs.length) ∨ d ∈ m := by
  induction bs generalizing m a with
  | nil => exact .inr h
  | cons b bs ih =>
    rw [List.length_cons]
    rcases ih h with h | h
    · exact .inl (by omega)
    · rcases Memory.mem_writeByte h with ⟨rfl, -⟩ | h
      · exact .inl (by simp only; omega)
      · exact .inr h

/-- Writing bytes that end at or below a bound lists no address at or above it. -/
theorem Memory.writeBytes_below {m : Memory} {a n : Nat} {bs : List Byte} (h : ∀ d ∈ m, d.1 < n)
    (hb : a + bs.length ≤ n) : ∀ d ∈ Memory.writeBytes m a bs, d.1 < n := by
  intro d hd
  rcases Memory.mem_writeBytes hd with hd | hd
  · omega
  · exact h d hd

/-! ## The bytes of a word and of a store -/

@[simp] theorem bytesOfWord_length (w : Word) : (bytesOfWord w).length = 4 := rfl

@[simp] theorem storeBytes_length (width : Width) (v : Word) : (storeBytes width v).length = width.bytes := by
  cases width <;> rfl

/-- Byte `k` of a store is bits `8k+7:8k` of the register (20_memory R55). -/
theorem storeBytes_getD (width : Width) (v : Word) (k : Nat) (h : k < width.bytes) (d : Byte) :
    (storeBytes width v).getD k d = v.extractLsb' (8 * k) 8 := by
  cases width <;> simp only [Width.bytes] at h
  · obtain rfl : k = 0 := by omega
    rfl
  · obtain rfl | rfl : k = 0 ∨ k = 1 := by omega
    all_goals rfl
  · obtain rfl | rfl | rfl | rfl : k = 0 ∨ k = 1 ∨ k = 2 ∨ k = 3 := by omega
    all_goals rfl

/-- Byte `k` of a word's bytes is bits `8k+7:8k` (20_memory R51). -/
theorem bytesOfWord_getD (v : Word) (k : Nat) (h : k < 4) (d : Byte) :
    (bytesOfWord v).getD k d = v.extractLsb' (8 * k) 8 :=
  storeBytes_getD .word v k h d

/-- A word is the little-endian word of its bytes. -/
theorem wordOfBytes_bytes (w : Word) :
    wordOfBytes (w.extractLsb' 0 8) (w.extractLsb' 8 8) (w.extractLsb' 16 8) (w.extractLsb' 24 8) = w := by
  unfold wordOfBytes
  ext i hi
  simp only [BitVec.getElem_append, BitVec.getElem_extractLsb']
  split
  · simp [BitVec.getLsbD_eq_getElem hi]
  · split
    · rw [show 8 + (i - 8) = i by omega, BitVec.getLsbD_eq_getElem hi]
    · split
      · rw [show 16 + (i - 8 - 8) = i by omega, BitVec.getLsbD_eq_getElem hi]
      · rw [show 24 + (i - 8 - 8 - 8) = i by omega, BitVec.getLsbD_eq_getElem hi]

end Sys2Proof.Machine
end

