-- ==== Sys2Proof/Laws/Decode.lean ====
section
/-! SUPPORT. The fields of an encoded word, format by format (30_encoding R81 to R101). -/

namespace Sys2Proof

/-! ## Pieces of a concatenation -/

theorem extract_append_low {m n : Nat} (x : BitVec m) (y : BitVec n) (s l : Nat) (h : s + l ≤ n) :
    (x ++ y).extractLsb' s l = y.extractLsb' s l := by
  ext i hi
  simp [BitVec.getLsbD_append, show s + i < n by omega]

theorem extract_append_high {m n : Nat} (x : BitVec m) (y : BitVec n) (s l : Nat) (h : n ≤ s) :
    (x ++ y).extractLsb' s l = x.extractLsb' (s - n) l := by
  ext i hi
  simp [BitVec.getLsbD_append, show ¬ s + i < n by omega, show s + i - n = s - n + i by omega]

@[simp] theorem regOfBits_bitsOfReg (r : Reg) : regOfBits (bitsOfReg r) = r := rfl

@[simp] theorem bitsOfReg_regOfBits (b : BitVec 5) : bitsOfReg (regOfBits b) = b := rfl

/-- The low bits of a sign-extended value are the value. -/
theorem setWidth_sext {n : Nat} (v : BitVec n) (h : n ≤ 32) : (sext v).setWidth n = v := by
  ext i hi
  rw [BitVec.getElem_setWidth, sext, BitVec.getLsbD_signExtend, if_pos hi, BitVec.getLsbD_eq_getElem hi]
  simp [show i < 32 by omega]

/-- The low bits of a zero-extended value are the value. -/
theorem setWidth_zext {n : Nat} (v : BitVec n) (h : n ≤ 32) : (zext v).setWidth n = v := by
  ext i hi
  rw [BitVec.getElem_setWidth, zext, BitVec.getLsbD_setWidth, BitVec.getLsbD_eq_getElem hi]
  simp [show i < 32 by omega]

/-! ## The fields of each format -/

@[simp] theorem funct7Of_encR (f7 : BitVec 7) (f3 : BitVec 3) (rd rs1 rs2 : Reg) : funct7Of (encR f7 f3 rd rs1 rs2) = f7 := by
  unfold funct7Of encR
  simp (disch := decide) only [extract_append_high]
  simp
@[simp] theorem rs2Of_encR (f7 : BitVec 7) (f3 : BitVec 3) (rd rs1 rs2 : Reg) : rs2Of (encR f7 f3 rd rs1 rs2) = rs2 := by
  unfold rs2Of encR
  simp (disch := decide) only [extract_append_low, extract_append_high]
  simp
@[simp] theorem rs1Of_encR (f7 : BitVec 7) (f3 : BitVec 3) (rd rs1 rs2 : Reg) : rs1Of (encR f7 f3 rd rs1 rs2) = rs1 := by
  unfold rs1Of encR
  simp (disch := decide) only [extract_append_low, extract_append_high]
  simp
@[simp] theorem funct3Of_encR (f7 : BitVec 7) (f3 : BitVec 3) (rd rs1 rs2 : Reg) : funct3Of (encR f7 f3 rd rs1 rs2) = f3 := by
  unfold funct3Of encR
  simp (disch := decide) only [extract_append_low, extract_append_high]
  simp
@[simp] theorem rdOf_encR (f7 : BitVec 7) (f3 : BitVec 3) (rd rs1 rs2 : Reg) : rdOf (encR f7 f3 rd rs1 rs2) = rd := by
  unfold rdOf encR
  simp (disch := decide) only [extract_append_low, extract_append_high]
  simp
@[simp] theorem opcodeOf_encR (f7 : BitVec 7) (f3 : BitVec 3) (rd rs1 rs2 : Reg) : opcodeOf (encR f7 f3 rd rs1 rs2) = 0x33#7 := by
  unfold opcodeOf encR
  simp (disch := decide) only [extract_append_low]
  simp

@[simp] theorem rs1Of_encI (o : BitVec 7) (f3 : BitVec 3) (rd rs1 : Reg) (imm : BitVec 12) : rs1Of (encI o f3 rd rs1 imm) = rs1 := by
  unfold rs1Of encI
  simp (disch := decide) only [extract_append_low, extract_append_high]
  simp
@[simp] theorem funct3Of_encI (o : BitVec 7) (f3 : BitVec 3) (rd rs1 : Reg) (imm : BitVec 12) : funct3Of (encI o f3 rd rs1 imm) = f3 := by
  unfold funct3Of encI
  simp (disch := decide) only [extract_append_low, extract_append_high]
  simp
@[simp] theorem rdOf_encI (o : BitVec 7) (f3 : BitVec 3) (rd rs1 : Reg) (imm : BitVec 12) : rdOf (encI o f3 rd rs1 imm) = rd := by
  unfold rdOf encI
  simp (disch := decide) only [extract_append_low, extract_append_high]
  simp
@[simp] theorem opcodeOf_encI (o : BitVec 7) (f3 : BitVec 3) (rd rs1 : Reg) (imm : BitVec 12) : opcodeOf (encI o f3 rd rs1 imm) = o := by
  unfold opcodeOf encI
  simp (disch := decide) only [extract_append_low]
  simp

@[simp] theorem rs1Of_encShift (f6 : BitVec 6) (f3 : BitVec 3) (rd rs1 : Reg) (amount : BitVec 6) : rs1Of (encShift f6 f3 rd rs1 amount) = rs1 := by
  unfold rs1Of encShift
  simp (disch := decide) only [extract_append_low, extract_append_high]
  simp
@[simp] theorem funct3Of_encShift (f6 : BitVec 6) (f3 : BitVec 3) (rd rs1 : Reg) (amount : BitVec 6) : funct3Of (encShift f6 f3 rd rs1 amount) = f3 := by
  unfold funct3Of encShift
  simp (disch := decide) only [extract_append_low, extract_append_high]
  simp
@[simp] theorem rdOf_encShift (f6 : BitVec 6) (f3 : BitVec 3) (rd rs1 : Reg) (amount : BitVec 6) : rdOf (encShift f6 f3 rd rs1 amount) = rd := by
  unfold rdOf encShift
  simp (disch := decide) only [extract_append_low, extract_append_high]
  simp
@[simp] theorem opcodeOf_encShift (f6 : BitVec 6) (f3 : BitVec 3) (rd rs1 : Reg) (amount : BitVec 6) : opcodeOf (encShift f6 f3 rd rs1 amount) = 0x13#7 := by
  unfold opcodeOf encShift
  simp (disch := decide) only [extract_append_low]
  simp

@[simp] theorem rs2Of_encS (f3 : BitVec 3) (rs1 rs2 : Reg) (imm : BitVec 12) : rs2Of (encS f3 rs1 rs2 imm) = rs2 := by
  unfold rs2Of encS
  simp (disch := decide) only [extract_append_low, extract_append_high]
  simp
@[simp] theorem rs1Of_encS (f3 : BitVec 3) (rs1 rs2 : Reg) (imm : BitVec 12) : rs1Of (encS f3 rs1 rs2 imm) = rs1 := by
  unfold rs1Of encS
  simp (disch := decide) only [extract_append_low, extract_append_high]
  simp
@[simp] theorem funct3Of_encS (f3 : BitVec 3) (rs1 rs2 : Reg) (imm : BitVec 12) : funct3Of (encS f3 rs1 rs2 imm) = f3 := by
  unfold funct3Of encS
  simp (disch := decide) only [extract_append_low, extract_append_high]
  simp
@[simp] theorem opcodeOf_encS (f3 : BitVec 3) (rs1 rs2 : Reg) (imm : BitVec 12) : opcodeOf (encS f3 rs1 rs2 imm) = 0x23#7 := by
  unfold opcodeOf encS
  simp (disch := decide) only [extract_append_low]
  simp

@[simp] theorem rs2Of_encB (f3 : BitVec 3) (rs1 rs2 : Reg) (offset : BitVec 13) : rs2Of (encB f3 rs1 rs2 offset) = rs2 := by
  unfold rs2Of encB
  simp (disch := decide) only [extract_append_low, extract_append_high]
  simp
@[simp] theorem rs1Of_encB (f3 : BitVec 3) (rs1 rs2 : Reg) (offset : BitVec 13) : rs1Of (encB f3 rs1 rs2 offset) = rs1 := by
  unfold rs1Of encB
  simp (disch := decide) only [extract_append_low, extract_append_high]
  simp
@[simp] theorem funct3Of_encB (f3 : BitVec 3) (rs1 rs2 : Reg) (offset : BitVec 13) : funct3Of (encB f3 rs1 rs2 offset) = f3 := by
  unfold funct3Of encB
  simp (disch := decide) only [extract_append_low, extract_append_high]
  simp
@[simp] theorem opcodeOf_encB (f3 : BitVec 3) (rs1 rs2 : Reg) (offset : BitVec 13) : opcodeOf (encB f3 rs1 rs2 offset) = 0x63#7 := by
  unfold opcodeOf encB
  simp (disch := decide) only [extract_append_low]
  simp

@[simp] theorem rdOf_encU (o : BitVec 7) (rd : Reg) (imm20 : BitVec 20) : rdOf (encU o rd imm20) = rd := by
  unfold rdOf encU
  simp (disch := decide) only [extract_append_low, extract_append_high]
  simp
@[simp] theorem opcodeOf_encU (o : BitVec 7) (rd : Reg) (imm20 : BitVec 20) : opcodeOf (encU o rd imm20) = o := by
  unfold opcodeOf encU
  simp (disch := decide) only [extract_append_low]
  simp

@[simp] theorem rdOf_encJ (rd : Reg) (offset : BitVec 21) : rdOf (encJ rd offset) = rd := by
  unfold rdOf encJ
  simp (disch := decide) only [extract_append_low, extract_append_high]
  simp
@[simp] theorem opcodeOf_encJ (rd : Reg) (offset : BitVec 21) : opcodeOf (encJ rd offset) = 0x6F#7 := by
  unfold opcodeOf encJ
  simp (disch := decide) only [extract_append_low]
  simp

/-! ## The immediates of each format (30_encoding R93 to R97) -/

@[simp] theorem immI_encI (o : BitVec 7) (f3 : BitVec 3) (rd rs1 : Reg) (imm : BitVec 12) :
    immI (encI o f3 rd rs1 imm) = sext imm := by
  unfold immI encI
  simp (disch := decide) only [extract_append_high]
  simp

/-- The encoded amount is the low six bits of a shift's immediate (30_encoding R99). -/
@[simp] theorem immI_encShift (f6 : BitVec 6) (f3 : BitVec 3) (rd rs1 : Reg) (amount : BitVec 6) :
    (immI (encShift f6 f3 rd rs1 amount)).setWidth 6 = amount := by
  unfold immI encShift
  simp (disch := decide) only [extract_append_high]
  ext i hi
  rw [BitVec.getElem_setWidth, sext, BitVec.getLsbD_signExtend, if_pos (by omega), BitVec.getLsbD_extractLsb',
    BitVec.getLsbD_append]
  simp [show i < 32 by omega, show i < 12 by omega, hi]

/-- The six bits a shift slot checks (30_encoding R101). -/
@[simp] theorem funct6_encShift (f6 : BitVec 6) (f3 : BitVec 3) (rd rs1 : Reg) (amount : BitVec 6) :
    (funct7Of (encShift f6 f3 rd rs1 amount)).extractLsb' 1 6 = f6 := by
  have h : (funct7Of (encShift f6 f3 rd rs1 amount)).extractLsb' 1 6 = (encShift f6 f3 rd rs1 amount).extractLsb' 26 6 := by
    unfold funct7Of
    ext i hi
    simp [show 1 + i < 7 by omega, show 25 + (1 + i) = 26 + i by omega]
  rw [h]
  unfold encShift
  simp (disch := decide) only [extract_append_high]
  simp

@[simp] theorem immS_encS (f3 : BitVec 3) (rs1 rs2 : Reg) (imm : BitVec 12) : immS (encS f3 rs1 rs2 imm) = sext imm := by
  unfold immS encS
  simp (disch := decide) only [extract_append_low, extract_append_high]
  congr 1
  refine BitVec.eq_of_getLsbD_eq (fun i hi => ?_)
  rw [BitVec.getLsbD_append]
  by_cases h : i < 5
  · simp [h]
  · simp [h, show i - 5 < 7 by omega, show 5 + (i - 5) = i by omega]

@[simp] theorem immU_encU (o : BitVec 7) (rd : Reg) (imm20 : BitVec 20) : immU (encU o rd imm20) = zext imm20 := by
  unfold immU encU
  simp (disch := decide) only [extract_append_high]
  simp

/-- An even 13-bit offset is put together again from its four pieces (30_encoding R86, R95). -/
theorem branchOffset_pieces (offset : BitVec 13) (h : branchOffsetOk offset = true) :
    offset.extractLsb' 12 1 ++ offset.extractLsb' 11 1 ++ offset.extractLsb' 5 6 ++ offset.extractLsb' 1 4 ++ 0#1 = offset := by
  unfold branchOffsetOk at h
  refine BitVec.eq_of_getLsbD_eq (fun i hi => ?_)
  rw [BitVec.getLsbD_append, BitVec.getLsbD_append, BitVec.getLsbD_append, BitVec.getLsbD_append]
  have hc : i = 0 ∨ (1 ≤ i ∧ i < 5) ∨ (5 ≤ i ∧ i < 11) ∨ i = 11 ∨ i = 12 := by omega
  rcases hc with rfl | hc | hc | rfl | rfl
  · simpa using h
  · simp [show ¬ i < 1 by omega, show i - 1 < 4 by omega, show 1 + (i - 1) = i by omega]
  · simp [show ¬ i < 1 by omega, show ¬ i - 1 < 4 by omega, show i - 1 - 4 < 6 by omega, show 5 + (i - 1 - 4) = i by omega]
  · simp
  · simp

@[simp] theorem immB_encB (f3 : BitVec 3) (rs1 rs2 : Reg) (offset : BitVec 13) (h : branchOffsetOk offset = true) :
    immB (encB f3 rs1 rs2 offset) = sext offset := by
  unfold immB encB
  simp (disch := decide) only [extract_append_low, extract_append_high]
  congr 1
  simp only [Nat.reduceSub, BitVec.extractLsb'_eq_self]
  exact branchOffset_pieces offset h

/-- An even 21-bit offset is put together again from its four pieces (30_encoding R88, R97). -/
theorem jumpOffset_pieces (offset : BitVec 21) (h : jumpOffsetOk offset = true) :
    offset.extractLsb' 20 1 ++ offset.extractLsb' 12 8 ++ offset.extractLsb' 11 1 ++ offset.extractLsb' 1 10 ++ 0#1 = offset := by
  unfold jumpOffsetOk at h
  refine BitVec.eq_of_getLsbD_eq (fun i hi => ?_)
  rw [BitVec.getLsbD_append, BitVec.getLsbD_append, BitVec.getLsbD_append, BitVec.getLsbD_append]
  have hc : i = 0 ∨ (1 ≤ i ∧ i < 11) ∨ i = 11 ∨ (12 ≤ i ∧ i < 20) ∨ i = 20 := by omega
  rcases hc with rfl | hc | rfl | hc | rfl
  · simpa using h
  · simp [show ¬ i < 1 by omega, show i - 1 < 10 by omega, show 1 + (i - 1) = i by omega]
  · simp
  · simp [show ¬ i < 1 by omega, show ¬ i - 1 < 10 by omega, show ¬ i - 1 - 10 < 1 by omega,
      show i - 1 - 10 - 1 < 8 by omega, show 12 + (i - 1 - 10 - 1) = i by omega]
  · simp

@[simp] theorem immJ_encJ (rd : Reg) (offset : BitVec 21) (h : jumpOffsetOk offset = true) :
    immJ (encJ rd offset) = sext offset := by
  unfold immJ encJ
  simp (disch := decide) only [extract_append_low, extract_append_high]
  congr 1
  simp only [Nat.reduceSub, BitVec.extractLsb'_eq_self]
  exact jumpOffset_pieces offset h

/-! ## A word from its fields -/

/-- Two neighbouring pieces of a word are one piece. -/
theorem extract_split (w : Word) (s m n : Nat) :
    w.extractLsb' (s + n) m ++ w.extractLsb' s n = w.extractLsb' s (m + n) := by
  refine BitVec.eq_of_getLsbD_eq (fun i hi => ?_)
  rw [BitVec.getLsbD_append, BitVec.getLsbD_extractLsb', BitVec.getLsbD_extractLsb', BitVec.getLsbD_extractLsb']
  by_cases h : i < n
  · simp [h, hi]
  · simp [h, hi, show i - n < m by omega, show s + n + (i - n) = s + i by omega]

/-- A word of the R format is put together again from its fields (30_encoding R82). -/
theorem encR_fields (w : Word) (h : opcodeOf w = 0x33#7) :
    encR (funct7Of w) (funct3Of w) (rdOf w) (rs1Of w) (rs2Of w) = w := by
  unfold encR
  rw [← h]
  unfold funct7Of rs2Of rs1Of funct3Of rdOf opcodeOf
  simp only [bitsOfReg_regOfBits]
  rw [extract_split w 20 7 5, extract_split w 15 12 5, extract_split w 12 17 3, extract_split w 7 20 5, extract_split w 0 25 7]
  exact BitVec.extractLsb'_eq_self

/-- A word of the I format is put together again from its fields (30_encoding R83). -/
theorem encI_fields (w : Word) : encI (opcodeOf w) (funct3Of w) (rdOf w) (rs1Of w) ((immI w).setWidth 12) = w := by
  unfold encI immI
  rw [setWidth_sext _ (by omega)]
  unfold rs1Of funct3Of rdOf opcodeOf
  simp only [bitsOfReg_regOfBits]
  rw [extract_split w 15 12 5, extract_split w 12 17 3, extract_split w 7 20 5, extract_split w 0 25 7]
  exact BitVec.extractLsb'_eq_self

/-- A word of the U format is put together again from its fields (30_encoding R87). -/
theorem encU_fields (w : Word) : encU (opcodeOf w) (rdOf w) ((immU w).setWidth 20) = w := by
  unfold encU immU
  rw [setWidth_zext _ (by omega)]
  unfold rdOf opcodeOf
  simp only [bitsOfReg_regOfBits]
  rw [extract_split w 7 20 5, extract_split w 0 25 7]
  exact BitVec.extractLsb'_eq_self

/-- A shift's word is put together again from its fields (30_encoding R83, R101). -/
theorem encShift_fields (w : Word) (h : opcodeOf w = 0x13#7) :
    encShift ((funct7Of w).extractLsb' 1 6) (funct3Of w) (rdOf w) (rs1Of w) ((immI w).setWidth 6) = w := by
  have e1 : (funct7Of w).extractLsb' 1 6 = w.extractLsb' 26 6 := by
    unfold funct7Of
    ext i hi
    simp [show 1 + i < 7 by omega, show 25 + (1 + i) = 26 + i by omega]
  have e2 : (immI w).setWidth 6 = w.extractLsb' 20 6 := by
    unfold immI sext
    ext i hi
    rw [BitVec.getElem_setWidth, BitVec.getLsbD_signExtend]
    simp [show i < 32 by omega, show i < 12 by omega]
  unfold encShift
  rw [e1, e2, ← h]
  unfold rs1Of funct3Of rdOf opcodeOf
  simp only [bitsOfReg_regOfBits]
  rw [extract_split w 20 6 6, extract_split w 15 12 5, extract_split w 12 17 3, extract_split w 7 20 5, extract_split w 0 25 7]
  exact BitVec.extractLsb'_eq_self

/-- A word of the S format is put together again from its fields (30_encoding R85). -/
theorem encS_fields (w : Word) (h : opcodeOf w = 0x23#7) :
    encS (funct3Of w) (rs1Of w) (rs2Of w) ((immS w).setWidth 12) = w := by
  unfold encS immS
  rw [setWidth_sext _ (by omega)]
  simp (disch := decide) only [extract_append_low, extract_append_high]
  simp only [Nat.reduceSub, BitVec.extractLsb'_eq_self]
  rw [← h]
  unfold rs2Of rs1Of funct3Of opcodeOf
  simp only [bitsOfReg_regOfBits]
  rw [extract_split w 20 7 5, extract_split w 15 12 5, extract_split w 12 17 3, extract_split w 7 20 5, extract_split w 0 25 7]
  exact BitVec.extractLsb'_eq_self

/-- A word of the B format is put together again from its fields (30_encoding R86). -/
theorem encB_fields (w : Word) (h : opcodeOf w = 0x63#7) :
    encB (funct3Of w) (rs1Of w) (rs2Of w) ((immB w).setWidth 13) = w := by
  unfold encB immB
  rw [setWidth_sext _ (by omega)]
  simp (disch := decide) only [extract_append_low, extract_append_high]
  simp only [Nat.reduceSub, BitVec.extractLsb'_eq_self]
  rw [← h]
  unfold rs2Of rs1Of funct3Of opcodeOf
  simp only [bitsOfReg_regOfBits]
  rw [extract_split w 25 1 6, extract_split w 20 7 5, extract_split w 15 12 5, extract_split w 12 17 3, extract_split w 8 20 4, extract_split w 7 24 1, extract_split w 0 25 7]
  exact BitVec.extractLsb'_eq_self

/-- A word of the J format is put together again from its fields (30_encoding R88). -/
theorem encJ_fields (w : Word) (h : opcodeOf w = 0x6F#7) : encJ (rdOf w) ((immJ w).setWidth 21) = w := by
  unfold encJ immJ
  rw [setWidth_sext _ (by omega)]
  simp (disch := decide) only [extract_append_low, extract_append_high]
  simp only [Nat.reduceSub, BitVec.extractLsb'_eq_self]
  rw [← h]
  unfold rdOf opcodeOf
  simp only [bitsOfReg_regOfBits]
  rw [extract_split w 21 1 10, extract_split w 20 11 1, extract_split w 12 12 8, extract_split w 7 20 5, extract_split w 0 25 7]
  exact BitVec.extractLsb'_eq_self

/-- Every decoded branch offset is even (30_encoding R95). -/
theorem branchOffsetOk_immB (w : Word) : branchOffsetOk ((immB w).setWidth 13) = true := by
  unfold immB branchOffsetOk
  rw [setWidth_sext _ (by omega), BitVec.getLsbD_append]
  simp

/-- Every decoded JAL offset is even (30_encoding R97). -/
theorem jumpOffsetOk_immJ (w : Word) : jumpOffsetOk ((immJ w).setWidth 21) = true := by
  unfold immJ jumpOffsetOk
  rw [setWidth_sext _ (by omega), BitVec.getLsbD_append]
  simp

/-! ## The Decoder and the Dispatcher -/

/-- The variant bit is bit 5 of funct7 (30_encoding R100). -/
theorem variantOf_eq (w : Word) : variantOf w = (funct7Of w).getLsbD 5 := by
  simp [variantOf, funct7Of]

/-- The opcode of a class (30_encoding R90). -/
theorem opcode_of_clsOf {o : BitVec 7} {c : Cls} (h : clsOf o = some c) :
    o = (match c with
      | .op => 0x33#7
      | .opImm => 0x13#7
      | .load => 0x03#7
      | .jalr => 0x67#7
      | .system => 0x73#7
      | .store => 0x23#7
      | .branch => 0x63#7
      | .lui => 0x37#7
      | .auipc => 0x17#7
      | .jal => 0x6F#7) := by
  unfold clsOf at h
  repeat' split at h
  all_goals first | (cases h; assumption) | cases h

/-! ## What the decoder answers -/

/-- A word of a known class whose slot is defined decodes to that slot's instruction. -/
theorem decodeWord_of_slot {w : Word} {c : Cls} {op : Op} (hc : clsOf (opcodeOf w) = some c)
    (hd : dispatchSlot (recordOf c w) = some op) : decodeWord w = .ok (instrOf op (recordOf c w)) := by
  simp [decodeWord, select, decoder, dispatcher, hc, hd]

/-- A decoded word has a known class and a defined slot. -/
theorem slot_of_decodeWord {w : Word} {i : Instr} (h : decodeWord w = .ok i) :
    ∃ c op, clsOf (opcodeOf w) = some c ∧ dispatchSlot (recordOf c w) = some op ∧ i = instrOf op (recordOf c w) := by
  unfold decodeWord select decoder at h
  cases hc : clsOf (opcodeOf w) with
  | none => simp [hc] at h
  | some c =>
    cases hd : dispatchSlot (recordOf c w) with
    | none => simp [hc, dispatcher, hd] at h
    | some op => exact ⟨c, op, rfl, hd, by simpa [hc, dispatcher, hd] using h.symm⟩

/-- A word is an unknown opcode exactly when no class has its opcode (30_encoding R91). -/
theorem decodeWord_unknownOpcode_iff (w : Word) : decodeWord w = .error .unknownOpcode ↔ clsOf (opcodeOf w) = none := by
  unfold decodeWord select decoder
  cases hc : clsOf (opcodeOf w) with
  | none => simp
  | some c => cases hd : dispatchSlot (recordOf c w) <;> simp [dispatcher, hd]

/-- A word is an undefined slot exactly when its class is known and the dispatch table has no entry (30_encoding R119). -/
theorem decodeWord_undefinedSlot_iff (w : Word) :
    decodeWord w = .error .undefinedSlot ↔ ∃ c, clsOf (opcodeOf w) = some c ∧ dispatchSlot (recordOf c w) = none := by
  unfold decodeWord select decoder
  cases hc : clsOf (opcodeOf w) with
  | none => simp
  | some c => cases hd : dispatchSlot (recordOf c w) <;> simp [dispatcher, hd]

/-- Four bytes decode as their little-endian word. -/
theorem decodeBytes_bytesOfWord (w : Word) (rest : List Byte) :
    decodeBytes (bytesOfWord w ++ rest) =
      match decodeWord w with
      | .error e => .error (.illegal e)
      | .ok i => .ok (i, rest) := by
  simp only [bytesOfWord, List.cons_append, List.nil_append, decodeBytes, Machine.wordOfBytes_bytes]
  all_goals (cases decodeWord w <;> rfl)

end Sys2Proof
end

