-- ==== Sys2Proof/Laws/Registers.lean ====
section
/-! SUPPORT. Reading and writing registers (10_state R20 to R22). -/

namespace Sys2Proof.Machine

/-- x0 reads 0 whatever its slot holds (10_state R21). -/
@[simp] theorem State.readReg_zero (s : State) : s.readReg 0 = 0#32 := by
  simp [State.readReg]

theorem State.readReg_of_ne_zero {s : State} {r : Reg} (h : r ≠ 0) : s.readReg r = s.regs[r.val] := by
  simp [State.readReg, h]

/-- A write to x0 is discarded (10_state R22). -/
@[simp] theorem State.writeReg_zero (s : State) (v : Word) : s.writeReg 0 v = s := by
  simp [State.writeReg]

/-- Every register after a write: the destination holds the value unless it is x0, every other one is unchanged. -/
theorem State.readReg_writeReg (s : State) (rd r : Reg) (v : Word) :
    (s.writeReg rd v).readReg r = if r = rd ∧ rd ≠ 0 then v else s.readReg r := by
  by_cases hd : rd = 0
  · simp [hd]
  · by_cases hr : r = 0
    · have : ¬ r = rd := fun h => hd (h ▸ hr)
      simp [hr, hd, Ne.symm hd]
    · simp only [State.readReg, State.writeReg, hd, hr, if_false, ne_eq, not_false_eq_true, and_true]
      rw [Vector.getElem_set]
      by_cases h : r = rd
      · simp [h]
      · have : ¬ rd.val = r.val := fun e => h (Fin.ext e.symm)
        simp [h, this]

@[simp] theorem State.readReg_writeReg_self (s : State) {rd : Reg} (v : Word) (h : rd ≠ 0) :
    (s.writeReg rd v).readReg rd = v := by
  simp [State.readReg_writeReg, h]

theorem State.readReg_writeReg_of_ne (s : State) {rd r : Reg} (v : Word) (h : r ≠ rd) :
    (s.writeReg rd v).readReg r = s.readReg r := by
  simp [State.readReg_writeReg, h]

/-- No write reaches the slot of x0. -/
@[simp] theorem State.writeReg_slot_zero (s : State) (rd : Reg) (v : Word) : (s.writeReg rd v).regs[0] = s.regs[0] := by
  unfold State.writeReg
  split
  · rfl
  · rename_i h
    have : ¬ rd.val = 0 := fun e => h (Fin.ext e)
    simp [this]

end Sys2Proof.Machine
end

