-- ==== Sys2Proof/Laws/Ops.lean ====
section
/-! SUPPORT. One specification lemma per shared operation: everything it can answer. -/

namespace Sys2Proof.Machine

/-! ## MemRead and MemWrite (20_memory R53 to R55) -/

theorem State.memRead_inBounds {s : State} {addr : Word} {width : Width} (access : Access) (h : s.inBounds addr width) :
    s.memRead access addr width = .ok (Memory.readLE s.mem addr.toNat width) := by
  simp [State.memRead, h]

theorem State.memRead_outOfBounds {s : State} {addr : Word} {width : Width} (access : Access) (h : ¬ s.inBounds addr width) :
    s.memRead access addr width = .error (.memory access s.pc addr) := by
  simp only [State.memRead, h, if_false]

theorem State.memWrite_inBounds {s : State} {addr : Word} {width : Width} (v : Word) (h : s.inBounds addr width) :
    s.memWrite addr width v = .ok (s.withMem (Memory.writeBytes s.mem addr.toNat (storeBytes width v))) := by
  simp [State.memWrite, h]

theorem State.memWrite_outOfBounds {s : State} {addr : Word} {width : Width} (v : Word) (h : ¬ s.inBounds addr width) :
    s.memWrite addr width v = .error (.memory .store s.pc addr) := by
  simp only [State.memWrite, h, if_false]

/-- Byte `k` of a read is the byte at `addr + k` (20_memory R51, R54). -/
theorem Memory.readLE_byte (m : Memory) (a : Nat) (width : Width) (k : Nat) (h : k < width.bytes) :
    (Memory.readLE m a width).extractLsb' (8 * k) 8 = Memory.readByte m (a + k) := by
  cases width <;> simp only [Width.bytes] at h
  · obtain rfl : k = 0 := by omega
    ext i hi
    simp [Memory.readLE, zext, hi, show i < 32 by omega]
  · obtain rfl | rfl : k = 0 ∨ k = 1 := by omega
    all_goals
      ext i hi
      rw [BitVec.getElem_extractLsb', Memory.readLE, zext, BitVec.getLsbD_setWidth, BitVec.getLsbD_append]
      simp [hi, show i < 32 by omega, show 8 + i < 32 by omega]
  · obtain rfl | rfl | rfl | rfl : k = 0 ∨ k = 1 ∨ k = 2 ∨ k = 3 := by omega
    all_goals
      ext i hi
      rw [BitVec.getElem_extractLsb', Memory.readLE, wordOfBytes, BitVec.getLsbD_append, BitVec.getLsbD_append,
        BitVec.getLsbD_append]
      simp [hi, show ¬ 16 + i < 8 by omega, show 16 + i - 8 = 8 + i by omega, show ¬ 24 + i < 8 by omega,
        show 24 + i - 8 = 16 + i by omega]

/-- The bits of a read above its width are 0 (20_memory R54: zero-extended). -/
theorem Memory.readLE_high (m : Memory) (a : Nat) (width : Width) (j : Nat) (h : 8 * width.bytes ≤ j) :
    (Memory.readLE m a width).getLsbD j = false := by
  cases width <;> simp only [Width.bytes] at h
  · simp only [Memory.readLE, zext, BitVec.getLsbD_setWidth]
    rw [BitVec.getLsbD_of_ge _ _ (by omega)]; simp
  · simp only [Memory.readLE, zext, BitVec.getLsbD_setWidth]
    rw [BitVec.getLsbD_of_ge _ _ (by omega)]; simp
  · exact BitVec.getLsbD_of_ge _ _ (by omega)

/-- A read sees the bytes only: equal bytes give equal reads. -/
theorem Memory.readLE_congr {m m' : Memory} {a : Nat} {width : Width}
    (h : ∀ k, k < width.bytes → Memory.readByte m' (a + k) = Memory.readByte m (a + k)) :
    Memory.readLE m' a width = Memory.readLE m a width := by
  cases width <;> simp only [Width.bytes] at h
  · have h0 := h 0 (by omega); simp only [Nat.add_zero] at h0
    simp [Memory.readLE, h0]
  · have h0 := h 0 (by omega); have h1 := h 1 (by omega); simp only [Nat.add_zero] at h0
    simp [Memory.readLE, h0, h1]
  · have h0 := h 0 (by omega); have h1 := h 1 (by omega); have h2 := h 2 (by omega); have h3 := h 3 (by omega)
    simp only [Nat.add_zero] at h0
    simp [Memory.readLE, h0, h1, h2, h3]

/-- The bytes after an in-bounds store (20_memory R55). -/
theorem Memory.readByte_store {m : Memory} (h : Memory.wf m) (a k : Nat) (width : Width) (v : Word) :
    Memory.readByte (Memory.writeBytes m a (storeBytes width v)) k =
      if a ≤ k ∧ k < a + width.bytes then v.extractLsb' (8 * (k - a)) 8 else Memory.readByte m k := by
  rw [Memory.readByte_writeBytes h, storeBytes_length]
  split
  · rw [storeBytes_getD _ _ _ (by omega)]
  · rfl

/-- A word stored and read back (20_memory R54, R55). -/
theorem Memory.readLE_word_writeBytes {m : Memory} (h : Memory.wf m) (a : Nat) (w : Word) :
    Memory.readLE (Memory.writeBytes m a (bytesOfWord w)) a .word = w := by
  have hb : ∀ k, k < 4 → Memory.readByte (Memory.writeBytes m a (bytesOfWord w)) (a + k) = w.extractLsb' (8 * k) 8 := by
    intro k hk
    rw [Memory.readByte_writeBytes h, bytesOfWord_length, if_pos (by omega), show a + k - a = k by omega,
      bytesOfWord_getD _ _ hk]
  have h0 := hb 0 (by omega); have h1 := hb 1 (by omega); have h2 := hb 2 (by omega); have h3 := hb 3 (by omega)
  simp only [Nat.add_zero, Nat.mul_zero, Nat.mul_one, Nat.reduceMul] at h0 h1 h2 h3
  simp only [Memory.readLE, h0, h1, h2, h3]
  exact wordOfBytes_bytes w

/-! ## What the shared forms of the execute stage answer -/

/-- A load: in bounds it writes the extended value, out of bounds it raises (43 R210). -/
theorem loadTo_cases (s : State) (rd rs1 : Reg) (imm : BitVec 12) (width : Width) (extend : Word → Word) :
    (s.inBounds (effAddr (s.readReg rs1) imm) width ∧
      loadTo s rd rs1 imm width extend =
        .next (s.writeReg rd (extend (Memory.readLE s.mem (effAddr (s.readReg rs1) imm).toNat width)))) ∨
    (¬ s.inBounds (effAddr (s.readReg rs1) imm) width ∧
      loadTo s rd rs1 imm width extend = raise (.memory .load s.pc (effAddr (s.readReg rs1) imm)) s) := by
  by_cases h : s.inBounds (effAddr (s.readReg rs1) imm) width
  · exact .inl ⟨h, by simp [loadTo, State.memRead_inBounds _ h, writeResult]⟩
  · exact .inr ⟨h, by simp [loadTo, State.memRead_outOfBounds _ h]⟩

/-- A store: in bounds it writes the low bytes, out of bounds it raises and writes none (44 R230). -/
theorem storeFrom_cases (s : State) (rs1 rs2 : Reg) (imm : BitVec 12) (width : Width) :
    (s.inBounds (effAddr (s.readReg rs1) imm) width ∧
      storeFrom s rs1 rs2 imm width =
        .next (s.withMem (Memory.writeBytes s.mem (effAddr (s.readReg rs1) imm).toNat (storeBytes width (s.readReg rs2))))) ∨
    (¬ s.inBounds (effAddr (s.readReg rs1) imm) width ∧
      storeFrom s rs1 rs2 imm width = raise (.memory .store s.pc (effAddr (s.readReg rs1) imm)) s) := by
  by_cases h : s.inBounds (effAddr (s.readReg rs1) imm) width
  · exact .inl ⟨h, by simp [storeFrom, State.memWrite_inBounds _ h]⟩
  · exact .inr ⟨h, by simp [storeFrom, State.memWrite_outOfBounds _ h]⟩

/-! ## The dump (70_reset R356) -/

theorem dump_flatMap_length (s : State) (l : List Reg) :
    (l.flatMap (fun r => bytesOfWord (s.readReg r))).length = 4 * l.length := by
  induction l with
  | nil => rfl
  | cons r l ih => rw [List.flatMap_cons, List.length_append, ih, List.length_cons, bytesOfWord_length]; omega

theorem dump_flatMap_getD (s : State) (l : List Reg) (i k : Nat) (hi : i < l.length) (hk : k < 4) (d : Byte) :
    (l.flatMap (fun r => bytesOfWord (s.readReg r))).getD (4 * i + k) d = (s.readReg l[i]).extractLsb' (8 * k) 8 := by
  induction l generalizing i with
  | nil => simp at hi
  | cons r l ih =>
    rw [List.flatMap_cons]
    cases i with
    | zero =>
      rw [Nat.mul_zero, Nat.zero_add, List.getD_append _ _ _ _ (by rw [bytesOfWord_length]; omega)]
      exact bytesOfWord_getD _ _ hk d
    | succ i =>
      rw [List.getD_append_right _ _ _ _ (by rw [bytesOfWord_length]; omega), bytesOfWord_length,
        show 4 * (i + 1) + k - 4 = 4 * i + k by omega, ih i (by simpa using hi)]
      rfl

/-- The sink has 128 bytes (70_reset R356). -/
@[simp] theorem State.dump_length (s : State) : s.dump.length = 128 := by
  rw [State.dump, dump_flatMap_length, List.length_finRange]

/-- Byte `4*i + k` of the sink is `x[i][8k+7:8k]` (70_reset R356). -/
theorem State.dump_getD (s : State) (r : Reg) (k : Nat) (hk : k < 4) (d : Byte) :
    s.dump.getD (4 * r.val + k) d = (s.readReg r).extractLsb' (8 * k) 8 := by
  rw [State.dump, dump_flatMap_getD s _ _ _ (by simp) hk]
  simp

end Sys2Proof.Machine
end

