-- ==== Sys2Proof/Laws/Exec.lean ====
section
/-! SUPPORT. Everything the execute stage can answer, said once (40_control_loop R145): later proofs cite `exec_cases`
and do not unfold the meanings. -/

namespace Sys2Proof.Machine

/-! ## Comparisons as the rules word them (00_scope R8) -/

@[simp] theorem ltSigned_eq (a b : Word) : ltSigned a b = decide (a.toInt < b.toInt) := by
  simp [ltSigned, BitVec.slt]

@[simp] theorem ltUnsigned_eq (a b : Word) : ltUnsigned a b = decide (a.toNat < b.toNat) := by
  simp [ltUnsigned, BitVec.ult]

theorem condEq_iff (a b : Word) : condEq a b = true ↔ a = b := by simp [condEq]
theorem condNe_iff (a b : Word) : condNe a b = true ↔ a ≠ b := by simp [condNe]
theorem condLt_iff (a b : Word) : condLt a b = true ↔ a.toInt < b.toInt := by simp [condLt]
theorem condGe_iff (a b : Word) : condGe a b = true ↔ b.toInt ≤ a.toInt := by simp [condGe]
theorem condLtu_iff (a b : Word) : condLtu a b = true ↔ a.toNat < b.toNat := by simp [condLtu]
theorem condGeu_iff (a b : Word) : condGeu a b = true ↔ b.toNat ≤ a.toNat := by simp [condGeu]

/-- ECALL's exit condition (48 R300). -/
theorem exitCondition_iff (s : State) : s.exitCondition = true ↔ s.readReg 17 = 10#32 ∨ s.readReg 10 = 10#32 := by
  simp [State.exitCondition, Config.exitCode]

/-! ## The frame of a register result -/

/-- A register result sets its destination and changes nothing else. -/
theorem writeReg_frame (s : State) (rd : Reg) (v : Word) :
    RegSet s (s.writeReg rd v) rd v ∧ BytesKept s (s.writeReg rd v) ∧ ControlKept s (s.writeReg rd v) ∧
      LatchesKept s (s.writeReg rd v) :=
  ⟨⟨fun h => by simp [h], by simp, fun r hr => State.readReg_writeReg_of_ne s v hr⟩, fun a => by simp,
    by simp [ControlKept], by simp [LatchesKept]⟩

/-! ## The answers -/

/-- The answers of `exec i s`, one constructor per shape. -/
inductive ExecShape (i : Instr) (s : State) : Result → Prop where
  /-- a register result -/
  | result (rd : Reg) (v : Word) (hd : i.dest = some rd) (hj : i.jumpTarget s = none) (hst : i.storeAccess s = none)
      (hl : ∀ a w, i.loadAccess s = some (a, w) → s.inBounds a w) (he : i ≠ .ecall) :
      ExecShape i s (.next (s.writeReg rd v))
  /-- a jump that links -/
  | link (rd : Reg) (target : Word) (hd : i.dest = some rd) (hj : i.jumpTarget s = some target)
      (hst : i.storeAccess s = none) (hl : i.loadAccess s = none) (he : i ≠ .ecall) :
      ExecShape i s (.next ((s.writeReg rd (linkOf s.pc)).jumpTo target))
  /-- a taken branch -/
  | taken (target : Word) (hd : i.dest = none) (hj : i.jumpTarget s = some target)
      (hst : i.storeAccess s = none) (hl : i.loadAccess s = none) (he : i ≠ .ecall) : ExecShape i s (.next (s.jumpTo target))
  /-- no effect: a branch not taken, an ECALL that does not exit -/
  | none (hd : i.dest = none) (hj : i.jumpTarget s = none) (hst : i.storeAccess s = none) (hl : i.loadAccess s = none)
      (he : i = .ecall → s.exitCondition = false) : ExecShape i s (.next s)
  /-- a store in bounds -/
  | store (a : Word) (width : Width) (v : Word) (hd : i.dest = none) (hj : i.jumpTarget s = none)
      (hst : i.storeAccess s = some (a, width)) (hl : i.loadAccess s = none) (hb : s.inBounds a width) (he : i ≠ .ecall) :
      ExecShape i s (.next (s.withMem (Memory.writeBytes s.mem a.toNat (storeBytes width v))))
  /-- an ECALL that exits -/
  | exit (he : i = .ecall) (hx : s.exitCondition = true) : ExecShape i s (.next s.requestHalt)
  /-- a load out of bounds -/
  | loadFault (a : Word) (width : Width) (hl : i.loadAccess s = some (a, width)) (hst : i.storeAccess s = none)
      (hj : i.jumpTarget s = none) (hb : ¬ s.inBounds a width) : ExecShape i s (raise (.memory .load s.pc a) s)
  /-- a store out of bounds -/
  | storeFault (a : Word) (width : Width) (hst : i.storeAccess s = some (a, width)) (hl : i.loadAccess s = none)
      (hj : i.jumpTarget s = none) (hb : ¬ s.inBounds a width) : ExecShape i s (raise (.memory .store s.pc a) s)

theorem execShape_writeResult {i : Instr} {s : State} {rd : Reg} {v : Word} (hd : i.dest = some rd)
    (hj : i.jumpTarget s = none) (hst : i.storeAccess s = none) (hl : i.loadAccess s = none) (he : i ≠ .ecall) :
    ExecShape i s (writeResult s rd v) :=
  .result rd v hd hj hst (by simp [hl]) he

theorem execShape_loadTo {i : Instr} {s : State} {rd rs1 : Reg} {imm : BitVec 12} {width : Width} {extend : Word → Word}
    (hd : i.dest = some rd) (hj : i.jumpTarget s = none) (hst : i.storeAccess s = none)
    (hl : i.loadAccess s = some (effAddr (s.readReg rs1) imm, width)) (he : i ≠ .ecall) :
    ExecShape i s (loadTo s rd rs1 imm width extend) := by
  rcases loadTo_cases s rd rs1 imm width extend with ⟨hb, h⟩ | ⟨hb, h⟩
  · rw [h]
    refine .result rd _ hd hj hst ?_ he
    intro a w h'
    rw [hl] at h'
    obtain ⟨rfl, rfl⟩ := Prod.mk.injEq _ _ _ _ ▸ Option.some.injEq _ _ ▸ h'
    exact hb
  · rw [h]; exact .loadFault _ _ hl hst hj hb

theorem execShape_storeFrom {i : Instr} {s : State} {rs1 rs2 : Reg} {imm : BitVec 12} {width : Width}
    (hd : i.dest = none) (hj : i.jumpTarget s = none) (hst : i.storeAccess s = some (effAddr (s.readReg rs1) imm, width))
    (hl : i.loadAccess s = none) (he : i ≠ .ecall) : ExecShape i s (storeFrom s rs1 rs2 imm width) := by
  rcases storeFrom_cases s rs1 rs2 imm width with ⟨hb, h⟩ | ⟨hb, h⟩
  · rw [h]; exact .store _ _ _ hd hj hst hl hb he
  · rw [h]; exact .storeFault _ _ hst hl hj hb

theorem execShape_branchIf {i : Instr} {s : State} {c : Bool} {offset : BitVec 13} (hd : i.dest = none)
    (hj : i.jumpTarget s = if c then some (relTarget s.pc offset) else none) (hst : i.storeAccess s = none)
    (hl : i.loadAccess s = none) (he : i ≠ .ecall) : ExecShape i s (branchIf s c offset) := by
  cases c with
  | true => exact .taken _ hd (by simpa using hj) hst hl he
  | false => exact .none hd (by simpa using hj) hst hl (fun h => absurd h he)

/-- What `exec` answers has one of the shapes. -/
theorem exec_cases (i : Instr) (s : State) : ExecShape i s (exec i s) := by
  cases i with
  | add rd rs1 rs2 => exact execShape_writeResult rfl rfl rfl rfl nofun
  | sub rd rs1 rs2 => exact execShape_writeResult rfl rfl rfl rfl nofun
  | sll rd rs1 rs2 => exact execShape_writeResult rfl rfl rfl rfl nofun
  | slt rd rs1 rs2 => exact execShape_writeResult rfl rfl rfl rfl nofun
  | sltu rd rs1 rs2 => exact execShape_writeResult rfl rfl rfl rfl nofun
  | xor rd rs1 rs2 => exact execShape_writeResult rfl rfl rfl rfl nofun
  | srl rd rs1 rs2 => exact execShape_writeResult rfl rfl rfl rfl nofun
  | sra rd rs1 rs2 => exact execShape_writeResult rfl rfl rfl rfl nofun
  | or rd rs1 rs2 => exact execShape_writeResult rfl rfl rfl rfl nofun
  | and rd rs1 rs2 => exact execShape_writeResult rfl rfl rfl rfl nofun
  | addi rd rs1 imm => exact execShape_writeResult rfl rfl rfl rfl nofun
  | slti rd rs1 imm => exact execShape_writeResult rfl rfl rfl rfl nofun
  | sltiu rd rs1 imm => exact execShape_writeResult rfl rfl rfl rfl nofun
  | xori rd rs1 imm => exact execShape_writeResult rfl rfl rfl rfl nofun
  | ori rd rs1 imm => exact execShape_writeResult rfl rfl rfl rfl nofun
  | andi rd rs1 imm => exact execShape_writeResult rfl rfl rfl rfl nofun
  | slli rd rs1 amount => exact execShape_writeResult rfl rfl rfl rfl nofun
  | srli rd rs1 amount => exact execShape_writeResult rfl rfl rfl rfl nofun
  | srai rd rs1 amount => exact execShape_writeResult rfl rfl rfl rfl nofun
  | lb rd rs1 imm => exact execShape_loadTo rfl rfl rfl rfl nofun
  | lh rd rs1 imm => exact execShape_loadTo rfl rfl rfl rfl nofun
  | lw rd rs1 imm => exact execShape_loadTo rfl rfl rfl rfl nofun
  | lbu rd rs1 imm => exact execShape_loadTo rfl rfl rfl rfl nofun
  | lhu rd rs1 imm => exact execShape_loadTo rfl rfl rfl rfl nofun
  | sb rs1 rs2 imm => exact execShape_storeFrom rfl rfl rfl rfl nofun
  | sh rs1 rs2 imm => exact execShape_storeFrom rfl rfl rfl rfl nofun
  | sw rs1 rs2 imm => exact execShape_storeFrom rfl rfl rfl rfl nofun
  | beq rs1 rs2 offset => exact execShape_branchIf rfl (by simp only [Instr.jumpTarget, condEq_iff]) rfl rfl nofun
  | bne rs1 rs2 offset => exact execShape_branchIf rfl (by simp only [Instr.jumpTarget, condNe_iff]) rfl rfl nofun
  | blt rs1 rs2 offset => exact execShape_branchIf rfl (by simp only [Instr.jumpTarget, condLt_iff]) rfl rfl nofun
  | bge rs1 rs2 offset => exact execShape_branchIf rfl (by simp only [Instr.jumpTarget, condGe_iff]) rfl rfl nofun
  | bltu rs1 rs2 offset => exact execShape_branchIf rfl (by simp only [Instr.jumpTarget, condLtu_iff]) rfl rfl nofun
  | bgeu rs1 rs2 offset => exact execShape_branchIf rfl (by simp only [Instr.jumpTarget, condGeu_iff]) rfl rfl nofun
  | jal rd offset => exact .link rd _ rfl rfl rfl rfl nofun
  | jalr rd rs1 imm => exact .link rd _ rfl rfl rfl rfl nofun
  | lui rd imm20 => exact execShape_writeResult rfl rfl rfl rfl nofun
  | auipc rd imm20 => exact execShape_writeResult rfl rfl rfl rfl nofun
  | ecall =>
    by_cases h : s.exitCondition = true
    · rw [show exec .ecall s = .next s.requestHalt by simp [exec, execEcall, h]]
      exact .exit rfl h
    · rw [show exec .ecall s = .next s by simp [exec, execEcall, h]]
      exact .none rfl rfl rfl rfl (fun _ => by simpa using h)

end Sys2Proof.Machine
end

