-- ==== Sys2Proof/Laws/Operands.lean ====
section
/-! SUPPORT. The operand forms and shift amounts in plain arithmetic (00_scope R8, R9; 30_encoding R96, R99). -/

namespace Sys2Proof.Machine

/-- Only the low five bits of a register count as a shift amount (30_encoding R99). -/
theorem shamtOfReg_eq (b : Word) : shamtOfReg b = b.toNat % 32 := by
  simp [shamtOfReg, BitVec.extractLsb'_toNat]

/-- Only the low five bits of an encoded amount count (30_encoding R99). -/
theorem shamtOfAmount_eq (amount : BitVec 6) : shamtOfAmount amount = amount.toNat % 32 := by
  simp [shamtOfAmount, BitVec.extractLsb'_toNat]

/-- `imm << 12` is the field followed by twelve zeros (30_encoding R96). -/
theorem upperImm_eq (imm20 : BitVec 20) : upperImm imm20 = imm20 ++ 0#12 := by
  unfold upperImm zext
  refine BitVec.eq_of_getLsbD_eq (fun i hi => ?_)
  rw [BitVec.getLsbD_append]
  simp
  by_cases h : i < 12
  · simp [h]
  · simp [h, hi, show i - 12 < 32 by omega]

/-- A sign-extended field is the word of the number it stands for. -/
theorem sext_eq_ofInt {n : Nat} (v : BitVec n) : sext v = BitVec.ofInt 32 v.toInt := rfl

/-- A field with a zero bit put below it stands for twice the number. -/
theorem toInt_append_zero {n : Nat} (v : BitVec n) : (v ++ 0#1).toInt = 2 * v.toInt := by
  rw [BitVec.toInt_eq_toNat_cond, BitVec.toInt_eq_toNat_cond, BitVec.toNat_append]
  simp [Nat.shiftLeft_eq]
  have : 2 ^ (n + 1) = 2 * 2 ^ n := by rw [Nat.pow_succ]; omega
  rw [this]
  split <;> split <;> omega

/-- Clearing bit 0 of a word gives the even number at or below it (46 R271). -/
theorem clearBit0_eq (x : Word) : x &&& 0xFFFFFFFE#32 = BitVec.ofNat 32 (x.toNat / 2 * 2) := by
  have h : x &&& 0xFFFFFFFE#32 = (x >>> 1) <<< 1 := by
    apply BitVec.eq_of_getLsbD_eq
    intro i hi
    have hm : ∀ i : Fin 32, (0xFFFFFFFE#32).getLsbD i = !decide (i.val < 1) := by decide
    rw [BitVec.getLsbD_and, hm ⟨i, hi⟩, BitVec.getLsbD_shiftLeft, BitVec.getLsbD_ushiftRight]
    by_cases h0 : i < 1
    · simp [h0]
    · simp [h0, hi, show 1 + (i - 1) = i by omega]
  rw [h]
  apply BitVec.eq_of_toNat_eq
  simp [Nat.shiftRight_eq_div_pow, Nat.shiftLeft_eq]

end Sys2Proof.Machine
end

