-- ==== Sys2Proof/Laws/PerInstr.lean ====
section
/-! SUPPORT. A statement about every instruction as syntax, proved constructor by constructor: the word of an instruction has
the fixed bits of its row of spec/opcode_table.json (30_encoding R122). -/

namespace Sys2Proof

/-! ## The fixed bits of each format -/

theorem and_ones7 (v : BitVec 7) : v &&& 0x7F#7 = v := BitVec.and_allOnes
theorem and_ones6 (v : BitVec 6) : v &&& 0x3F#6 = v := BitVec.and_allOnes
theorem and_ones3 (v : BitVec 3) : v &&& 7#3 = v := BitVec.and_allOnes

theorem encR_and_mask (f7 : BitVec 7) (f3 : BitVec 3) (rd rs1 rs2 : Reg) :
    encR f7 f3 rd rs1 rs2 &&& 0xFE00707F#32 = encR f7 f3 0 0 0 := by
  rw [show 0xFE00707F#32 = 0x7F#7 ++ 0#5 ++ 0#5 ++ 7#3 ++ 0#5 ++ 0x7F#7 by decide]
  unfold encR
  rw [BitVec.and_append, BitVec.and_append, BitVec.and_append, BitVec.and_append, BitVec.and_append]
  simp only [and_ones7, and_ones3, BitVec.and_zero]
  rfl

theorem encI_and_mask (o : BitVec 7) (f3 : BitVec 3) (rd rs1 : Reg) (imm : BitVec 12) :
    encI o f3 rd rs1 imm &&& 0x0000707F#32 = encI o f3 0 0 0#12 := by
  rw [show 0x0000707F#32 = 0#12 ++ 0#5 ++ 7#3 ++ 0#5 ++ 0x7F#7 by decide]
  unfold encI
  rw [BitVec.and_append, BitVec.and_append, BitVec.and_append, BitVec.and_append]
  simp only [and_ones7, and_ones3, BitVec.and_zero]
  rfl

theorem encShift_and_mask (f6 : BitVec 6) (f3 : BitVec 3) (rd rs1 : Reg) (amount : BitVec 6) :
    encShift f6 f3 rd rs1 amount &&& 0xFC00707F#32 = encShift f6 f3 0 0 0#6 := by
  rw [show 0xFC00707F#32 = 0x3F#6 ++ 0#6 ++ 0#5 ++ 7#3 ++ 0#5 ++ 0x7F#7 by decide]
  unfold encShift
  rw [BitVec.and_append, BitVec.and_append, BitVec.and_append, BitVec.and_append, BitVec.and_append]
  simp only [and_ones7, and_ones6, and_ones3, BitVec.and_zero]
  rfl

theorem encS_and_mask (f3 : BitVec 3) (rs1 rs2 : Reg) (imm : BitVec 12) :
    encS f3 rs1 rs2 imm &&& 0x0000707F#32 = encS f3 0 0 0#12 := by
  rw [show 0x0000707F#32 = 0#7 ++ 0#5 ++ 0#5 ++ 7#3 ++ 0#5 ++ 0x7F#7 by decide]
  unfold encS
  rw [BitVec.and_append, BitVec.and_append, BitVec.and_append, BitVec.and_append, BitVec.and_append]
  simp only [and_ones7, and_ones3, BitVec.and_zero]
  rfl

theorem encB_and_mask (f3 : BitVec 3) (rs1 rs2 : Reg) (offset : BitVec 13) :
    encB f3 rs1 rs2 offset &&& 0x0000707F#32 = encB f3 0 0 0#13 := by
  rw [show 0x0000707F#32 = 0#1 ++ 0#6 ++ 0#5 ++ 0#5 ++ 7#3 ++ 0#4 ++ 0#1 ++ 0x7F#7 by decide]
  unfold encB
  rw [BitVec.and_append, BitVec.and_append, BitVec.and_append, BitVec.and_append, BitVec.and_append, BitVec.and_append, BitVec.and_append]
  simp only [and_ones7, and_ones3, BitVec.and_zero]
  rfl

theorem encU_and_mask (o : BitVec 7) (rd : Reg) (imm20 : BitVec 20) :
    encU o rd imm20 &&& 0x0000007F#32 = encU o 0 0#20 := by
  rw [show 0x0000007F#32 = 0#20 ++ 0#5 ++ 0x7F#7 by decide]
  unfold encU
  rw [BitVec.and_append, BitVec.and_append]
  simp only [and_ones7, BitVec.and_zero]
  rfl

theorem encJ_and_mask (rd : Reg) (offset : BitVec 21) :
    encJ rd offset &&& 0x0000007F#32 = encJ 0 0#21 := by
  rw [show 0x0000007F#32 = 0#1 ++ 0#10 ++ 0#1 ++ 0#8 ++ 0#5 ++ 0x7F#7 by decide]
  unfold encJ
  rw [BitVec.and_append, BitVec.and_append, BitVec.and_append, BitVec.and_append, BitVec.and_append]
  simp only [and_ones7, BitVec.and_zero]
  rfl

/-- The fixed bits of the instruction's row. -/
def Laws.FixedBits.Statement (i : Instr) : Prop := encode i &&& i.op.maskBits = i.op.matchBits

theorem Laws.FixedBits.add (rd rs1 rs2 : Reg) : Laws.FixedBits.Statement (.add rd rs1 rs2) :=
  (encR_and_mask _ _ _ _ _).trans rfl
theorem Laws.FixedBits.sub (rd rs1 rs2 : Reg) : Laws.FixedBits.Statement (.sub rd rs1 rs2) :=
  (encR_and_mask _ _ _ _ _).trans rfl
theorem Laws.FixedBits.sll (rd rs1 rs2 : Reg) : Laws.FixedBits.Statement (.sll rd rs1 rs2) :=
  (encR_and_mask _ _ _ _ _).trans rfl
theorem Laws.FixedBits.slt (rd rs1 rs2 : Reg) : Laws.FixedBits.Statement (.slt rd rs1 rs2) :=
  (encR_and_mask _ _ _ _ _).trans rfl
theorem Laws.FixedBits.sltu (rd rs1 rs2 : Reg) : Laws.FixedBits.Statement (.sltu rd rs1 rs2) :=
  (encR_and_mask _ _ _ _ _).trans rfl
theorem Laws.FixedBits.xor (rd rs1 rs2 : Reg) : Laws.FixedBits.Statement (.xor rd rs1 rs2) :=
  (encR_and_mask _ _ _ _ _).trans rfl
theorem Laws.FixedBits.srl (rd rs1 rs2 : Reg) : Laws.FixedBits.Statement (.srl rd rs1 rs2) :=
  (encR_and_mask _ _ _ _ _).trans rfl
theorem Laws.FixedBits.sra (rd rs1 rs2 : Reg) : Laws.FixedBits.Statement (.sra rd rs1 rs2) :=
  (encR_and_mask _ _ _ _ _).trans rfl
theorem Laws.FixedBits.or (rd rs1 rs2 : Reg) : Laws.FixedBits.Statement (.or rd rs1 rs2) :=
  (encR_and_mask _ _ _ _ _).trans rfl
theorem Laws.FixedBits.and (rd rs1 rs2 : Reg) : Laws.FixedBits.Statement (.and rd rs1 rs2) :=
  (encR_and_mask _ _ _ _ _).trans rfl
theorem Laws.FixedBits.addi (rd rs1 : Reg) (imm : BitVec 12) : Laws.FixedBits.Statement (.addi rd rs1 imm) :=
  (encI_and_mask _ _ _ _ _).trans rfl
theorem Laws.FixedBits.slti (rd rs1 : Reg) (imm : BitVec 12) : Laws.FixedBits.Statement (.slti rd rs1 imm) :=
  (encI_and_mask _ _ _ _ _).trans rfl
theorem Laws.FixedBits.sltiu (rd rs1 : Reg) (imm : BitVec 12) : Laws.FixedBits.Statement (.sltiu rd rs1 imm) :=
  (encI_and_mask _ _ _ _ _).trans rfl
theorem Laws.FixedBits.xori (rd rs1 : Reg) (imm : BitVec 12) : Laws.FixedBits.Statement (.xori rd rs1 imm) :=
  (encI_and_mask _ _ _ _ _).trans rfl
theorem Laws.FixedBits.ori (rd rs1 : Reg) (imm : BitVec 12) : Laws.FixedBits.Statement (.ori rd rs1 imm) :=
  (encI_and_mask _ _ _ _ _).trans rfl
theorem Laws.FixedBits.andi (rd rs1 : Reg) (imm : BitVec 12) : Laws.FixedBits.Statement (.andi rd rs1 imm) :=
  (encI_and_mask _ _ _ _ _).trans rfl
theorem Laws.FixedBits.lb (rd rs1 : Reg) (imm : BitVec 12) : Laws.FixedBits.Statement (.lb rd rs1 imm) :=
  (encI_and_mask _ _ _ _ _).trans rfl
theorem Laws.FixedBits.lh (rd rs1 : Reg) (imm : BitVec 12) : Laws.FixedBits.Statement (.lh rd rs1 imm) :=
  (encI_and_mask _ _ _ _ _).trans rfl
theorem Laws.FixedBits.lw (rd rs1 : Reg) (imm : BitVec 12) : Laws.FixedBits.Statement (.lw rd rs1 imm) :=
  (encI_and_mask _ _ _ _ _).trans rfl
theorem Laws.FixedBits.lbu (rd rs1 : Reg) (imm : BitVec 12) : Laws.FixedBits.Statement (.lbu rd rs1 imm) :=
  (encI_and_mask _ _ _ _ _).trans rfl
theorem Laws.FixedBits.lhu (rd rs1 : Reg) (imm : BitVec 12) : Laws.FixedBits.Statement (.lhu rd rs1 imm) :=
  (encI_and_mask _ _ _ _ _).trans rfl
theorem Laws.FixedBits.jalr (rd rs1 : Reg) (imm : BitVec 12) : Laws.FixedBits.Statement (.jalr rd rs1 imm) :=
  (encI_and_mask _ _ _ _ _).trans rfl
theorem Laws.FixedBits.slli (rd rs1 : Reg) (amount : BitVec 6) : Laws.FixedBits.Statement (.slli rd rs1 amount) :=
  (encShift_and_mask _ _ _ _ _).trans rfl
theorem Laws.FixedBits.srli (rd rs1 : Reg) (amount : BitVec 6) : Laws.FixedBits.Statement (.srli rd rs1 amount) :=
  (encShift_and_mask _ _ _ _ _).trans rfl
theorem Laws.FixedBits.srai (rd rs1 : Reg) (amount : BitVec 6) : Laws.FixedBits.Statement (.srai rd rs1 amount) :=
  (encShift_and_mask _ _ _ _ _).trans rfl
theorem Laws.FixedBits.sb (rs1 rs2 : Reg) (imm : BitVec 12) : Laws.FixedBits.Statement (.sb rs1 rs2 imm) :=
  (encS_and_mask _ _ _ _).trans rfl
theorem Laws.FixedBits.sh (rs1 rs2 : Reg) (imm : BitVec 12) : Laws.FixedBits.Statement (.sh rs1 rs2 imm) :=
  (encS_and_mask _ _ _ _).trans rfl
theorem Laws.FixedBits.sw (rs1 rs2 : Reg) (imm : BitVec 12) : Laws.FixedBits.Statement (.sw rs1 rs2 imm) :=
  (encS_and_mask _ _ _ _).trans rfl
theorem Laws.FixedBits.beq (rs1 rs2 : Reg) (offset : BitVec 13) : Laws.FixedBits.Statement (.beq rs1 rs2 offset) :=
  (encB_and_mask _ _ _ _).trans rfl
theorem Laws.FixedBits.bne (rs1 rs2 : Reg) (offset : BitVec 13) : Laws.FixedBits.Statement (.bne rs1 rs2 offset) :=
  (encB_and_mask _ _ _ _).trans rfl
theorem Laws.FixedBits.blt (rs1 rs2 : Reg) (offset : BitVec 13) : Laws.FixedBits.Statement (.blt rs1 rs2 offset) :=
  (encB_and_mask _ _ _ _).trans rfl
theorem Laws.FixedBits.bge (rs1 rs2 : Reg) (offset : BitVec 13) : Laws.FixedBits.Statement (.bge rs1 rs2 offset) :=
  (encB_and_mask _ _ _ _).trans rfl
theorem Laws.FixedBits.bltu (rs1 rs2 : Reg) (offset : BitVec 13) : Laws.FixedBits.Statement (.bltu rs1 rs2 offset) :=
  (encB_and_mask _ _ _ _).trans rfl
theorem Laws.FixedBits.bgeu (rs1 rs2 : Reg) (offset : BitVec 13) : Laws.FixedBits.Statement (.bgeu rs1 rs2 offset) :=
  (encB_and_mask _ _ _ _).trans rfl
theorem Laws.FixedBits.jal (rd : Reg) (offset : BitVec 21) : Laws.FixedBits.Statement (.jal rd offset) :=
  (encJ_and_mask _ _).trans rfl
theorem Laws.FixedBits.lui (rd : Reg) (imm20 : BitVec 20) : Laws.FixedBits.Statement (.lui rd imm20) :=
  (encU_and_mask _ _ _).trans rfl
theorem Laws.FixedBits.auipc (rd : Reg) (imm20 : BitVec 20) : Laws.FixedBits.Statement (.auipc rd imm20) :=
  (encU_and_mask _ _ _).trans rfl
theorem Laws.FixedBits.ecall : Laws.FixedBits.Statement .ecall := by
  unfold Laws.FixedBits.Statement
  decide

end Sys2Proof
end

