-- ==== Sys2Proof/Laws/Step.lean ====
section
/-! SUPPORT. Everything a step can do, said once (40_control_loop R140 to R152). -/

namespace Sys2Proof.Machine

/-! ## Fetch and decode -/

/-- The word a fetching engine fetches. -/
theorem State.Fetches.memRead {s : State} {w : Word} (h : s.Fetches w) : s.memRead .fetch s.pc .word = .ok w := by
  rw [State.memRead_inBounds _ h.fetchInBounds]
  have hb := h.bytes
  simp only [State.byteAt] at hb
  have h0 := hb 0 (by omega); have h1 := hb 1 (by omega); have h2 := hb 2 (by omega); have h3 := hb 3 (by omega)
  simp only [Nat.add_zero, Nat.mul_zero, Nat.mul_one, Nat.reduceMul] at h0 h1 h2 h3
  simp only [Memory.readLE, h0, h1, h2, h3, wordOfBytes_bytes]

/-- Every running engine whose fetch is in bounds fetches the word at its pc. -/
theorem State.fetches_of_inBounds {s : State} (hr : s.run = .running) (hb : s.pc.toNat + 4 ≤ s.memSize) :
    s.Fetches (Memory.readLE s.mem s.pc.toNat .word) :=
  ⟨hr, hb, fun k hk => (Memory.readLE_byte s.mem s.pc.toNat .word k hk).symm⟩

/-- The first line of a step changes neither what is fetched nor from where. -/
theorem State.Fetches.beginCycle {s : State} {w : Word} (h : s.Fetches w) : s.beginCycle.Fetches w :=
  ⟨h.running, h.fetchInBounds, h.bytes⟩

theorem State.Fetches.fetchDecode {s : State} {w : Word} (h : s.Fetches w) :
    s.fetchDecode =
      match decodeWord w with
      | .error reason => .error (.decode reason s.pc w)
      | .ok i => .ok i := by
  simp only [State.fetchDecode, h.memRead]
  all_goals (cases decodeWord w <;> rfl)

/-! ## The answers of a step -/

/-- A step of an engine that fetches a word of an instruction. -/
theorem step_of_decode {s : State} {w : Word} {i : Instr} (h : s.Fetches w) (hi : decodeWord w = .ok i) :
    step s = finish s.pc (exec i s.beginCycle) := by
  have hf := h.beginCycle.fetchDecode
  rw [hi] at hf
  simp [step, issue, h.running, hf]

/-- A step of an engine that fetches a word of no instruction (60_exceptions R312). -/
theorem step_of_illegal {s : State} {w : Word} {reason : DecodeReason} (h : s.Fetches w)
    (hi : decodeWord w = .error reason) :
    step s = .fault (.raised (.decode reason s.pc w) (s.beginCycle.enterFaulted (.decode reason s.pc w))) := by
  have hf := h.beginCycle.fetchDecode
  rw [hi] at hf
  simp [step, issue, h.running, hf]

/-- A step of a running engine whose fetch is out of bounds (60_exceptions R313). -/
theorem step_of_fetch_outOfBounds {s : State} (hr : s.run = .running) (hb : ¬ s.pc.toNat + 4 ≤ s.memSize) :
    step s = .fault (.raised (.memory .fetch s.pc s.pc) (s.beginCycle.enterFaulted (.memory .fetch s.pc s.pc))) := by
  have hb' : ¬ s.beginCycle.inBounds s.beginCycle.pc .word := hb
  have hf : s.beginCycle.fetchDecode = .error (.memory .fetch s.pc s.pc) := by
    rw [State.fetchDecode, State.memRead_outOfBounds _ hb']; rfl
  simp [step, issue, hr, hf]

/-- No step exists from a terminal state (40_control_loop R149). -/
theorem step_of_not_running {s : State} (hr : s.run ≠ .running) : step s = .fault (.terminated s.run) := by
  unfold step issue
  cases h : s.run with
  | running => exact absurd h hr
  | halted => rfl
  | faulted record => rfl

theorem finish_next (pc : Word) (t : State) : finish pc (.next t) = retire pc t := rfl

@[simp] theorem finish_raise (pc : Word) (record : FaultRecord) (s : State) :
    finish pc (raise record s) = raise record s := rfl

theorem retire_aligned {pc : Word} {t : State} (h : aligned t.nextPc) : retire pc t = .next t.advance.haltStage := by
  rw [retire, State.advance_pc]; exact if_pos h

theorem retire_misaligned {pc : Word} {t : State} (h : ¬ aligned t.nextPc) :
    retire pc t = raise (.alignment pc t.nextPc) t.advance := by
  rw [retire, State.advance_pc]; exact if_neg h

/-- A step that answers a next state: the engine ran, fetched a word of an instruction, executed it, advanced to an aligned
pc, and passed the halt stage. -/
theorem step_next_cases {s t : State} (h : step s = .next t) :
    ∃ w i u, s.Fetches w ∧ decodeWord w = .ok i ∧ exec i s.beginCycle = .next u ∧ aligned u.nextPc ∧
      t = u.advance.haltStage := by
  by_cases hr : s.run = .running
  · by_cases hb : s.pc.toNat + 4 ≤ s.memSize
    · have hw := State.fetches_of_inBounds hr hb
      cases hi : decodeWord (Memory.readLE s.mem s.pc.toNat .word) with
      | error reason => rw [step_of_illegal hw hi] at h; cases h
      | ok i =>
        rw [step_of_decode hw hi] at h
        cases he : exec i s.beginCycle with
        | next u =>
          rw [he, finish_next] at h
          by_cases ha : aligned u.nextPc
          · rw [retire_aligned ha] at h
            exact ⟨_, i, u, hw, hi, he, ha, by cases h; rfl⟩
          · rw [retire_misaligned ha] at h; cases h
        | fault f => rw [he] at h; cases h
        | refused r => rw [he] at h; cases h
    · rw [step_of_fetch_outOfBounds hr hb] at h; cases h
  · rw [step_of_not_running hr] at h; cases h

/-- The pc plus 4 is a multiple of 4 when the pc is (40_control_loop R147). -/
theorem aligned_add_four {pc : Word} (h : aligned pc) : aligned (pc + 4#32) := by
  unfold aligned at *
  rw [BitVec.toNat_add]
  simp only [BitVec.toNat_ofNat]
  omega

/-- Everything `exec` answers as a next state leaves alone, whatever the instruction. -/
theorem exec_next_keeps {i : Instr} {s t : State} (h : exec i s = .next t) :
    t.pc = s.pc ∧ t.run = s.run ∧ t.memSize = s.memSize ∧ t.sink = s.sink ∧ t.regs[0] = s.regs[0] := by
  have hc := exec_cases i s
  rw [h] at hc
  cases hc <;> simp

/-- What an instruction accesses, and where it jumps, does not depend on the step's own latches. -/
theorem jumpTarget_beginCycle (i : Instr) (s : State) : i.jumpTarget s.beginCycle = i.jumpTarget s := by cases i <;> rfl
theorem loadAccess_beginCycle (i : Instr) (s : State) : i.loadAccess s.beginCycle = i.loadAccess s := by cases i <;> rfl
theorem storeAccess_beginCycle (i : Instr) (s : State) : i.storeAccess s.beginCycle = i.storeAccess s := by cases i <;> rfl

/-- An engine fetches one word. -/
theorem State.Fetches.unique {s : State} {w w' : Word} (h : s.Fetches w) (h' : s.Fetches w') : w = w' := by
  have := h.memRead
  rw [h'.memRead] at this
  cases this
  rfl

/-- The pc after an executed instruction: its jump target, or pc + 4 (40_control_loop R146). -/
theorem nextPc_of_exec {i : Instr} {s u : State} (h : exec i s.beginCycle = .next u) :
    u.nextPc = (match i.jumpTarget s with
      | some target => target
      | none => s.pc + 4#32) := by
  have hc := exec_cases i s.beginCycle
  rw [h] at hc
  rw [← jumpTarget_beginCycle]
  cases hc with
  | result rd v hd hj => simp [hj, State.nextPc]
  | link rd t hd hj => simp [hj, State.nextPc]
  | taken t hd hj => simp [hj, State.nextPc]
  | none hd hj => simp [hj, State.nextPc]
  | store a width v hd hj => simp [hj, State.nextPc]
  | exit he => simp [he, Instr.jumpTarget, State.nextPc]

/-- Every answer of a step that fetches a word of an instruction: it retires at an aligned pc, its jump is misaligned, or its
load or its store is out of bounds (40_control_loop R152). -/
theorem step_answers {s : State} {w : Word} {i : Instr} (h : s.Fetches w) (hd : decodeWord w = .ok i) :
    (∃ u, exec i s.beginCycle = .next u ∧ aligned u.nextPc ∧ step s = .next u.advance.haltStage) ∨
    (∃ u, exec i s.beginCycle = .next u ∧ ¬ aligned u.nextPc ∧ step s = raise (.alignment s.pc u.nextPc) u.advance) ∨
    (∃ a width, i.loadAccess s = some (a, width) ∧ ¬ s.inBounds a width ∧
      step s = raise (.memory .load s.pc a) s.beginCycle) ∨
    (∃ a width, i.storeAccess s = some (a, width) ∧ ¬ s.inBounds a width ∧
      step s = raise (.memory .store s.pc a) s.beginCycle) := by
  have hs := step_of_decode h hd
  have hc := exec_cases i s.beginCycle
  have next : ∀ u, exec i s.beginCycle = .next u →
      (∃ u, exec i s.beginCycle = .next u ∧ aligned u.nextPc ∧ step s = .next u.advance.haltStage) ∨
      (∃ u, exec i s.beginCycle = .next u ∧ ¬ aligned u.nextPc ∧ step s = raise (.alignment s.pc u.nextPc) u.advance) := by
    intro u he
    by_cases ha : aligned u.nextPc
    · exact .inl ⟨u, he, ha, by rw [hs, he, finish_next, retire_aligned ha]⟩
    · exact .inr ⟨u, he, ha, by rw [hs, he, finish_next, retire_misaligned ha]⟩
  generalize hr : exec i s.beginCycle = r at hc
  cases hc with
  | loadFault a width hl hst hj hb =>
    exact .inr (.inr (.inl ⟨a, width, loadAccess_beginCycle i s ▸ hl, hb, by rw [hs, hr]; rfl⟩))
  | storeFault a width hst hl hj hb =>
    exact .inr (.inr (.inr ⟨a, width, storeAccess_beginCycle i s ▸ hst, hb, by rw [hs, hr]; rfl⟩))
  | _ =>
    rcases next _ hr with h | h
    · exact .inl (hr ▸ h)
    · exact .inr (.inl (hr ▸ h))

end Sys2Proof.Machine
end

