-- ==== Sys2Proof/Tests/Slice0.lean ====
section
/-! SUPPORT. The model's own tests. Words are written out field by field from the encoding tables of 30_encoding R82 to R88
and the match columns of the family files; the expected results are those of 95_test_vectors (the row is named in each
comment) or of a family rule's own example. Witnesses show that the hypotheses of each statement of
Certificates/Slice0/Obligations.lean can be met, clause by clause. -/

namespace Sys2Proof.Tests

open Machine

/-! ## Ill-formed terms are refused (30_encoding R95, R97) -/

theorem test_wellFormed_refuses_odd_offsets :
    (Instr.beq 1 2 1#13).wellFormed = false ∧ (Instr.bne 1 2 0x1FFF#13).wellFormed = false ∧
    (Instr.blt 1 2 3#13).wellFormed = false ∧ (Instr.bge 1 2 0x1001#13).wellFormed = false ∧
    (Instr.bltu 1 2 5#13).wellFormed = false ∧ (Instr.bgeu 1 2 0x0FFF#13).wellFormed = false ∧
    (Instr.jal 1 0x1FFFFF#21).wellFormed = false := by decide

theorem test_wellFormed_accepts_even_offsets :
    (Instr.beq 1 2 0x1000#13).wellFormed = true ∧ (Instr.bge 1 2 0x0FFE#13).wellFormed = true ∧
    (Instr.jal 1 0x100000#21).wellFormed = true ∧ (Instr.jal 1 0x0FFFFE#21).wellFormed = true := by decide

/-! ## Decoding: one word per instruction -/

-- R82, R170: 0x002081B3
theorem test_decode_add : decodeWord (0b0000000#7 ++ 0b00010#5 ++ 0b00001#5 ++ 0b000#3 ++ 0b00011#5 ++ 0b0110011#7) =
    .ok (.add 3 1 2) := by decide
-- 95 2.1, R82: 0x41DF0FB3
theorem test_decode_sub : decodeWord (0b0100000#7 ++ 0b11101#5 ++ 0b11110#5 ++ 0b000#3 ++ 0b11111#5 ++ 0b0110011#7) =
    .ok (.sub 31 30 29) := by decide
-- R82, R172: 0x004191B3
theorem test_decode_sll : decodeWord (0b0000000#7 ++ 0b00100#5 ++ 0b00011#5 ++ 0b001#3 ++ 0b00011#5 ++ 0b0110011#7) =
    .ok (.sll 3 3 4) := by decide
-- R82, R173: 0x005221B3
theorem test_decode_slt : decodeWord (0b0000000#7 ++ 0b00101#5 ++ 0b00100#5 ++ 0b010#3 ++ 0b00011#5 ++ 0b0110011#7) =
    .ok (.slt 3 4 5) := by decide
-- R82, R174: 0x0062B1B3
theorem test_decode_sltu : decodeWord (0b0000000#7 ++ 0b00110#5 ++ 0b00101#5 ++ 0b011#3 ++ 0b00011#5 ++ 0b0110011#7) =
    .ok (.sltu 3 5 6) := by decide
-- R82, R175: 0x007341B3
theorem test_decode_xor : decodeWord (0b0000000#7 ++ 0b00111#5 ++ 0b00110#5 ++ 0b100#3 ++ 0b00011#5 ++ 0b0110011#7) =
    .ok (.xor 3 6 7) := by decide
-- R82, R176: 0x0083D1B3
theorem test_decode_srl : decodeWord (0b0000000#7 ++ 0b01000#5 ++ 0b00111#5 ++ 0b101#3 ++ 0b00011#5 ++ 0b0110011#7) =
    .ok (.srl 3 7 8) := by decide
-- R82, R177: 0x409451B3
theorem test_decode_sra : decodeWord (0b0100000#7 ++ 0b01001#5 ++ 0b01000#5 ++ 0b101#3 ++ 0b00011#5 ++ 0b0110011#7) =
    .ok (.sra 3 8 9) := by decide
-- R82, R178: 0x00A4E1B3
theorem test_decode_or : decodeWord (0b0000000#7 ++ 0b01010#5 ++ 0b01001#5 ++ 0b110#3 ++ 0b00011#5 ++ 0b0110011#7) =
    .ok (.or 3 9 10) := by decide
-- R82, R179: 0x00B571B3
theorem test_decode_and : decodeWord (0b0000000#7 ++ 0b01011#5 ++ 0b01010#5 ++ 0b111#3 ++ 0b00011#5 ++ 0b0110011#7) =
    .ok (.and 3 10 11) := by decide
-- 95 2.1, R83: 0x80010093
theorem test_decode_addi : decodeWord (0b100000000000#12 ++ 0b00010#5 ++ 0b000#3 ++ 0b00001#5 ++ 0b0010011#7) =
    .ok (.addi 1 2 0x800#12) := by decide
-- R83, R191: 0xFFF0A193
theorem test_decode_slti : decodeWord (0b111111111111#12 ++ 0b00001#5 ++ 0b010#3 ++ 0b00011#5 ++ 0b0010011#7) =
    .ok (.slti 3 1 0xFFF#12) := by decide
-- R83, R192: 0xFFF0B193
theorem test_decode_sltiu : decodeWord (0b111111111111#12 ++ 0b00001#5 ++ 0b011#3 ++ 0b00011#5 ++ 0b0010011#7) =
    .ok (.sltiu 3 1 0xFFF#12) := by decide
-- 95 V-I9: 0x5550C193
theorem test_decode_xori : decodeWord (0b010101010101#12 ++ 0b00001#5 ++ 0b100#3 ++ 0b00011#5 ++ 0b0010011#7) =
    .ok (.xori 3 1 0x555#12) := by decide
-- 95 V-I10: 0x8000E193
theorem test_decode_ori : decodeWord (0b100000000000#12 ++ 0b00001#5 ++ 0b110#3 ++ 0b00011#5 ++ 0b0010011#7) =
    .ok (.ori 3 1 0x800#12) := by decide
-- R83, R195: 0x0FF0F193
theorem test_decode_andi : decodeWord (0b000011111111#12 ++ 0b00001#5 ++ 0b111#3 ++ 0b00011#5 ++ 0b0010011#7) =
    .ok (.andi 3 1 0xFF#12) := by decide
-- R196: 0x02109193, bit 25 set
theorem test_decode_slli : decodeWord (0b000000#6 ++ 0b100001#6 ++ 0b00001#5 ++ 0b001#3 ++ 0b00011#5 ++ 0b0010011#7) =
    .ok (.slli 3 1 0x21#6) := by decide
-- 95 V-I15: 0x0200D193
theorem test_decode_srli : decodeWord (0b000000#6 ++ 0b100000#6 ++ 0b00001#5 ++ 0b101#3 ++ 0b00011#5 ++ 0b0010011#7) =
    .ok (.srli 3 1 0x20#6) := by decide
-- 95 V-I18: 0x43F0D193
theorem test_decode_srai : decodeWord (0b010000#6 ++ 0b111111#6 ++ 0b00001#5 ++ 0b101#3 ++ 0b00011#5 ++ 0b0010011#7) =
    .ok (.srai 3 1 0x3F#6) := by decide
-- 95 V-L9: 0xFFF08183
theorem test_decode_lb : decodeWord (0b111111111111#12 ++ 0b00001#5 ++ 0b000#3 ++ 0b00011#5 ++ 0b0000011#7) =
    .ok (.lb 3 1 0xFFF#12) := by decide
-- 95 P2: 0x00209203
theorem test_decode_lh : decodeWord (0b000000000010#12 ++ 0b00001#5 ++ 0b001#3 ++ 0b00100#5 ++ 0b0000011#7) =
    .ok (.lh 4 1 0x2#12) := by decide
-- 95 2.1: 0xFFF32283
theorem test_decode_lw : decodeWord (0b111111111111#12 ++ 0b00110#5 ++ 0b010#3 ++ 0b00101#5 ++ 0b0000011#7) =
    .ok (.lw 5 6 0xFFF#12) := by decide
-- 95 V-L4: 0x0000C183
theorem test_decode_lbu : decodeWord (0b000000000000#12 ++ 0b00001#5 ++ 0b100#3 ++ 0b00011#5 ++ 0b0000011#7) =
    .ok (.lbu 3 1 0x0#12) := by decide
-- 95 V-L7: 0xFFF0D183
theorem test_decode_lhu : decodeWord (0b111111111111#12 ++ 0b00001#5 ++ 0b101#3 ++ 0b00011#5 ++ 0b0000011#7) =
    .ok (.lhu 3 1 0xFFF#12) := by decide
-- 95 2.1, R85: 0x80740023
theorem test_decode_sb : decodeWord (0b1000000#7 ++ 0b00111#5 ++ 0b01000#5 ++ 0b000#3 ++ 0b00000#5 ++ 0b0100011#7) =
    .ok (.sb 8 7 0x800#12) := by decide
-- 95 2.1, R85: 0xFE111FA3
theorem test_decode_sh : decodeWord (0b1111111#7 ++ 0b00001#5 ++ 0b00010#5 ++ 0b001#3 ++ 0b11111#5 ++ 0b0100011#7) =
    .ok (.sh 2 1 0xFFF#12) := by decide
-- 95 2.1, R85: 0x7E742FA3
theorem test_decode_sw : decodeWord (0b0111111#7 ++ 0b00111#5 ++ 0b01000#5 ++ 0b010#3 ++ 0b11111#5 ++ 0b0100011#7) =
    .ok (.sw 8 7 0x7FF#12) := by decide
-- 95 2.1, R86: 0x000000E3
theorem test_decode_beq : decodeWord (0b0#1 ++ 0b000000#6 ++ 0b00000#5 ++ 0b00000#5 ++ 0b000#3 ++ 0b0000#4 ++ 0b1#1 ++ 0b1100011#7) =
    .ok (.beq 0 0 0x800#13) := by decide
-- 95 2.1, R86: 0x7E209FE3
theorem test_decode_bne : decodeWord (0b0#1 ++ 0b111111#6 ++ 0b00010#5 ++ 0b00001#5 ++ 0b001#3 ++ 0b1111#4 ++ 0b1#1 ++ 0b1100011#7) =
    .ok (.bne 1 2 0xFFE#13) := by decide
-- 95 2.1, R86: 0x8041C063
theorem test_decode_blt : decodeWord (0b1#1 ++ 0b000000#6 ++ 0b00100#5 ++ 0b00011#5 ++ 0b100#3 ++ 0b0000#4 ++ 0b0#1 ++ 0b1100011#7) =
    .ok (.blt 3 4 0x1000#13) := by decide
-- 95 2.1, R86: 0xFE20DFE3
theorem test_decode_bge : decodeWord (0b1#1 ++ 0b111111#6 ++ 0b00010#5 ++ 0b00001#5 ++ 0b101#3 ++ 0b1111#4 ++ 0b1#1 ++ 0b1100011#7) =
    .ok (.bge 1 2 0x1FFE#13) := by decide
-- R86, R255: 0x0020E863
theorem test_decode_bltu : decodeWord (0b0#1 ++ 0b000000#6 ++ 0b00010#5 ++ 0b00001#5 ++ 0b110#3 ++ 0b1000#4 ++ 0b0#1 ++ 0b1100011#7) =
    .ok (.bltu 1 2 0x10#13) := by decide
-- R86, R256: 0x0020F863
theorem test_decode_bgeu : decodeWord (0b0#1 ++ 0b000000#6 ++ 0b00010#5 ++ 0b00001#5 ++ 0b111#3 ++ 0b1000#4 ++ 0b0#1 ++ 0b1100011#7) =
    .ok (.bgeu 1 2 0x10#13) := by decide
-- 95 2.1, R88: 0x7FFFF0EF
theorem test_decode_jal : decodeWord (0b0#1 ++ 0b1111111111#10 ++ 0b1#1 ++ 0b11111111#8 ++ 0b00001#5 ++ 0b1101111#7) =
    .ok (.jal 1 0xFFFFE#21) := by decide
-- 95 2.1: 0x800F8067
theorem test_decode_jalr : decodeWord (0b100000000000#12 ++ 0b11111#5 ++ 0b000#3 ++ 0b00000#5 ++ 0b1100111#7) =
    .ok (.jalr 0 31 0x800#12) := by decide
-- 95 2.1, R87: 0xFFFFF4B7
theorem test_decode_lui : decodeWord (0b11111111111111111111#20 ++ 0b01001#5 ++ 0b0110111#7) =
    .ok (.lui 9 0xFFFFF#20) := by decide
-- 95 2.1, R87: 0x80000497
theorem test_decode_auipc : decodeWord (0b10000000000000000000#20 ++ 0b01001#5 ++ 0b0010111#7) =
    .ok (.auipc 9 0x80000#20) := by decide
-- R118: 0x00000073
theorem test_decode_ecall : decodeWord (0b000000000000#12 ++ 0b00000#5 ++ 0b000#3 ++ 0b00000#5 ++ 0b1110011#7) =
    .ok (.ecall) := by decide

/-- 95 2.10, V-D1 to V-D6: no class has the opcode (30_encoding R91). -/
theorem test_unknown_opcode_words :
    [0x00000000#32, 0xFFFFFFFF#32, 0x0FF0000F#32, 0x0000100F#32, 0x0020A02F#32, 0x00000001#32].all
      (fun w => decodeWord w == .error .unknownOpcode) = true := by decide

/-- 95 2.10, V-D7 to V-D16: undefined slots of OP, OP_IMM, LOAD, STORE (30_encoding R119). -/
theorem test_undefined_slot_words_alu_memory :
    [0x022081B3#32, 0x402091B3#32, 0x4020A1B3#32, 0x802081B3#32, 0x40009193#32, 0x8000D193#32, 0x0000B183#32, 0x0000E183#32,
      0x0000F183#32, 0x0020B023#32].all (fun w => decodeWord w == .error .undefinedSlot) = true := by decide

/-- 95 2.10, V-D17 to V-D27: undefined slots of STORE, BRANCH, JALR, SYSTEM (30_encoding R119, 48 R301). -/
theorem test_undefined_slot_words_control :
    [0x0020C023#32, 0x0020F023#32, 0x0020A463#32, 0x0020B463#32, 0x000290E7#32, 0x00100073#32, 0x000000F3#32, 0x00008073#32,
      0xC00022F3#32, 0x30200073#32, 0x10500073#32].all (fun w => decodeWord w == .error .undefinedSlot) = true := by decide

/-- 95 W3: the record of `lui x9, 0xFFFFF` holds the field unshifted (30_encoding R96). -/
theorem test_record_lui_unshifted :
    (match decoder 0xFFFFF4B7#32 with
      | .ok r => some (r.imm, r.rd)
      | .error _ => none) = some (0x000FFFFF#32, 9) := by decide

/-- 30_encoding R80: the word is little-endian in memory; fewer than four bytes are no instruction. -/
theorem test_decodeBytes :
    decodeBytes [0x93#8, 0x08#8, 0xA0#8, 0x00#8, 0x73#8] = .ok (.addi 17 0 10#12, [0x73#8]) ∧
    decodeBytes [0x93#8, 0x08#8, 0xA0#8] = .error .tooShort ∧
    decodeBytes [0x0F#8, 0x00#8, 0xF0#8, 0x0F#8] = .error (.illegal .unknownOpcode) := by decide

/-- The host's decoding of an opcode-table word (here ADDI's and ECALL's). -/
theorem test_decodeTableWord :
    decodeTableWord 32 0x00A00893 = some (.addi 17 0 10#12) ∧ decodeTableWord 32 0x73 = some .ecall ∧
    decodeTableWord 32 0 = none := by decide

/-! ## One step: a small state, the instruction at its pc -/

/-- The state at reset with the pc, some registers and some bytes set. -/
def start (pc : Word) (regs : List (Reg × Word)) (bytes : List (Nat × Byte)) : State :=
  (regs.foldl (fun (s : State) p => s.writeReg p.1 p.2) { State.reset with pc := pc }).withMem
    (bytes.foldl (fun (m : Memory) c => Memory.writeByte m c.1 c.2) [])

/-- `start` with a word placed at the pc. -/
def placed (pc : Word) (regs : List (Reg × Word)) (bytes : List (Nat × Byte)) (w : Word) : State :=
  (start pc regs bytes).withFetchWord 32 w.toNat

/-- What one step's next state shows; nothing if the step stops. -/
def after {α : Type} (s : State) (view : State → α) : Option α :=
  match step s with
  | .next t => some (view t)
  | .fault _ => none
  | .refused _ => none

/-- What fault one step raises, and the registers and memory it left as they were. -/
def faultOf (s : State) : Option (FaultRecord × Bool) :=
  match step s with
  | .fault (.raised f left) => some (f, left.regs == s.regs && left.mem == s.mem)
  | .fault (.terminated _) => none
  | .next _ => none
  | .refused _ => none

-- 95 V-R3
theorem test_add :
    after (placed 0x100#32 [(1, 0x40000000#32)] [] 0x001080B3#32)
      (fun t => (t.readReg 1, t.pc)) = some (0x80000000#32, 0x00000104#32) := by decide
-- 95 V-R5
theorem test_sub :
    after (placed 0x100#32 [(1, 0x80000000#32), (2, 0x00000001#32)] [] 0x402081B3#32)
      (fun t => (t.readReg 3, t.pc)) = some (0x7FFFFFFF#32, 0x00000104#32) := by decide
-- 95 V-R10
theorem test_sll :
    after (placed 0x100#32 [(1, 0x00000001#32), (2, 0xFFFFFFE1#32)] [] 0x002091B3#32)
      (fun t => (t.readReg 3, t.pc)) = some (0x00000002#32, 0x00000104#32) := by decide
-- 95 V-R11
theorem test_slt :
    after (placed 0x100#32 [(1, 0x80000000#32), (2, 0x7FFFFFFF#32)] [] 0x0020A1B3#32)
      (fun t => (t.readReg 3, t.pc)) = some (0x00000001#32, 0x00000104#32) := by decide
-- 95 V-R13
theorem test_sltu :
    after (placed 0x100#32 [(1, 0x00000000#32), (2, 0x80000000#32)] [] 0x0020B1B3#32)
      (fun t => (t.readReg 3, t.pc)) = some (0x00000001#32, 0x00000104#32) := by decide
-- 41 R175 example
theorem test_xor :
    after (placed 0x100#32 [(1, 0xF0F0F0F0#32), (2, 0xFFFF0000#32)] [] 0x0020C1B3#32)
      (fun t => (t.readReg 3, t.pc)) = some (0x0F0FF0F0#32, 0x00000104#32) := by decide
-- 95 V-R17
theorem test_srl :
    after (placed 0x100#32 [(1, 0xF0000000#32), (2, 0x00000004#32)] [] 0x0020D1B3#32)
      (fun t => (t.readReg 3, t.pc)) = some (0x0F000000#32, 0x00000104#32) := by decide
-- 95 V-R18
theorem test_sra :
    after (placed 0x100#32 [(1, 0xF0000000#32), (2, 0x00000004#32)] [] 0x4020D1B3#32)
      (fun t => (t.readReg 3, t.pc)) = some (0xFF000000#32, 0x00000104#32) := by decide
-- 41 R178 example
theorem test_or :
    after (placed 0x100#32 [(1, 0xF0F0F0F0#32), (2, 0x0F0F0000#32)] [] 0x0020E1B3#32)
      (fun t => (t.readReg 3, t.pc)) = some (0xFFFFF0F0#32, 0x00000104#32) := by decide
-- 41 R179 example
theorem test_and :
    after (placed 0x100#32 [(1, 0xF0F0F0F0#32), (2, 0xFFFF0000#32)] [] 0x0020F1B3#32)
      (fun t => (t.readReg 3, t.pc)) = some (0xF0F00000#32, 0x00000104#32) := by decide
-- 95 V-I1
theorem test_addi :
    after (placed 0x100#32 [(1, 0x7FFFFFFF#32)] [] 0x7FF08193#32)
      (fun t => (t.readReg 3, t.pc)) = some (0x800007FE#32, 0x00000104#32) := by decide
-- 42 R191 example
theorem test_slti :
    after (placed 0x100#32 [(1, 0x80000000#32)] [] 0xFFF0A193#32)
      (fun t => (t.readReg 3, t.pc)) = some (0x00000001#32, 0x00000104#32) := by decide
-- 95 V-I8
theorem test_sltiu :
    after (placed 0x100#32 [(1, 0x7FFFFFFF#32)] [] 0x8000B193#32)
      (fun t => (t.readReg 3, t.pc)) = some (0x00000001#32, 0x00000104#32) := by decide
-- 95 V-I9
theorem test_xori :
    after (placed 0x100#32 [(1, 0xFFFFFFFF#32)] [] 0x5550C193#32)
      (fun t => (t.readReg 3, t.pc)) = some (0xFFFFFAAA#32, 0x00000104#32) := by decide
-- 95 V-I10
theorem test_ori :
    after (placed 0x100#32 [(1, 0x00000001#32)] [] 0x8000E193#32)
      (fun t => (t.readReg 3, t.pc)) = some (0xFFFFF801#32, 0x00000104#32) := by decide
-- 95 V-I11
theorem test_andi :
    after (placed 0x100#32 [(1, 0x12345FFF#32)] [] 0x8000F193#32)
      (fun t => (t.readReg 3, t.pc)) = some (0x12345800#32, 0x00000104#32) := by decide
-- 95 V-I13
theorem test_slli :
    after (placed 0x100#32 [(1, 0x00000003#32)] [] 0x03F09193#32)
      (fun t => (t.readReg 3, t.pc)) = some (0x80000000#32, 0x00000104#32) := by decide
-- 95 V-I15
theorem test_srli :
    after (placed 0x100#32 [(1, 0x80000000#32)] [] 0x0200D193#32)
      (fun t => (t.readReg 3, t.pc)) = some (0x80000000#32, 0x00000104#32) := by decide
-- 95 V-I18
theorem test_srai :
    after (placed 0x100#32 [(1, 0x80000000#32)] [] 0x43F0D193#32)
      (fun t => (t.readReg 3, t.pc)) = some (0xFFFFFFFF#32, 0x00000104#32) := by decide
-- 95 V-L3
theorem test_lb :
    after (placed 0x0#32 [(1, 0x000FFFFF#32)] [(0xFFFFC, 0x11#8), (0xFFFFD, 0x22#8), (0xFFFFE, 0x33#8), (0xFFFFF, 0x84#8)] 0x00008183#32)
      (fun t => (t.readReg 3, t.pc)) = some (0xFFFFFF84#32, 0x00000004#32) := by decide
-- 95 P2, the second LH
theorem test_lh :
    after (placed 0x0#32 [(1, 0x00001000#32)] [(0x1000, 0xEF#8), (0x1001, 0xBE#8), (0x1002, 0xAD#8), (0x1003, 0xDE#8)] 0x00209203#32)
      (fun t => (t.readReg 4, t.pc)) = some (0xFFFFDEAD#32, 0x00000004#32) := by decide
-- 95 V-L8
theorem test_lw :
    after (placed 0x100#32 [(1, 0xFFFFFFFF#32)] [(0x0, 0x78#8), (0x1, 0x56#8), (0x2, 0x34#8), (0x3, 0x12#8)] 0x0010A183#32)
      (fun t => (t.readReg 3, t.pc)) = some (0x12345678#32, 0x00000104#32) := by decide
-- 95 V-L4
theorem test_lbu :
    after (placed 0x0#32 [(1, 0x000FFFFF#32)] [(0xFFFFC, 0x11#8), (0xFFFFD, 0x22#8), (0xFFFFE, 0x33#8), (0xFFFFF, 0x84#8)] 0x0000C183#32)
      (fun t => (t.readReg 3, t.pc)) = some (0x00000084#32, 0x00000004#32) := by decide
-- 95 V-L7
theorem test_lhu :
    after (placed 0x0#32 [(1, 0x000FFFFF#32)] [(0xFFFFC, 0x11#8), (0xFFFFD, 0x22#8), (0xFFFFE, 0x33#8), (0xFFFFF, 0x84#8)] 0xFFF0D183#32)
      (fun t => (t.readReg 3, t.pc)) = some (0x00008433#32, 0x00000004#32) := by decide
-- 95 V-S3
theorem test_sb :
    after (placed 0x0#32 [(1, 0x000FFFFF#32), (2, 0x000001FF#32)] [] 0x00208023#32)
      (fun t => (t.byteAt 0xFFFFE, t.byteAt 0xFFFFF, t.pc)) = some (0x00#8, 0xFF#8, 0x00000004#32) := by decide
-- 95 V-S5
theorem test_sh :
    after (placed 0x0#32 [(1, 0x00000200#32), (2, 0x12345678#32)] [(0x200, 0xAA#8), (0x201, 0xAA#8), (0x202, 0xAA#8), (0x203, 0xAA#8)] 0x002090A3#32)
      (fun t => (t.byteAt 0x200, t.byteAt 0x201, t.byteAt 0x202, t.byteAt 0x203, t.pc)) = some (0xAA#8, 0x78#8, 0x56#8, 0xAA#8, 0x00000004#32) := by decide
-- 95 V-S8
theorem test_sw :
    after (placed 0x100#32 [(1, 0xFFFFFFFC#32), (2, 0x11223344#32)] [] 0x0020A223#32)
      (fun t => (t.byteAt 0x0, t.byteAt 0x1, t.byteAt 0x2, t.byteAt 0x3, t.pc)) = some (0x44#8, 0x33#8, 0x22#8, 0x11#8, 0x00000104#32) := by decide
-- 95 V-B1
theorem test_beq :
    after (placed 0x2000#32 [] [] 0x80000063#32)
      (fun t => t.pc) = some 0x00001000#32 := by decide
-- 45 R252 example
theorem test_bne :
    after (placed 0x100#32 [(1, 0x00000001#32), (2, 0x00000002#32)] [] 0xFE209CE3#32)
      (fun t => t.pc) = some 0x000000F8#32 := by decide
-- 95 V-B5
theorem test_blt :
    after (placed 0x100#32 [(1, 0x80000000#32), (2, 0x7FFFFFFF#32)] [] 0x0020C463#32)
      (fun t => t.pc) = some 0x00000108#32 := by decide
-- 95 V-B7
theorem test_bge :
    after (placed 0x100#32 [(1, 0x00000005#32), (2, 0x00000005#32)] [] 0x0020D463#32)
      (fun t => t.pc) = some 0x00000108#32 := by decide
-- 95 V-B6
theorem test_bltu :
    after (placed 0x100#32 [(1, 0x80000000#32), (2, 0x7FFFFFFF#32)] [] 0x0020E463#32)
      (fun t => t.pc) = some 0x00000104#32 := by decide
-- 95 V-B8
theorem test_bgeu :
    after (placed 0x100#32 [] [] 0x0000F463#32)
      (fun t => t.pc) = some 0x00000108#32 := by decide
-- 95 V-J1
theorem test_jal :
    after (placed 0x100#32 [] [] 0x7FDFF0EF#32)
      (fun t => (t.readReg 1, t.pc)) = some (0x00000104#32, 0x001000FC#32) := by decide
-- 95 V-J9
theorem test_jalr :
    after (placed 0x100#32 [(5, 0x000001FF#32)] [] 0x001282E7#32)
      (fun t => (t.readReg 5, t.pc)) = some (0x00000104#32, 0x00000200#32) := by decide
-- 95 V-U1
theorem test_lui :
    after (placed 0x100#32 [] [] 0x800001B7#32)
      (fun t => (t.readReg 3, t.pc)) = some (0x80000000#32, 0x00000104#32) := by decide
-- 95 V-U5
theorem test_auipc :
    after (placed 0x1000#32 [] [] 0xFFFFF197#32)
      (fun t => (t.readReg 3, t.pc)) = some (0x00000000#32, 0x00001004#32) := by decide
-- 95 V-E2, 70 R356
theorem test_ecall_halts :
    after (placed 0x100#32 [(10, 0x0000000A#32), (17, 0x0000005D#32)] [] 0x00000073#32)
      (fun t => (t.run, t.pc, t.sink.map (fun d => d.take 44 |>.drop 40))) = some (.halted, 0x104#32, some [0x0A#8, 0x00#8, 0x00#8, 0x00#8]) := by decide
-- 95 V-E4
theorem test_ecall_other_code :
    after (placed 0x100#32 [(17, 0x8000000A#32)] [] 0x00000073#32)
      (fun t => (t.run, t.pc, t.sink)) = some (.running, 0x104#32, none) := by decide

-- 95 V-R4: a write to x0 is discarded
theorem test_x0_write_discarded :
    after (placed 0x100#32 [(1, 5#32), (2, 6#32)] [] 0x00208033#32) (fun t => (t.readReg 0, t.regs)) =
      some (0#32, (start 0x100#32 [(1, 5#32), (2, 6#32)] []).regs) := by decide

/-! ## One step: faults -/

-- 95 V-L2
theorem test_fault_load_at_end : faultOf (placed 0x0#32 [(1, 0x000FFFFD#32), (3, 0x5A5A5A5A#32)] [] 0x0000A183#32) =
    some (.memory .load 0#32 0x000FFFFD#32, true) := by decide
-- 95 V-L10
theorem test_fault_load_to_x0 : faultOf (placed 0x0#32 [(1, 0x00100000#32)] [] 0x0000A003#32) =
    some (.memory .load 0#32 0x00100000#32, true) := by decide
-- 95 V-S2
theorem test_fault_store_straddles_end : faultOf (placed 0x0#32 [(1, 0x000FFFFE#32), (2, 0xCAFEBABE#32)] [] 0x0020A023#32) =
    some (.memory .store 0#32 0x000FFFFE#32, true) := by decide
-- 95 V-B2
theorem test_fault_branch_misaligned : faultOf (placed 0x100#32 [] [] 0x7E000FE3#32) =
    some (.alignment 0x100#32 0x000010FE#32, true) := by decide
-- 95 V-J3: the link is written (60 R316)
theorem test_fault_jal_misaligned : faultOf (placed 0x100#32 [] [] 0x002000EF#32) =
    some (.alignment 0x100#32 0x00000102#32, false) := by decide
-- 95 V-J8
theorem test_fault_jalr_misaligned : faultOf (placed 0x100#32 [(5, 0x000001FF#32)] [] 0x003282E7#32) =
    some (.alignment 0x100#32 0x00000202#32, false) := by decide
-- 95 V-D3
theorem test_fault_unknown_opcode : faultOf (placed 0x100#32 [] [] 0x0FF0000F#32) =
    some (.decode .unknownOpcode 0x100#32 0x0FF0000F#32, true) := by decide
-- 95 V-C9
theorem test_fault_decode_before_load : faultOf (placed 0x100#32 [(1, 0x00100000#32)] [] 0x0000B183#32) =
    some (.decode .undefinedSlot 0x100#32 0x0000B183#32, true) := by decide

-- 95 V-C1, V-C2: a fetch out of bounds, the sum taken without wrapping
theorem test_fault_fetch :
    faultOf (start 0x00100000#32 [] []) = some (.memory .fetch 0x00100000#32 0x00100000#32, true) ∧
    faultOf (start 0xFFFFFFFC#32 [] []) = some (.memory .fetch 0xFFFFFFFC#32 0xFFFFFFFC#32, true) := by decide

-- 95 V-C1: the last word of memory runs
theorem test_last_word_runs :
    after (placed 0x000FFFFC#32 [] [] 0x00100193#32) (fun t => (t.readReg 3, t.pc)) = some (1#32, 0x00100000#32) := by decide

/-! ## Reset, image, run -/

/-- The host's two questions at reset: the placed word runs as the first instruction. -/
theorem test_withFetchWord_at_reset :
    after (State.reset.withFetchWord 32 0x00A00893) (fun t => (t.readReg 17, t.pc)) = some (10#32, 4#32) := by decide

-- 95 W8, V-C6: `addi x17, x0, 10`; `ecall` halts after two steps, word 17 of the sink is 10
theorem test_two_word_image :
    runFor 2 (State.loaded 0x100000 [0x93#8, 0x08#8, 0xA0#8, 0x00#8, 0x73#8, 0x00#8, 0x00#8, 0x00#8]) =
      some (.halted (List.replicate 68 0x00#8 ++ [0x0A#8] ++ List.replicate 59 0x00#8)) := by decide

-- 95 W9: `fence` ends the run in a decode fault
theorem test_fence_image : runFor 1 (State.loaded 0x100000 [0x0F#8, 0x00#8, 0xF0#8, 0x0F#8]) = some (.faulted .decodeFault) := by
  decide

-- 95 V-C5: an image of MEM_SIZE + 1 bytes is refused
theorem test_image_too_long :
    (match boot 4 (.image [1#8, 2#8, 3#8, 4#8, 5#8]) with
      | .ok _ => none
      | .error e => some e) = some StartError.loadError := by decide

/-- The canonical form: writing what an unlisted address reads as removes the entry. -/
theorem test_memory_canonical :
    Memory.writeByte [(3, 0x11#8), (5, 0x22#8)] 4 0x33#8 = [(3, 0x11#8), (4, 0x33#8), (5, 0x22#8)] ∧
    Memory.writeByte [(3, 0x11#8), (5, 0x22#8)] 3 0x00#8 = [(5, 0x22#8)] ∧
    Memory.writeByte [(3, 0x11#8)] 9 0x00#8 = [(3, 0x11#8)] := by decide

/-! ## Witnesses: the hypotheses of each statement, met by concrete states and operands -/

theorem start_wf (pc : Word) (regs : List (Reg × Word)) (bytes : List (Nat × Byte)) : Memory.wf (start pc regs bytes).mem := by
  have h : ∀ m : Memory, Memory.wf m → Memory.wf (bytes.foldl (fun m c => Memory.writeByte m c.1 c.2) m) := by
    induction bytes with
    | nil => exact fun m hm => hm
    | cons c bytes ih => exact fun m hm => ih _ (Memory.writeByte_wf hm _ _)
  exact h [] reset_mem_wf

/-- A placed word is the one fetched, wherever the pc is in bounds. -/
theorem placed_fetches {pc w : Word} {regs : List (Reg × Word)} {bytes : List (Nat × Byte)}
    (hr : (start pc regs bytes).run = .running) (hb : (start pc regs bytes).inBounds (start pc regs bytes).pc .word) :
    (placed pc regs bytes w).Fetches w := by
  have hw : tableWord 32 w.toNat = w := by
    unfold tableWord
    rw [Nat.mod_eq_of_lt w.isLt, BitVec.ofNat_toNat, BitVec.setWidth_eq]
  have hs : placed pc regs bytes w = (start pc regs bytes).withMem
      (Memory.writeBytes (start pc regs bytes).mem (start pc regs bytes).pc.toNat (bytesOfWord w)) := by
    unfold placed State.withFetchWord
    rw [if_pos hb, hw]
  rw [hs]
  refine ⟨hr, hb, fun k hk => ?_⟩
  simp only [State.withMem_byteAt, State.withMem_pc, Memory.readByte_writeBytes (start_wf pc regs bytes)]
  rw [if_pos (by rw [bytesOfWord_length]; omega), Nat.add_sub_cancel_left, bytesOfWord_getD _ _ hk]

/-- A word placed at 0x100 with every register 0. -/
def bare (w : Word) : State := placed 0x100#32 [] [] w

theorem bare_fetches (w : Word) : (bare w).Fetches w := placed_fetches rfl (by decide)
theorem bare_aligned (w : Word) : aligned (bare w).pc := by
  unfold bare placed State.withFetchWord
  rw [if_pos (by decide), State.withMem_pc]
  decide

/-- A check that holds of every word of a list, as a proposition about each. -/
theorem of_all {p : Word → Prop} [DecidablePred p] {l : List Word} (h : l.all (fun w => decide (p w)) = true) : ∀ w ∈ l, p w :=
  fun w hw => of_decide_eq_true (List.all_eq_true.mp h w hw)

/-- The invariant between steps holds of a concrete state that is not the reset state. -/
theorem witness_invariant : (bare 0x0000006F#32).Inv :=
  ⟨by decide, by decide, by decide, by decide, by decide, by decide, by decide, .inl ⟨by decide, by decide⟩⟩

/-! ### Decoding -/

theorem witness_DecodeOfEncodeIsIdentity :
    (Instr.bgeu 31 0 0x1000#13).wellFormed = true ∧ (Instr.jal 31 0x0FFFFE#21).wellFormed = true ∧
    (Instr.srai 31 31 63#6).wellFormed = true := by decide

theorem witness_EncodeOfDecodeIsIdentity : decodeWord 0x7E742FA3#32 = .ok (.sw 8 7 0x7FF#12) := by decide

theorem witness_WordSelectsRowByMatchAndMask :
    0x43F0D193#32 &&& Op.srai.maskBits = Op.srai.matchBits ∧ ∀ op : Op, 0x00000000#32 &&& op.maskBits ≠ op.matchBits := by
  refine ⟨by decide, fun op => ?_⟩
  cases op <;> decide

/-- Each disjunct of the undefined slots, an unknown opcode, and an instruction. -/
theorem witness_DecodeFaultCausesByReason :
    (bare 0x0FF0000F#32).Fetches 0x0FF0000F#32 ∧ decodeWord 0x0FF0000F#32 = .error .unknownOpcode ∧
    ∀ w ∈ [0x022081B3#32, 0x402091B3#32, 0x40009193#32, 0x8000D193#32, 0x0000B183#32, 0x0020B023#32, 0x0020A463#32, 0x000290E7#32,
        0x00100073#32], (bare w).Fetches w ∧ decodeWord w = .error .undefinedSlot :=
  ⟨bare_fetches _, by decide, fun w hw => ⟨bare_fetches w, of_all (p := fun w => decodeWord w = .error .undefinedSlot) (by decide) w hw⟩⟩

/-- A word of each of the ten classes has a record, of that class. -/
theorem witness_ImmediatesBitByBit : ([0x33#32, 0x13#32, 0x03#32, 0x67#32, 0x73#32, 0x23#32, 0x63#32, 0x37#32, 0x17#32,
      0x6F#32].map (fun w => match decoder w with
    | .ok r => some r.cls
    | .error _ => none)) =
    [some .op, some .opImm, some .load, some .jalr, some .system, some .store, some .branch, some .lui, some .auipc,
      some .jal] := by decide

theorem witness_RecordHoldsItsClassFields : (match decoder 0x43F0D193#32 with
    | .ok r => some (r.cls, r.funct7, r.variant)
    | .error _ => none) = some (.opImm, 0x21#7, true) := by decide

/-! ### The execute stage -/

/-- The last address of each width is in bounds, the one above it is not (43 R211 to R215, 44 R231 to R233). -/
theorem witness_access_bounds :
    let s := fun (a : Word) => start 0x100#32 [(1, a)] []
    let addr := fun (a : Word) => (effAddr ((s a).readReg 1) 0#12).toNat
    (addr 0x000FFFFF#32 + 1 ≤ (s 0x000FFFFF#32).memSize ∧ (s 0x00100000#32).memSize < addr 0x00100000#32 + 1) ∧
    (addr 0x000FFFFE#32 + 2 ≤ (s 0x000FFFFE#32).memSize ∧ (s 0x000FFFFF#32).memSize < addr 0x000FFFFF#32 + 2) ∧
    (addr 0x000FFFFC#32 + 4 ≤ (s 0x000FFFFC#32).memSize ∧ (s 0x000FFFFD#32).memSize < addr 0x000FFFFD#32 + 4) := by decide

theorem witness_StoresCompleteInBounds : Memory.wf (start 0x100#32 [(1, 0x000FFFFC#32)] [(3, 0x11#8)]).mem := start_wf _ _ _

/-- Each branch condition is met by some operands and not by others, at the edge between signed and unsigned. -/
theorem witness_BranchesComplete :
    let a := 0x80000000#32
    let b := 0x7FFFFFFF#32
    (a = a ∧ ¬ a = b) ∧ (a ≠ b ∧ ¬ a ≠ a) ∧ (a.toInt < b.toInt ∧ ¬ b.toInt < a.toInt) ∧ (b.toInt ≤ b.toInt ∧ ¬ b.toInt ≤ a.toInt) ∧
    (b.toNat < a.toNat ∧ ¬ a.toNat < b.toNat) ∧ (b.toNat ≤ a.toNat ∧ ¬ a.toNat ≤ b.toNat) := by decide

theorem witness_OnlyTheDestinationRegisterChanges :
    ∃ t, exec (.jal 1 8#21) (bare 0#32) = .next t ∧ (Instr.jal 1 8#21).dest ≠ some 2 := ⟨_, rfl, by decide⟩

theorem witness_OnlyStoredBytesChange :
    ∃ t, exec (.sb 0 1 5#12) (start 0#32 [(1, 7#32)] []) = .next t ∧ Memory.wf (start 0#32 [(1, 7#32)] []).mem ∧
      t.byteAt 5 ≠ (start 0#32 [(1, 7#32)] []).byteAt 5 :=
  ⟨_, rfl, start_wf _ _ _, by decide⟩

/-- Two states that differ in a register and a byte the instruction does not read. -/
theorem witness_ResultDependsOnSourcesOnly :
    let i := Instr.lw 3 1 0#12
    let s := start 0x100#32 [(1, 0x200#32), (2, 1#32)] [(0x200, 0x44#8), (0x300, 1#8)]
    let s' := start 0x100#32 [(1, 0x200#32), (2, 9#32)] [(0x200, 0x44#8), (0x300, 2#8)]
    Memory.wf s.mem ∧ Memory.wf s'.mem ∧ s'.pc = s.pc ∧ s'.memSize = s.memSize ∧ LatchesKept s s' ∧
      (∀ r ∈ i.sources, s'.readReg r = s.readReg r) ∧
      (∀ a width, i.loadAccess s = some (a, width) → ∀ k, k < width.bytes → s'.byteAt (a.toNat + k) = s.byteAt (a.toNat + k)) ∧
      s ≠ s' ∧ ∃ t, exec i s = .next t := by
  refine ⟨start_wf _ _ _, start_wf _ _ _, by decide, by decide, ⟨by decide, by decide, by decide⟩, by decide, ?_, by decide, ⟨_, rfl⟩⟩
  intro a width h
  cases h
  decide

theorem witness_ZeroRegisterStaysZero :
    ∃ t, exec (.add 0 1 2) (start 0#32 [(1, 5#32), (2, 6#32)] []) = .next t ∧ (Instr.add 0 1 2).dest = some 0 := ⟨_, rfl, rfl⟩

theorem witness_SubUndoesAdd :
    ∃ t u, exec (.add 3 1 2) (start 0#32 [(1, 0xFFFFFFF0#32), (2, 0x20#32)] []) = .next t ∧ exec (.sub 3 3 2) t = .next u ∧
      (3 : Reg) ≠ 0 ∧ (3 : Reg) ≠ 2 := ⟨_, _, rfl, rfl, by decide, by decide⟩

theorem witness_HalvesOfAStoredWord :
    let s := start 0#32 [(1, 0x000FFFFC#32), (2, 0xDEADBEEF#32)] []
    Memory.wf s.mem ∧ effAddr (s.readReg 1) 2#12 = effAddr (s.readReg 1) 0#12 + 2#32 ∧
      (effAddr (s.readReg 1) 0#12).toNat + 4 ≤ s.memSize ∧ (effAddr (s.readReg 1) 0#12).toNat + 4 ≤ 2 ^ 32 ∧
      ∃ t, exec (.sw 1 2 0#12) s = .next t :=
  ⟨start_wf _ _ _, by decide, by decide, by decide, ⟨_, rfl⟩⟩

/-! ### Memory -/

/-- In bounds at the last address of each width, out of bounds one above it and at the top of the address space. -/
theorem witness_MemReadIsLittleEndianAndChecked :
    (0x000FFFFF#32).toNat + Width.byte.bytes ≤ State.reset.memSize ∧ State.reset.memSize < (0x00100000#32).toNat + Width.byte.bytes ∧
    (0x000FFFFE#32).toNat + Width.half.bytes ≤ State.reset.memSize ∧ State.reset.memSize < (0x000FFFFF#32).toNat + Width.half.bytes ∧
    (0x000FFFFC#32).toNat + Width.word.bytes ≤ State.reset.memSize ∧ State.reset.memSize < (0xFFFFFFFE#32).toNat + Width.word.bytes := by
  decide

theorem witness_MemWriteStoresItsBytesOnly : Memory.wf State.reset.mem := reset_mem_wf

theorem witness_CanonicalMemoriesAreEqualWhenTheyReadAlike :
    Memory.wf [(3, 0x11#8), (5, 0x22#8)] ∧ ∀ a, Memory.readByte [(3, 0x11#8), (5, 0x22#8)] a =
      Memory.readByte (Memory.writeByte (Memory.writeByte [] 5 0x22#8) 3 0x11#8) a :=
  ⟨by decide, fun _ => rfl⟩

/-! ### Steps -/

/-- The instruction at the pc retires, jumps to a misaligned pc, and faults. -/
theorem witness_StepRunsTheDecodedInstruction :
    (bare 0x00500013#32).run = .running ∧ (bare 0x00500013#32).pc.toNat + 4 ≤ (bare 0x00500013#32).memSize ∧
    decodeBytes ((List.range 4).map (fun k => (bare 0x00500013#32).byteAt ((bare 0x00500013#32).pc.toNat + k))) =
      .ok (.addi 0 0 5#12, []) ∧
    (∃ t, exec (.addi 0 0 5#12) (bare 0x00500013#32).beginCycle = .next t ∧ aligned t.nextPc) ∧
    decodeBytes ((List.range 4).map (fun k => (bare 0x002000EF#32).byteAt ((bare 0x002000EF#32).pc.toNat + k))) =
      .ok (.jal 1 2#21, []) ∧
    (∃ t, exec (.jal 1 2#21) (bare 0x002000EF#32).beginCycle = .next t ∧ ¬ aligned t.nextPc) ∧
    decodeBytes ((List.range 4).map (fun k => (bare 0xFFF08183#32).byteAt ((bare 0xFFF08183#32).pc.toNat + k))) =
      .ok (.lb 3 1 0xFFF#12, []) ∧
    (∃ f, exec (.lb 3 1 0xFFF#12) (bare 0xFFF08183#32).beginCycle = .fault f) :=
  ⟨by decide, by decide, by decide, ⟨_, rfl, by decide⟩, by decide, ⟨_, rfl, by decide⟩, by decide, ⟨_, rfl⟩⟩

/-- At the last word of memory. -/
theorem witness_PlacedInstructionRunsNext :
    let s := start 0x000FFFFC#32 [] []
    (Instr.addi 3 0 1#12).wellFormed = true ∧ s.run = .running ∧ s.pc.toNat + 4 ≤ s.memSize ∧ Memory.wf s.mem :=
  ⟨by decide, by decide, by decide, start_wf _ _ _⟩

/-- Each word is fetched at an aligned pc, and is of its row; the rows are in the order of each statement's clauses. -/
theorem witness_rows (m : Word) (rows : List (Word × Word)) (h : rows.all (fun p => p.1 &&& m == p.2) = true) :
    ∀ p ∈ rows, (bare p.1).Fetches p.1 ∧ aligned (bare p.1).pc ∧ p.1 &&& m = p.2 :=
  fun p hp => ⟨bare_fetches _, bare_aligned _, by simpa using List.all_eq_true.mp h p hp⟩

theorem witness_StepOnRegisterRegisterWords : ∀ p ∈
    [(0x002081B3#32, 0x00000033#32), (0x402081B3#32, 0x40000033#32), (0x002091B3#32, 0x00001033#32), (0x0020A1B3#32, 0x00002033#32),
      (0x0020B1B3#32, 0x00003033#32), (0x0020C1B3#32, 0x00004033#32), (0x0020D1B3#32, 0x00005033#32), (0x4020D1B3#32, 0x40005033#32),
      (0x0020E1B3#32, 0x00006033#32), (0x0020F1B3#32, 0x00007033#32)],
    (bare p.1).Fetches p.1 ∧ aligned (bare p.1).pc ∧ p.1 &&& 0xFE00707F#32 = p.2 := witness_rows _ _ (by decide)

theorem witness_StepOnRegisterImmediateWords :
    (∀ p ∈ [(0x7FF08193#32, 0x00000013#32), (0xFFF0A193#32, 0x00002013#32), (0x5550C193#32, 0x00004013#32),
        (0x8000E193#32, 0x00006013#32), (0x8000F193#32, 0x00007013#32), (0x40009193#32, 0x00001013#32),
        (0x8000D193#32, 0x00005013#32)],
      (bare p.1).Fetches p.1 ∧ aligned (bare p.1).pc ∧ p.1 &&& 0x0000707F#32 = p.2) ∧
    (∀ p ∈ [(0x03F09193#32, 0x00001013#32), (0x0200D193#32, 0x00005013#32), (0x43F0D193#32, 0x40005013#32)],
      (bare p.1).Fetches p.1 ∧ aligned (bare p.1).pc ∧ p.1 &&& 0xFC00707F#32 = p.2) ∧
    0x40009193#32 &&& 0xFC00707F#32 ≠ 0x00001013#32 ∧ 0x8000D193#32 &&& 0xFC00707F#32 ≠ 0x00005013#32 ∧
    0x8000D193#32 &&& 0xFC00707F#32 ≠ 0x40005013#32 :=
  ⟨witness_rows _ _ (by decide), witness_rows _ _ (by decide), by decide, by decide, by decide⟩

theorem witness_StepOnSltiuWords : ∀ p ∈ [(0x8000B193#32, 0x00003013#32)],
    (bare p.1).Fetches p.1 ∧ aligned (bare p.1).pc ∧ p.1 &&& 0x0000707F#32 = p.2 := witness_rows _ _ (by decide)

/-- The rows; that each access can be in bounds and out of bounds is `witness_access_bounds`. -/
theorem witness_StepOnLoadWords : ∀ p ∈
    [(0x00008183#32, 0x00000003#32), (0x00209203#32, 0x00001003#32), (0x0000A183#32, 0x00002003#32), (0x0000C183#32, 0x00004003#32),
      (0xFFF0D183#32, 0x00005003#32)],
    (bare p.1).Fetches p.1 ∧ aligned (bare p.1).pc ∧ p.1 &&& 0x0000707F#32 = p.2 := witness_rows _ _ (by decide)

theorem witness_StepOnStoreWords :
    (∀ p ∈ [(0x00208023#32, 0x00000023#32), (0x002090A3#32, 0x00001023#32), (0x0020A223#32, 0x00002023#32)],
      (bare p.1).Fetches p.1 ∧ aligned (bare p.1).pc ∧ p.1 &&& 0x0000707F#32 = p.2) ∧
    Memory.wf (bare 0x0020A223#32).mem :=
  ⟨witness_rows _ _ (by decide), by decide⟩

theorem witness_StepOnBranchWords : ∀ p ∈
    [(0x7E000FE3#32, 0x00000063#32), (0x00209363#32, 0x00001063#32), (0x0020C463#32, 0x00004063#32), (0x0020D463#32, 0x00005063#32),
      (0x0020E463#32, 0x00006063#32), (0x0000F463#32, 0x00007063#32)],
    (bare p.1).Fetches p.1 ∧ aligned (bare p.1).pc ∧ p.1 &&& 0x0000707F#32 = p.2 := witness_rows _ _ (by decide)

/-- An aligned target and a misaligned one. -/
theorem witness_StepOnJalWords :
    (∀ p ∈ [(0x7FDFF0EF#32, 0x0000006F#32), (0x002000EF#32, 0x0000006F#32)],
      (bare p.1).Fetches p.1 ∧ aligned (bare p.1).pc ∧ p.1 &&& 0x0000007F#32 = p.2) ∧
    aligned (wordOfInt (0x100 + immJNum 0x7FDFF0EF#32)) ∧ ¬ aligned (wordOfInt (0x100 + immJNum 0x002000EF#32)) :=
  ⟨witness_rows _ _ (by decide), by decide, by decide⟩

/-- An odd sum, a misaligned target, and another funct3. -/
theorem witness_StepOnJalrWords :
    let s := fun (w : Word) => placed 0x100#32 [(5, 0x200#32)] [] w
    let target := fun (w : Word) =>
      BitVec.ofNat 32 ((wordOfInt (((s w).readReg (rs1Of w)).toNat + immINum w)).toNat / 2 * 2)
    ((s 0x001280E7#32).Fetches 0x001280E7#32 ∧ 0x001280E7#32 &&& 0x0000707F#32 = 0x00000067#32 ∧
      aligned (target 0x001280E7#32)) ∧
    ((s 0x002280E7#32).Fetches 0x002280E7#32 ∧ 0x002280E7#32 &&& 0x0000707F#32 = 0x00000067#32 ∧
      ¬ aligned (target 0x002280E7#32)) ∧
    (bare 0x000290E7#32).Fetches 0x000290E7#32 ∧ 0x000290E7#32 &&& 0x0000007F#32 = 0x00000067#32 ∧
    0x000290E7#32 &&& 0x0000707F#32 ≠ 0x00000067#32 :=
  ⟨⟨placed_fetches (by decide) (by decide), by decide, by decide⟩, ⟨placed_fetches (by decide) (by decide), by decide, by decide⟩,
    bare_fetches _, by decide, by decide⟩

theorem witness_StepOnUpperImmediateWords :
    (∀ p ∈ [(0x800001B7#32, 0x00000037#32), (0xFFFFF197#32, 0x00000017#32)],
      (bare p.1).Fetches p.1 ∧ aligned (bare p.1).pc ∧ p.1 &&& 0x0000007F#32 = p.2) := witness_rows _ _ (by decide)

/-- Each register alone asks for the halt, and neither does. -/
theorem witness_StepOnEcall :
    let s := fun (regs : List (Reg × Word)) => placed 0x100#32 regs [] 0x00000073#32
    (s [(17, 10#32)]).Fetches 0x00000073#32 ∧ aligned (s [(17, 10#32)]).pc ∧ (s [(17, 10#32)]).readReg 17 = 10#32 ∧
    (s [(10, 10#32)]).Fetches 0x00000073#32 ∧ aligned (s [(10, 10#32)]).pc ∧ (s [(10, 10#32)]).readReg 10 = 10#32 ∧
    (s [(17, 0x8000000A#32)]).Fetches 0x00000073#32 ∧
      ¬ ((s [(17, 0x8000000A#32)]).readReg 17 = 10#32 ∨ (s [(17, 0x8000000A#32)]).readReg 10 = 10#32) :=
  ⟨placed_fetches (by decide) (by decide), by decide, by decide, placed_fetches (by decide) (by decide), by decide, by decide,
    placed_fetches (by decide) (by decide), by decide⟩

theorem witness_OtherSystemWordsFault : ∀ w ∈ [0x00100073#32, 0x000000F3#32, 0xC00022F3#32, 0x30200073#32, 0x10500073#32],
    (bare w).Fetches w ∧ w &&& 0x0000007F#32 = 0x00000073#32 ∧ w ≠ 0x00000073#32 :=
  fun w hw => ⟨bare_fetches w, of_all (p := fun w => w &&& 0x0000007F#32 = 0x00000073#32 ∧ w ≠ 0x00000073#32) (by decide) w hw⟩

/-! ### The control loop -/

/-- A jump, and an instruction that falls through. -/
theorem witness_NewPcIsTargetOrPcPlusFour :
    ((bare 0x7FDFF0EF#32).Fetches 0x7FDFF0EF#32 ∧ decodeWord 0x7FDFF0EF#32 = .ok (.jal 1 0xFFFFC#21) ∧
      ∃ t, step (bare 0x7FDFF0EF#32) = .next t) ∧
    ((bare 0x00500013#32).Fetches 0x00500013#32 ∧ decodeWord 0x00500013#32 = .ok (.addi 0 0 5#12) ∧
      ∃ t, step (bare 0x00500013#32) = .next t) :=
  ⟨⟨bare_fetches _, by decide, ⟨_, rfl⟩⟩, ⟨bare_fetches _, by decide, ⟨_, rfl⟩⟩⟩

/-- A taken branch to a misaligned target, and a misaligned load. -/
theorem witness_AlignmentFaultOnlyByJumps :
    ((bare 0x7E000FE3#32).Fetches 0x7E000FE3#32 ∧ decodeWord 0x7E000FE3#32 = .ok (.beq 0 0 0xFFE#13) ∧
      aligned (bare 0x7E000FE3#32).pc ∧ (Instr.beq 0 0 0xFFE#13).jumpTarget (bare 0x7E000FE3#32) = some 0x10FE#32 ∧
      ¬ aligned 0x10FE#32) ∧
    ((bare 0x0020A183#32).Fetches 0x0020A183#32 ∧ decodeWord 0x0020A183#32 = .ok (.lw 3 1 2#12) ∧
      aligned (bare 0x0020A183#32).pc ∧ (Instr.lw 3 1 2#12).loadAccess (bare 0x0020A183#32) ≠ none) :=
  ⟨⟨bare_fetches _, by decide, bare_aligned _, by decide, by decide⟩, ⟨bare_fetches _, by decide, bare_aligned _, by decide⟩⟩

/-- A fetch, a load and a store out of bounds, each at the first address that is. -/
theorem witness_MemoryFaultCausesByAccess :
    ((start 0x000FFFFD#32 [] []).run = .running ∧
      (start 0x000FFFFD#32 [] []).memSize < (start 0x000FFFFD#32 [] []).pc.toNat + 4) ∧
    (let s := placed 0#32 [(1, 0x000FFFFD#32)] [] 0x0000A183#32
     s.Fetches 0x0000A183#32 ∧ decodeWord 0x0000A183#32 = .ok (.lw 3 1 0#12) ∧
      (Instr.lw 3 1 0#12).loadAccess s = some (0x000FFFFD#32, .word) ∧ s.memSize < 0x000FFFFD + 4) ∧
    (let s := placed 0#32 [(1, 0x000FFFFF#32)] [] 0x00209023#32
     s.Fetches 0x00209023#32 ∧ decodeWord 0x00209023#32 = .ok (.sh 1 2 0#12) ∧
      (Instr.sh 1 2 0#12).storeAccess s = some (0x000FFFFF#32, .half) ∧ s.memSize < 0x000FFFFF + 2) :=
  ⟨⟨by decide, by decide⟩, ⟨placed_fetches (by decide) (by decide), by decide, by decide, by decide⟩,
    ⟨placed_fetches (by decide) (by decide), by decide, by decide, by decide⟩⟩

/-- The five stages: the fetch, load and store of `witness_MemoryFaultCausesByAccess`, the two decode reasons, and a jump. -/
theorem witness_FirstFaultInStageOrder :
    ((bare 0xFFFFFFFF#32).Fetches 0xFFFFFFFF#32 ∧ decodeWord 0xFFFFFFFF#32 = .error .unknownOpcode) ∧
    ((bare 0x0000B183#32).Fetches 0x0000B183#32 ∧ decodeWord 0x0000B183#32 = .error .undefinedSlot) ∧
    ((bare 0x002000EF#32).Fetches 0x002000EF#32 ∧ decodeWord 0x002000EF#32 = .ok (.jal 1 2#21) ∧
      (Instr.jal 1 2#21).jumpTarget (bare 0x002000EF#32) = some 0x102#32 ∧ ¬ aligned 0x102#32) :=
  ⟨⟨bare_fetches _, by decide⟩, ⟨bare_fetches _, by decide⟩, ⟨bare_fetches _, by decide, by decide, by decide⟩⟩

/-- A fault of each kind is raised (for `FaultIsTerminal` and `StateAFaultLeaves`). -/
theorem witness_FaultIsTerminal :
    (∃ f left, step (bare 0#32) = .fault (.raised f left)) ∧
    (∃ f left, step (start 0x00100000#32 [] []) = .fault (.raised f left)) ∧
    (∃ f left, step (bare 0xFFF08183#32) = .fault (.raised f left)) := ⟨⟨_, _, rfl⟩, ⟨_, _, rfl⟩, ⟨_, _, rfl⟩⟩

/-- The alignment clause's own hypotheses: a JAL that links. -/
theorem witness_StateAFaultLeaves :
    (∃ left, step (bare 0x002000EF#32) = .fault (.raised (.alignment 0x100#32 0x102#32) left)) ∧
    (bare 0x002000EF#32).Fetches 0x002000EF#32 ∧ decodeWord 0x002000EF#32 = .ok (.jal 1 2#21) ∧
    (Instr.jal 1 2#21).jumpTarget (bare 0x002000EF#32) = some 0x102#32 ∧ (Instr.jal 1 2#21).dest = some 1 :=
  ⟨⟨_, rfl⟩, bare_fetches _, by decide, by decide, rfl⟩

theorem witness_NoStepFromATerminalState :
    (bare 0#32).enterHalted.run ≠ .running ∧ ((bare 0#32).enterFaulted (.alignment 0#32 2#32)).run ≠ .running := by decide

theorem witness_StepKeepsTheInvariant :
    (bare 0x0000006F#32).Inv ∧ ∃ t, step (bare 0x0000006F#32) = .next t := ⟨witness_invariant, ⟨_, rfl⟩⟩

theorem witness_StepKeepsTheCapacity : ∃ t, step (bare 0x00500013#32) = .next t := ⟨_, rfl⟩

/-- A step that halts (for `ResultSinkFormat` too), and one that does not. -/
theorem witness_OnlyTheExitEcallHalts :
    (∃ t, step (placed 0x100#32 [(10, 10#32)] [] 0x00000073#32) = .next t ∧ t.run = .halted) ∧
    (∃ t, step (bare 0x00000073#32) = .next t ∧ t.run ≠ .halted) := ⟨⟨_, rfl, by decide⟩, ⟨_, rfl, by decide⟩⟩

theorem witness_ResultSinkFormat :
    ∃ t, step (placed 0x100#32 [(17, 10#32), (31, 0x12345678#32)] [] 0x00000073#32) = .next t ∧ t.run = .halted :=
  ⟨_, rfl, by decide⟩

/-- `sw x2, 0(x1)` at the last place from which it can write the next word. -/
theorem witness_StoreIntoTheNextInstruction :
    let s := placed 0x000FFFF8#32 [(1, 0x000FFFFC#32), (2, 0x00500013#32)] [] 0x0020A023#32
    s.Fetches 0x0020A023#32 ∧ decodeWord 0x0020A023#32 = .ok (.sw 1 2 0#12) ∧ aligned s.pc ∧ Memory.wf s.mem ∧
      s.pc.toNat + 8 ≤ s.memSize ∧ s.pc.toNat + 8 ≤ 2 ^ 32 ∧ effAddr (s.readReg 1) 0#12 = s.pc + 4#32 :=
  ⟨placed_fetches (by decide) (by decide), by decide, by decide, by decide, by decide, by decide, by decide⟩

/-- `jal x0, 0`, and `beq x0, x0, 0`. -/
theorem witness_JumpToSelfNeverFinishes :
    ((bare 0x0000006F#32).Inv ∧ (bare 0x0000006F#32).Fetches 0x0000006F#32) ∧
    ((bare 0x00000063#32).Inv ∧ (bare 0x00000063#32).Fetches 0x00000063#32 ∧ decodeWord 0x00000063#32 = .ok (.beq 0 0 0#13) ∧
      (Instr.beq 0 0 0#13).jumpTarget (bare 0x00000063#32) = some (bare 0x00000063#32).pc ∧ (Instr.beq 0 0 0#13).dest = none) :=
  ⟨⟨witness_invariant, bare_fetches _⟩,
    ⟨⟨by decide, by decide, by decide, by decide, by decide, by decide, by decide, .inl ⟨by decide, by decide⟩⟩, bare_fetches _,
      by decide, by decide, rfl⟩⟩

theorem witness_OutcomeDoesNotDependOnTheBudget : ∃ o, runFor 1 (bare 0#32) = some o := ⟨_, rfl⟩

theorem witness_FaultedRunWritesNoSink :
    State.reset.Inv ∧ ∃ f left, step State.reset = .fault (.raised f left) :=
  ⟨⟨by decide, by decide, rfl, rfl, rfl, reset_mem_wf, by decide, .inl ⟨rfl, rfl⟩⟩, ⟨_, _, rfl⟩⟩

/-! ### Reset and the start of a run -/

/-- An image that fills memory. -/
theorem witness_BootGivesTheResetValues : [0x73#8, 0x00#8, 0x00#8, 0x00#8].length ≤ 4 := by decide

theorem witness_BootMeetsTheInvariant : ([] : List Byte).length ≤ 0 := by decide

theorem witness_EngineNeverStartsWithoutAnImage : 4 < [0x73#8, 0x00#8, 0x00#8, 0x00#8, 0x01#8].length := by decide

theorem witness_BootedImageRunsItsFirstInstruction :
    Instr.ecall.wellFormed = true ∧ 4 + ([] : List Byte).length ≤ 4 := by decide

theorem witness_EmptyImageFaultsAtOnce : ∃ s, boot 4 (.image []) = .ok s := ⟨_, rfl⟩

end Sys2Proof.Tests
end

section
/-! PROOFS. The state an engine is created in: what `boot` answers for an image that fits, piece by piece (10_state R33). -/

namespace Sys2Proof.Machine

/-- 70_reset R351, R352: an image that fits is loaded. -/
theorem boot_image_of_length_le {memSize : Nat} {bytes : List Byte} (h : bytes.length ≤ memSize) :
    boot memSize (.image bytes) = .ok (State.loaded memSize bytes) := by
  rw [boot, if_pos h]

@[simp] theorem State.loaded_pc (n : Nat) (bytes : List Byte) : (State.loaded n bytes).pc = 0#32 := rfl
@[simp] theorem State.loaded_run (n : Nat) (bytes : List Byte) : (State.loaded n bytes).run = .running := rfl
@[simp] theorem State.loaded_branched (n : Nat) (bytes : List Byte) : (State.loaded n bytes).branched = false := rfl
@[simp] theorem State.loaded_mem (n : Nat) (bytes : List Byte) :
    (State.loaded n bytes).mem = Memory.writeBytes State.reset.mem 0 bytes := rfl

@[simp] theorem State.reset_readReg (r : Reg) : State.reset.readReg r = 0#32 := by
  simp [State.readReg, State.reset]

/-- Loading an image leaves the registers as at reset. -/
@[simp] theorem State.loaded_readReg (n : Nat) (bytes : List Byte) (r : Reg) :
    (State.loaded n bytes).readReg r = 0#32 :=
  State.reset_readReg r

@[simp] theorem State.reset_byteAt (a : Nat) : State.reset.byteAt a = Config.unlistedByte := rfl

/-- Byte `a` of memory is byte `a` of the image, and the unlisted byte where the image has none. -/
theorem State.loaded_byteAt (n : Nat) (bytes : List Byte) (a : Nat) :
    (State.loaded n bytes).byteAt a = bytes.getD a Config.unlistedByte := by
  rw [State.byteAt, State.loaded_mem, Memory.readByte_writeBytes reset_mem_wf]
  split
  · rw [Nat.sub_zero]
  · next hout =>
    rw [List.getD_eq_default bytes _ (by omega)]
    exact State.reset_byteAt a

/-- Settles O55: an image that fits is loaded, and each piece of the loaded state is as 10_state R33 tabulates it. -/
theorem bootGivesTheResetValues : Obligations.BootGivesTheResetValues := by
  intro memSize bytes hfits
  refine ⟨State.loaded memSize bytes, boot_image_of_length_le hfits, State.loaded_readReg memSize bytes,
    State.loaded_pc .., State.loaded_run .., State.loaded_branched .., fun a hin => ?_, fun a hbeyond => ?_⟩
  · rw [State.loaded_byteAt, List.getD_eq_getElem bytes _ hin]
  · rw [State.loaded_byteAt, List.getD_eq_default bytes _ hbeyond, Config.unlistedByte]

end Sys2Proof.Machine
end

section
/-! PROOFS. Reading memory: the value of an in-bounds access, byte by byte and as a number (20_memory R54). -/

namespace Sys2Proof.Machine

/-- A read of `n` bytes is below `2^(8n)`: it is zero above its last byte (20_memory R54). -/
theorem Memory.readLE_toNat_lt (m : Memory) (a : Nat) (width : Width) :
    (Memory.readLE m a width).toNat < 2 ^ (8 * width.bytes) :=
  Nat.lt_pow_two_of_testBit _ fun j hj => Memory.readLE_high m a width j hj

/-- Settles O22: in bounds the answer is the little-endian read, whose bytes and upper bits `Memory.readLE_byte` and
`Memory.readLE_toNat_lt` give; past the capacity it is the access's own fault. -/
theorem memReadIsLittleEndianAndChecked : Obligations.MemReadIsLittleEndianAndChecked := by
  intro s access addr width
  constructor
  · intro hin
    exact ⟨Memory.readLE s.mem addr.toNat width, State.memRead_inBounds access hin,
      Memory.readLE_byte s.mem addr.toNat width, Memory.readLE_toNat_lt s.mem addr.toNat width⟩
  · intro hout
    exact State.memRead_outOfBounds access (Nat.not_le.mpr hout)

end Sys2Proof.Machine
end

section
/-! PROOFS. Unknown opcodes: the class table seen as numbers, and the decoder's answer outside it (30_encoding R91). -/

namespace Sys2Proof

theorem opcodeOf_toNat (w : Word) : (opcodeOf w).toNat = w.toNat % 128 := by
  rw [opcodeOf, BitVec.extractLsb'_toNat, Nat.shiftRight_zero]

/-- No class has an opcode exactly when its number is none of the ten of 30_encoding R90. -/
theorem clsOf_eq_none_iff (o : BitVec 7) :
    clsOf o = none ↔ o.toNat ∉ [0x33, 0x13, 0x03, 0x67, 0x73, 0x23, 0x63, 0x37, 0x17, 0x6F] := by
  simp [clsOf, ite_eq_iff, BitVec.toNat_eq]

theorem decodeWord_unknownOpcode_iff_notMem (w : Word) :
    decodeWord w = .error .unknownOpcode ↔
      w.toNat % 128 ∉ [0x33, 0x13, 0x03, 0x67, 0x73, 0x23, 0x63, 0x37, 0x17, 0x6F] := by
  rw [decodeWord_unknownOpcode_iff, clsOf_eq_none_iff, opcodeOf_toNat]

/-- Settles O5: the first clause is the class table read as numbers; it turns the count of the second into the count of the
numbers below 128 outside the ten. -/
theorem unknownOpcodeOutsideTheTen : Obligations.UnknownOpcodeOutsideTheTen := by
  refine ⟨decodeWord_unknownOpcode_iff_notMem, ?_⟩
  have hcount : (List.range 128).filter (fun n => decodeWord (BitVec.ofNat 32 n) == .error .unknownOpcode) =
      (List.range 128).filter (fun n => n ∉ [0x33, 0x13, 0x03, 0x67, 0x73, 0x23, 0x63, 0x37, 0x17, 0x6F]) := by
    refine List.filter_congr fun n hn => ?_
    have hlt : n < 128 := List.mem_range.mp hn
    have hmod : (BitVec.ofNat 32 n).toNat % 128 = n := by
      rw [BitVec.toNat_ofNat]
      omega
    rw [Bool.eq_iff_iff, beq_iff_eq, decodeWord_unknownOpcode_iff_notMem, hmod, decide_eq_true_iff]
  rw [hcount]
  rfl

end Sys2Proof
end

section
/-! PROOFS. The record the decoder gives: which fields each class populates, as numbers of the word (30_encoding R81, R90,
R92). -/

namespace Sys2Proof

/-- The decoder accepts a word exactly with the record of its opcode's class (30_encoding R90, R91). -/
theorem decoder_eq_ok_iff (w : Word) (r : Record) :
    decoder w = .ok r ↔ ∃ c, clsOf (opcodeOf w) = some c ∧ r = recordOf c w := by
  unfold decoder
  cases clsOf (opcodeOf w) with
  | none => simp
  | some c => simp [eq_comm]

/-! ## The register and function fields as numbers (30_encoding R81) -/

theorem rdOf_val (w : Word) : (rdOf w).val = w.toNat / 2 ^ 7 % 32 := by
  rw [← Nat.shiftRight_eq_div_pow]
  exact BitVec.extractLsb'_toNat 7 5 w

theorem rs1Of_val (w : Word) : (rs1Of w).val = w.toNat / 2 ^ 15 % 32 := by
  rw [← Nat.shiftRight_eq_div_pow]
  exact BitVec.extractLsb'_toNat 15 5 w

theorem rs2Of_val (w : Word) : (rs2Of w).val = w.toNat / 2 ^ 20 % 32 := by
  rw [← Nat.shiftRight_eq_div_pow]
  exact BitVec.extractLsb'_toNat 20 5 w

theorem funct3Of_toNat (w : Word) : (funct3Of w).toNat = w.toNat / 2 ^ 12 % 8 := by
  rw [← Nat.shiftRight_eq_div_pow]
  exact BitVec.extractLsb'_toNat 12 3 w

/-- `funct7` is the word's top field, so nothing lies above it to take away. -/
theorem funct7Of_toNat (w : Word) : (funct7Of w).toNat = w.toNat / 2 ^ 25 := by
  rw [funct7Of, BitVec.extractLsb'_toNat, Nat.shiftRight_eq_div_pow]
  omega

/-! ## Which class populates which field (30_encoding R90) -/

theorem Cls.hasRd_iff (c : Cls) : c.hasRd = true ↔ ¬ (c = .store ∨ c = .branch) := by
  cases c <;> decide

theorem Cls.hasRs1_iff (c : Cls) : c.hasRs1 = true ↔ ¬ (c = .lui ∨ c = .auipc ∨ c = .jal) := by
  cases c <;> decide

theorem Cls.hasRs2_iff (c : Cls) : c.hasRs2 = true ↔ c = .op ∨ c = .store ∨ c = .branch := by
  cases c <;> decide

theorem Cls.hasFunct3_iff (c : Cls) : c.hasFunct3 = true ↔ ¬ (c = .lui ∨ c = .auipc ∨ c = .jal) := by
  cases c <;> decide

theorem Cls.hasFunct7_iff (c : Cls) (funct3 : BitVec 3) :
    c.hasFunct7 funct3 = true ↔ c = .op ∨ c = .opImm ∧ (funct3.toNat = 1 ∨ funct3.toNat = 5) := by
  cases c <;> simp [Cls.hasFunct7, BitVec.toNat_eq]

/-! ## The fields of a record -/

theorem recordOf_rd_val (c : Cls) (w : Word) :
    (recordOf c w).rd.val = if c = .store ∨ c = .branch then 0 else w.toNat / 2 ^ 7 % 32 := by
  simp only [recordOf, Cls.hasRd_iff, ite_not, apply_ite Fin.val, rdOf_val, Fin.val_zero]

theorem recordOf_rs1_val (c : Cls) (w : Word) :
    (recordOf c w).rs1.val = if c = .lui ∨ c = .auipc ∨ c = .jal then 0 else w.toNat / 2 ^ 15 % 32 := by
  simp only [recordOf, Cls.hasRs1_iff, ite_not, apply_ite Fin.val, rs1Of_val, Fin.val_zero]

theorem recordOf_rs2_val (c : Cls) (w : Word) :
    (recordOf c w).rs2.val = if c = .op ∨ c = .store ∨ c = .branch then w.toNat / 2 ^ 20 % 32 else 0 := by
  simp only [recordOf, Cls.hasRs2_iff, apply_ite Fin.val, rs2Of_val, Fin.val_zero]

theorem recordOf_funct3_toNat (c : Cls) (w : Word) :
    (recordOf c w).funct3.toNat = if c = .lui ∨ c = .auipc ∨ c = .jal then 0 else w.toNat / 2 ^ 12 % 8 := by
  simp only [recordOf, Cls.hasFunct3_iff, ite_not, apply_ite BitVec.toNat, funct3Of_toNat, BitVec.toNat_zero]

theorem recordOf_funct7_toNat (c : Cls) (w : Word) :
    (recordOf c w).funct7.toNat =
      if c = .op ∨ c = .opImm ∧ (w.toNat / 2 ^ 12 % 8 = 1 ∨ w.toNat / 2 ^ 12 % 8 = 5) then w.toNat / 2 ^ 25 else 0 := by
  simp only [recordOf, Cls.hasFunct7_iff, funct3Of_toNat, apply_ite BitVec.toNat, funct7Of_toNat, BitVec.toNat_zero]

/-- The variant index is bit 5 of the record's own `funct7`, populated or not (30_encoding R100). -/
theorem recordOf_variant (c : Cls) (w : Word) : (recordOf c w).variant = (recordOf c w).funct7.getLsbD 5 := by
  simp only [recordOf, variantOf_eq]
  cases c.hasFunct7 (funct3Of w) <;> simp

/-- Settles O8: the record is `recordOf` of its opcode's class, whose fields the lemmas above give one by one. -/
theorem recordHoldsItsClassFields : Obligations.RecordHoldsItsClassFields := by
  intro w r hr
  obtain ⟨c, hc, rfl⟩ := (decoder_eq_ok_iff w r).mp hr
  exact ⟨rfl, hc, recordOf_rd_val c w, recordOf_rs1_val c w, recordOf_rs2_val c w, recordOf_funct3_toNat c w,
    recordOf_funct7_toNat c w, recordOf_variant c w, rfl⟩

end Sys2Proof
end

section
/-! PROOFS. The immediates, bit by bit and as numbers (30_encoding R93 to R98). -/

namespace Sys2Proof

/-! ## Sign extension -/

/-- Bit `j` of a sign-extended value is the value's bit `j`, or its top bit where it has no bit `j`. -/
theorem getLsbD_sext {n : Nat} (v : BitVec n) {j : Nat} (hj : j < 32) :
    (sext v).getLsbD j = v.getLsbD (min j (n - 1)) := by
  rw [sext, BitVec.getLsbD_signExtend, decide_eq_true hj, Bool.true_and]
  split
  · next h => rw [Nat.min_eq_left (by omega)]
  · next h => rw [Nat.min_eq_right (by omega), BitVec.msb_eq_getLsbD_last]

theorem sext_toInt {n : Nat} (v : BitVec n) (hn : n ≤ 32) : (sext v).toInt = v.toInt :=
  BitVec.toInt_signExtend_of_le hn

/-! ## The bits of each immediate -/

theorem immI_getLsbD (w : Word) {j : Nat} (hj : j < 32) :
    (immI w).getLsbD j = if j < 12 then w.getLsbD (20 + j) else w.getLsbD 31 := by
  rw [immI, getLsbD_sext _ hj, BitVec.getLsbD_extractLsb']
  rcases show j < 12 ∨ 12 ≤ j by omega with h | h
  · simp [h, show min j 11 = j by omega]
  · simp [show min j 11 = 11 by omega, show ¬ j < 12 by omega]

theorem immS_getLsbD (w : Word) {j : Nat} (hj : j < 32) :
    (immS w).getLsbD j =
      if j < 5 then w.getLsbD (7 + j) else if j < 12 then w.getLsbD (20 + j) else w.getLsbD 31 := by
  rw [immS, getLsbD_sext _ hj, BitVec.getLsbD_append]
  rcases show j < 5 ∨ (5 ≤ j ∧ j < 12) ∨ 12 ≤ j by omega with h | h | h
  · simp [h, show min j 11 = j by omega]
  · simp [h, show min j 11 = j by omega, show ¬ j < 5 by omega, show j - 5 < 7 by omega, show 25 + (j - 5) = 20 + j by omega]
  · simp [show min j 11 = 11 by omega, show ¬ j < 5 by omega, show ¬ j < 12 by omega]

theorem immB_getLsbD (w : Word) {j : Nat} (hj : j < 32) :
    (immB w).getLsbD j =
      if j = 0 then false else if j < 5 then w.getLsbD (7 + j) else if j < 11 then w.getLsbD (20 + j)
      else if j = 11 then w.getLsbD 7 else w.getLsbD 31 := by
  rw [immB, getLsbD_sext _ hj]
  simp only [BitVec.getLsbD_append]
  rcases show j = 0 ∨ (1 ≤ j ∧ j < 5) ∨ (5 ≤ j ∧ j < 11) ∨ j = 11 ∨ 12 ≤ j by omega with rfl | h | h | rfl | h
  · simp
  · simp [h, show min j 12 = j by omega, show j ≠ 0 by omega, show j - 1 < 4 by omega, show 8 + (j - 1) = 7 + j by omega]
  · simp [h, show min j 12 = j by omega, show j ≠ 0 by omega, show ¬ j < 5 by omega, show ¬ j - 1 < 4 by omega,
      show j - 1 - 4 < 6 by omega, show 25 + (j - 1 - 4) = 20 + j by omega]
  · simp
  · simp [show min j 12 = 12 by omega, show j ≠ 0 by omega, show ¬ j < 5 by omega, show ¬ j < 11 by omega, show j ≠ 11 by omega]

theorem immU_getLsbD (w : Word) {j : Nat} (hj : j < 32) :
    (immU w).getLsbD j = if j < 20 then w.getLsbD (12 + j) else false := by
  rw [immU, zext, BitVec.getLsbD_setWidth, BitVec.getLsbD_extractLsb']
  split
  · next h => simp [h, hj]
  · next h => simp [h]

theorem immJ_getLsbD (w : Word) {j : Nat} (hj : j < 32) :
    (immJ w).getLsbD j =
      if j = 0 then false else if j < 11 then w.getLsbD (20 + j) else if j = 11 then w.getLsbD 20
      else if j < 20 then w.getLsbD j else w.getLsbD 31 := by
  rw [immJ, getLsbD_sext _ hj]
  simp only [BitVec.getLsbD_append]
  rcases show j = 0 ∨ (1 ≤ j ∧ j < 11) ∨ j = 11 ∨ (12 ≤ j ∧ j < 20) ∨ 20 ≤ j by omega with rfl | h | rfl | h | h
  · simp
  · simp [h, show min j 20 = j by omega, show j ≠ 0 by omega, show j - 1 < 10 by omega, show 21 + (j - 1) = 20 + j by omega]
  · simp
  · simp [h, show min j 20 = j by omega, show j ≠ 0 by omega, show ¬ j < 11 by omega, show j ≠ 11 by omega,
      show ¬ j - 1 < 10 by omega, show ¬ j - 1 - 10 < 1 by omega, show j - 1 - 10 - 1 < 8 by omega,
      show 12 + (j - 1 - 10 - 1) = j by omega]
  · simp [show min j 20 = 20 by omega, show j ≠ 0 by omega, show ¬ j < 11 by omega, show j ≠ 11 by omega,
      show ¬ j < 20 by omega]

/-! ## The range of each signed immediate -/

theorem sext12_bounds (v : BitVec 12) : -2048 ≤ (sext v).toInt ∧ (sext v).toInt ≤ 2047 := by
  rw [sext_toInt v (by decide)]
  exact ⟨v.le_toInt, Int.le_of_lt_add_one v.toInt_lt⟩

/-- A 0 bit below a value doubles it: the B- and J-immediates are even, in twice the range of their upper bits
(30_encoding R95, R97). -/
theorem sext_append_zeroBit_bounds {n : Nat} (v : BitVec (n + 1)) (hn : n + 2 ≤ 32) :
    -(2 * 2 ^ n) ≤ (sext (v ++ 0#1)).toInt ∧ (sext (v ++ 0#1)).toInt ≤ 2 * 2 ^ n - 2 ∧ (sext (v ++ 0#1)).toInt % 2 = 0 := by
  have hdouble : (sext (v ++ 0#1)).toInt = 2 * v.toInt := by
    rw [sext_toInt _ hn, BitVec.toInt_append]
    simp
  have hlo : -2 ^ n ≤ v.toInt := v.le_toInt
  have hhi : v.toInt < 2 ^ n := v.toInt_lt
  omega

theorem immB_bounds (w : Word) : -4096 ≤ (immB w).toInt ∧ (immB w).toInt ≤ 4094 ∧ (immB w).toInt % 2 = 0 :=
  sext_append_zeroBit_bounds (n := 11) _ (by decide)

theorem immJ_bounds (w : Word) : -1048576 ≤ (immJ w).toInt ∧ (immJ w).toInt ≤ 1048574 ∧ (immJ w).toInt % 2 = 0 :=
  sext_append_zeroBit_bounds (n := 19) _ (by decide)

/-- Settles O7: each immediate's bits and range by its own lemma; the record's immediate is the multiplexer's output for its
class's format. -/
theorem immediatesBitByBit : Obligations.ImmediatesBitByBit := by
  intro w
  refine ⟨fun j => immI_getLsbD w, sext12_bounds _, fun j => immS_getLsbD w, sext12_bounds _, fun j => immB_getLsbD w,
    immB_bounds w, fun j => immU_getLsbD w, fun j => immJ_getLsbD w, immJ_bounds w, fun r hr => ?_⟩
  obtain ⟨c, -, rfl⟩ := (decoder_eq_ok_iff w r).mp hr
  cases c <;> rfl

end Sys2Proof
end

section
/-! PROOFS. The advance stage over a whole step: where a step that retires leaves the pc (40_control_loop R146). -/

namespace Sys2Proof.Machine

/-- A step that answers a next state executed the instruction its fetch decodes to, then advanced and passed the halt stage. -/
theorem exec_of_step_next {s t : State} {w : Word} {i : Instr} (hf : s.Fetches w) (hd : decodeWord w = .ok i)
    (ht : step s = .next t) : ∃ u, exec i s.beginCycle = .next u ∧ t = u.advance.haltStage := by
  obtain ⟨w', i', u, hf', hd', he, -, htu⟩ := step_next_cases ht
  obtain rfl : w' = w := hf'.unique hf
  obtain rfl : i' = i := Except.ok.inj (hd'.symm.trans hd)
  exact ⟨u, he, htu⟩

/-- The word `pc + 4` as a number modulo 2^32 (00_scope R8). -/
theorem pc_add_four_eq_ofNat (pc : Word) : pc + 4#32 = BitVec.ofNat 32 (pc.toNat + 4) := by
  rw [BitVec.ofNat_add, BitVec.ofNat_toNat, BitVec.setWidth_eq]

/-- Settles O38: the step is the executed instruction's state advanced, and the halt stage keeps `branched` and the pc; the
advance stage clears the one and sets the other to `nextPc`, which `nextPc_of_exec` gives. -/
theorem newPcIsTargetOrPcPlusFour : Obligations.NewPcIsTargetOrPcPlusFour := by
  intro s t w i hf hd ht
  obtain ⟨u, he, rfl⟩ := exec_of_step_next hf hd ht
  rw [State.haltStage_branched, State.haltStage_pc, State.advance_pc, ← pc_add_four_eq_ofNat]
  exact ⟨State.advance_branched u, nextPc_of_exec he⟩

end Sys2Proof.Machine
end

section
/-! PROOFS. The register-register rows: the slot their mask selects, and their results as the numbers the rules state
(30_encoding R112, R122; 41_alu_reg R170 to R179). -/

namespace Sys2Proof

/-! ## The mask of the register-register rows keeps the fields that select the slot -/

theorem opcodeOf_and_opMask (w : Word) : opcodeOf (w &&& 0xFE00707F#32) = opcodeOf w := by
  rw [opcodeOf, BitVec.extractLsb'_and]
  exact and_ones7 _

theorem funct3Of_and_opMask (w : Word) : funct3Of (w &&& 0xFE00707F#32) = funct3Of w := by
  rw [funct3Of, BitVec.extractLsb'_and]
  exact and_ones3 _

theorem funct7Of_and_opMask (w : Word) : funct7Of (w &&& 0xFE00707F#32) = funct7Of w := by
  rw [funct7Of, BitVec.extractLsb'_and]
  exact and_ones7 _

/-- The slot of a word of class OP depends on its masked bits only (30_encoding R112). -/
theorem dispatchSlot_recordOf_op_and_opMask (w : Word) :
    dispatchSlot (recordOf .op (w &&& 0xFE00707F#32)) = dispatchSlot (recordOf .op w) := by
  change dispatchOp (funct3Of _) (funct7Of _) (variantOf _) = dispatchOp (funct3Of w) (funct7Of w) (variantOf w)
  rw [variantOf_eq, variantOf_eq, funct3Of_and_opMask, funct7Of_and_opMask]

/-- A word whose masked bits are `m` decodes to the instruction of `m`'s slot, with its own register fields. -/
theorem decodeWord_of_opRow {w m : Word} {op : Op} (hrow : w &&& 0xFE00707F#32 = m)
    (hcls : clsOf (opcodeOf m) = some .op) (hslot : dispatchSlot (recordOf .op m) = some op) :
    decodeWord w = .ok (instrOf op (recordOf .op w)) := by
  subst hrow
  rw [opcodeOf_and_opMask] at hcls
  rw [dispatchSlot_recordOf_op_and_opMask] at hslot
  exact decodeWord_of_slot hcls hslot

end Sys2Proof

namespace Sys2Proof.Machine

/-! ## The results as numbers (00_scope R8) -/

theorem add_eq_ofNat (a b : Word) : a + b = BitVec.ofNat 32 (a.toNat + b.toNat) := by
  simp [BitVec.ofNat_add]

theorem sub_eq_wordOfInt (a b : Word) : a - b = wordOfInt (a.toNat - b.toNat) := by
  symm
  rw [BitVec.eq_sub_iff_add_eq]
  calc wordOfInt (a.toNat - b.toNat) + b
    _ = wordOfInt (a.toNat - b.toNat) + wordOfInt b.toNat := by simp [wordOfInt]
    _ = wordOfInt (a.toNat - b.toNat + b.toNat) := (BitVec.ofInt_add _ _).symm
    _ = a := by simp [wordOfInt]

theorem shiftLeft_eq_ofNat (a : Word) (n : Nat) : shiftLeft a n = BitVec.ofNat 32 (a.toNat * 2 ^ n) := by
  rw [← Nat.shiftLeft_eq]
  rfl

theorem shiftRightLogical_eq_ofNat (a : Word) (n : Nat) :
    shiftRightLogical a n = BitVec.ofNat 32 (a.toNat / 2 ^ n) := by
  rw [← Nat.shiftRight_eq_div_pow, ← BitVec.toNat_ushiftRight, BitVec.ofNat_toNat, BitVec.setWidth_eq]
  rfl

theorem shiftRightArith_eq_wordOfInt (a : Word) (n : Nat) : shiftRightArith a n = wordOfInt (a.toInt / 2 ^ n) := by
  have hdiv : a.toInt >>> n = a.toInt / 2 ^ n := by simp [Int.shiftRight_eq_div_pow]
  rw [← hdiv]
  rfl

theorem boolToWord_ltSigned (a b : Word) :
    boolToWord (ltSigned a b) = if a.toInt < b.toInt then 1#32 else 0#32 := by
  simp [boolToWord]

theorem boolToWord_ltUnsigned (a b : Word) :
    boolToWord (ltUnsigned a b) = if a.toNat < b.toNat then 1#32 else 0#32 := by
  simp [boolToWord]

/-! ## The step -/

/-- A step whose execute stage answers `u` asking for no halt, with an aligned next pc, goes on there: the advance stage
clears the latches, and `exec` leaves the rest of the control state alone (40_control_loop R146 to R148). -/
theorem stepsTo_of_exec_next {s u : State} {w : Word} {i : Instr} {P : State → Prop} (hf : s.Fetches w)
    (hd : decodeWord w = .ok i) (he : exec i s.beginCycle = .next u) (ha : aligned u.nextPc) (hh : u.haltReq = false)
    (hP : P u.advance) : StepsTo s u.nextPc P := by
  obtain ⟨-, hrun, hsize, hsink, -⟩ := exec_next_keeps he
  have hstep : step s = .next u.advance := by
    have hhalt : u.advance.haltStage = u.advance := State.haltStage_of_no_request hh
    rw [step_of_decode hf hd, he, finish_next, retire_aligned ha, hhalt]
  exact ⟨u.advance, hstep, ⟨rfl, hrun.trans hf.running, hsize, hsink, rfl, rfl, hh⟩, hP⟩

/-- A register result over a whole step: it is the only change beside the pc, which goes on by 4 and so stays aligned. -/
theorem stepsTo_of_writeResult {s : State} {w : Word} {i : Instr} {rd : Reg} {v : Word} (hf : s.Fetches w)
    (ha : aligned s.pc) (hd : decodeWord w = .ok i) (he : exec i s.beginCycle = writeResult s.beginCycle rd v) :
    StepsTo s (s.pc + 4#32) (fun t => RegSet s t rd v ∧ BytesKept s t) := by
  have hpc : (s.beginCycle.writeReg rd v).nextPc = s.pc + 4#32 := by simp [State.nextPc]
  obtain ⟨hreg, hbytes, -, -⟩ := writeReg_frame s.beginCycle rd v
  rw [← hpc]
  exact stepsTo_of_exec_next hf hd he (hpc ▸ aligned_add_four ha) (by simp) ⟨hreg, hbytes⟩

/-- A step on a word of the row `m` of `op`, whose execute stage writes the row's result. -/
theorem stepsTo_of_opRow (op : Op) {s : State} {w m v v' : Word} (hf : s.Fetches w) (ha : aligned s.pc)
    (hrow : w &&& 0xFE00707F#32 = m) (hcls : clsOf (opcodeOf m) = some .op)
    (hslot : dispatchSlot (recordOf .op m) = some op)
    (he : exec (instrOf op (recordOf .op w)) s.beginCycle = writeResult s.beginCycle (rdOf w) v) (hv : v = v') :
    StepsTo s (s.pc + 4#32) (fun t => RegSet s t (rdOf w) v' ∧ BytesKept s t) :=
  hv ▸ stepsTo_of_writeResult hf ha (decodeWord_of_opRow hrow hcls hslot) he

/-- Settles O27: each row's mask and match select its slot, its execute stage is one register result, and the result is the
number the row's rule states. -/
theorem stepOnRegisterRegisterWords : Obligations.StepOnRegisterRegisterWords := by
  intro s w hf ha
  simp only [← shamtOfReg_eq]
  exact ⟨fun h => stepsTo_of_opRow .add hf ha h rfl rfl rfl (add_eq_ofNat _ _),
    fun h => stepsTo_of_opRow .sub hf ha h rfl rfl rfl (sub_eq_wordOfInt _ _),
    fun h => stepsTo_of_opRow .sll hf ha h rfl rfl rfl (shiftLeft_eq_ofNat _ _),
    fun h => stepsTo_of_opRow .slt hf ha h rfl rfl rfl (boolToWord_ltSigned _ _),
    fun h => stepsTo_of_opRow .sltu hf ha h rfl rfl rfl (boolToWord_ltUnsigned _ _),
    fun h => stepsTo_of_opRow .xor hf ha h rfl rfl rfl rfl,
    fun h => stepsTo_of_opRow .srl hf ha h rfl rfl rfl (shiftRightLogical_eq_ofNat _ _),
    fun h => stepsTo_of_opRow .sra hf ha h rfl rfl rfl (shiftRightArith_eq_wordOfInt _ _),
    fun h => stepsTo_of_opRow .or hf ha h rfl rfl rfl rfl,
    fun h => stepsTo_of_opRow .and hf ha h rfl rfl rfl rfl⟩

end Sys2Proof.Machine
end

section
/-! PROOFS. The register-immediate rows: the slot a word's masked bits select, the undefined shift slots, and the results as
the numbers the rules state (30_encoding R101, R113, R122; 42_alu_imm R190 to R198). -/

namespace Sys2Proof

/-! ## What the masks of the rows keep -/

/-- The mask of the rows without `funct7` keeps the opcode and `funct3`, whatever the word's format. -/
theorem and_rowMask_eq_encI (w : Word) :
    w &&& 0x0000707F#32 = encI (opcodeOf w) (funct3Of w) 0 0 0#12 := by
  conv_lhs => rw [← encI_fields w]
  exact encI_and_mask ..

theorem opcodeOf_of_row {w m : Word} (hrow : w &&& 0x0000707F#32 = m) : opcodeOf w = opcodeOf m := by
  rw [← hrow, and_rowMask_eq_encI, opcodeOf_encI]

theorem funct3Of_of_row {w m : Word} (hrow : w &&& 0x0000707F#32 = m) : funct3Of w = funct3Of m := by
  rw [← hrow, and_rowMask_eq_encI, funct3Of_encI]

/-- The mask of the immediate shifts keeps `instr[31:26]` too (30_encoding R101). -/
theorem and_shiftMask_eq_encShift {w : Word} (hop : opcodeOf w = 0x13#7) :
    w &&& 0xFC00707F#32 = encShift ((funct7Of w).extractLsb' 1 6) (funct3Of w) 0 0 0#6 := by
  conv_lhs => rw [← encShift_fields w hop]
  exact encShift_and_mask ..

/-- A shift's row lies in the row of its opcode and `funct3`. -/
theorem row_of_shiftRow {w m : Word} (hrow : w &&& 0xFC00707F#32 = m) :
    w &&& 0x0000707F#32 = m &&& 0x0000707F#32 := by
  rw [← hrow, BitVec.and_assoc]
  rfl

/-! ## The slots of the class OP_IMM (30_encoding R113) -/

/-- Only a shift slot reads `funct7`: where the record does not populate it, the table does not look. -/
theorem dispatchOpImm_of_not_hasFunct7 {funct3 : BitVec 3} (h : Cls.opImm.hasFunct7 funct3 = false) (f f' : BitVec 7) :
    dispatchOpImm funct3 f = dispatchOpImm funct3 f' := by
  obtain ⟨h1, h5⟩ : funct3 ≠ 1#3 ∧ funct3 ≠ 5#3 := by simpa [Cls.hasFunct7] using h
  unfold dispatchOpImm
  split
  case h_2 heq => exact absurd (BitVec.eq_of_toNat_eq heq) h1
  case h_6 heq => exact absurd (BitVec.eq_of_toNat_eq heq) h5
  all_goals rfl

/-- The slots read no more of `funct7` than its upper six bits (30_encoding R101). -/
theorem dispatchOpImm_of_funct6_eq (funct3 : BitVec 3) {f f' : BitVec 7} (h : f.extractLsb' 1 6 = f'.extractLsb' 1 6) :
    dispatchOpImm funct3 f = dispatchOpImm funct3 f' := by
  simp only [dispatchOpImm, h]

/-- The slot of a word of class OP_IMM, read off the word's own fields. -/
theorem dispatchSlot_recordOf_opImm (w : Word) :
    dispatchSlot (recordOf .opImm w) = dispatchOpImm (funct3Of w) (funct7Of w) := by
  change dispatchOpImm (funct3Of w) (if Cls.opImm.hasFunct7 (funct3Of w) then funct7Of w else 0#7) = _
  split
  · rfl
  · next h => exact dispatchOpImm_of_not_hasFunct7 (by simpa using h) _ _

theorem decodeWord_of_opImmSlot {w : Word} {op : Op} (hop : opcodeOf w = 0x13#7)
    (hslot : dispatchOpImm (funct3Of w) (funct7Of w) = some op) : decodeWord w = .ok (instrOf op (recordOf .opImm w)) :=
  decodeWord_of_slot (by rw [hop]; rfl) (by rw [dispatchSlot_recordOf_opImm, hslot])

theorem decodeWord_of_opImmSlot_none {w : Word} (hop : opcodeOf w = 0x13#7)
    (hslot : dispatchOpImm (funct3Of w) (funct7Of w) = none) : decodeWord w = .error .undefinedSlot :=
  (decodeWord_undefinedSlot_iff w).mpr ⟨.opImm, by rw [hop]; rfl, by rw [dispatchSlot_recordOf_opImm, hslot]⟩

/-- A word of a row without `funct7` decodes to the row's instruction, whatever its upper bits are. -/
theorem decodeWord_of_opImmRow (op : Op) {w m : Word} (hrow : w &&& 0x0000707F#32 = m) (hop : opcodeOf m = 0x13#7)
    (hslot : ∀ f, dispatchOpImm (funct3Of m) f = some op) : decodeWord w = .ok (instrOf op (recordOf .opImm w)) :=
  decodeWord_of_opImmSlot ((opcodeOf_of_row hrow).trans hop) (by rw [funct3Of_of_row hrow, hslot])

/-- A word of a shift's row decodes to the row's instruction, whatever bit 25 is. -/
theorem decodeWord_of_shiftRow (op : Op) {w m : Word} (hrow : w &&& 0xFC00707F#32 = m)
    (hop : opcodeOf (m &&& 0x0000707F#32) = 0x13#7)
    (hslot : dispatchOpImm (funct3Of m) (funct7Of m) = some op) : decodeWord w = .ok (instrOf op (recordOf .opImm w)) := by
  have hopw : opcodeOf w = 0x13#7 := (opcodeOf_of_row (row_of_shiftRow hrow)).trans hop
  rw [← hrow, and_shiftMask_eq_encShift hopw, funct3Of_encShift,
    dispatchOpImm_of_funct6_eq _ (funct6_encShift ..)] at hslot
  exact decodeWord_of_opImmSlot hopw hslot

/-- With `funct3` 001 the one slot has `instr[31:26]` 0. -/
theorem dispatchOpImm_one_eq_none {f : BitVec 7} (h : f.extractLsb' 1 6 ≠ 0b000000#6) :
    dispatchOpImm 0b001#3 f = none :=
  if_neg h

/-- With `funct3` 101 the two slots have `instr[31:26]` 0 and 16. -/
theorem dispatchOpImm_five_eq_none {f : BitVec 7} (h : f.extractLsb' 1 6 ≠ 0b000000#6)
    (h' : f.extractLsb' 1 6 ≠ 0b010000#6) : dispatchOpImm 0b101#3 f = none :=
  (if_neg h).trans (if_neg h')

theorem decodeWord_of_undefined_leftShift {w : Word} (hrow : w &&& 0x0000707F#32 = 0x00001013#32)
    (hshift : w &&& 0xFC00707F#32 ≠ 0x00001013#32) : decodeWord w = .error .undefinedSlot := by
  have hop : opcodeOf w = 0x13#7 := opcodeOf_of_row hrow
  have hf3 : funct3Of w = 0b001#3 := funct3Of_of_row hrow
  rw [and_shiftMask_eq_encShift hop, hf3] at hshift
  refine decodeWord_of_opImmSlot_none hop ?_
  rw [hf3]
  exact dispatchOpImm_one_eq_none fun h => hshift (by rw [h]; rfl)

theorem decodeWord_of_undefined_rightShift {w : Word} (hrow : w &&& 0x0000707F#32 = 0x00005013#32)
    (hlogical : w &&& 0xFC00707F#32 ≠ 0x00005013#32) (harith : w &&& 0xFC00707F#32 ≠ 0x40005013#32) :
    decodeWord w = .error .undefinedSlot := by
  have hop : opcodeOf w = 0x13#7 := opcodeOf_of_row hrow
  have hf3 : funct3Of w = 0b101#3 := funct3Of_of_row hrow
  rw [and_shiftMask_eq_encShift hop, hf3] at hlogical harith
  refine decodeWord_of_opImmSlot_none hop ?_
  rw [hf3]
  exact dispatchOpImm_five_eq_none (fun h => hlogical (by rw [h]; rfl)) (fun h => harith (by rw [h]; rfl))

end Sys2Proof

namespace Sys2Proof.Machine

/-! ## The immediate operand as a number (30_encoding R93, R99) -/

theorem immI_setWidth_twelve (w : Word) : (immI w).setWidth 12 = w.extractLsb' 20 12 :=
  setWidth_sext _ (by decide)

theorem sext_immI_field (w : Word) : sext ((immI w).setWidth 12) = wordOfInt (immINum w) := by
  rw [immI_setWidth_twelve, sext_eq_ofInt]
  rfl

theorem boolToWord_ltSigned_immI (a w : Word) :
    boolToWord (ltSigned a (sext ((immI w).setWidth 12))) = if a.toInt < immINum w then 1#32 else 0#32 := by
  rw [boolToWord_ltSigned, immI_setWidth_twelve, sext_toInt _ (by decide), immINum]

/-- The shift amount of a word is `instr[24:20]` (30_encoding R99). -/
theorem shamtOfAmount_immI (w : Word) : shamtOfAmount ((immI w).setWidth 6) = w.toNat / 2 ^ 20 % 32 := by
  have hfield : (immI w).setWidth 6 = (w.extractLsb' 20 12).setWidth 6 := by
    rw [← immI_setWidth_twelve, BitVec.setWidth_setWidth_of_le _ (by decide)]
  rw [hfield, shamtOfAmount_eq, BitVec.toNat_setWidth, BitVec.extractLsb'_toNat, Nat.shiftRight_eq_div_pow]
  omega

theorem add_wordOfInt (a : Word) (k : Int) : a + wordOfInt k = wordOfInt (a.toNat + k) := by
  simp [wordOfInt, BitVec.ofInt_add]

/-! ## The step -/

/-- A step on a word of no instruction ends the run with that decode fault (60_exceptions R312). -/
theorem stepFaults_of_illegal {s : State} {w : Word} {reason : DecodeReason} (hf : s.Fetches w)
    (hd : decodeWord w = .error reason) : StepFaults s (.decode reason s.pc w) :=
  ⟨_, step_of_illegal hf hd, rfl, rfl⟩

/-- A step on a word of OP_IMM's operation `op`, whose execute stage writes the value `v`, given as the number `v'`. -/
theorem stepsTo_of_opImm {op : Op} {s : State} {w v v' : Word} (hf : s.Fetches w) (ha : aligned s.pc)
    (hd : decodeWord w = .ok (instrOf op (recordOf .opImm w)))
    (he : exec (instrOf op (recordOf .opImm w)) s.beginCycle = writeResult s.beginCycle (rdOf w) v) (hv : v = v') :
    StepsTo s (s.pc + 4#32) (fun t => RegSet s t (rdOf w) v' ∧ BytesKept s t) :=
  hv ▸ stepsTo_of_writeResult hf ha hd he

/-- Settles O28: each row's mask and match select its slot, its execute stage is one register result of x[rs1] and the
immediate, and the result is the number the row's rule states; a shift's word outside its rows has no slot. -/
theorem stepOnRegisterImmediateWords : Obligations.StepOnRegisterImmediateWords := by
  intro s w hf ha
  simp only [← shamtOfAmount_immI, ← add_wordOfInt, ← sext_immI_field]
  exact ⟨fun h => stepsTo_of_opImm hf ha (decodeWord_of_opImmRow .addi h rfl fun _ => rfl) rfl rfl,
    fun h => stepsTo_of_opImm hf ha (decodeWord_of_opImmRow .slti h rfl fun _ => rfl) rfl (boolToWord_ltSigned_immI _ _),
    fun h => stepsTo_of_opImm hf ha (decodeWord_of_opImmRow .xori h rfl fun _ => rfl) rfl rfl,
    fun h => stepsTo_of_opImm hf ha (decodeWord_of_opImmRow .ori h rfl fun _ => rfl) rfl rfl,
    fun h => stepsTo_of_opImm hf ha (decodeWord_of_opImmRow .andi h rfl fun _ => rfl) rfl rfl,
    fun h => stepsTo_of_opImm hf ha (decodeWord_of_shiftRow .slli h rfl rfl) rfl (shiftLeft_eq_ofNat _ _),
    fun h => stepsTo_of_opImm hf ha (decodeWord_of_shiftRow .srli h rfl rfl) rfl (shiftRightLogical_eq_ofNat _ _),
    fun h => stepsTo_of_opImm hf ha (decodeWord_of_shiftRow .srai h rfl rfl) rfl (shiftRightArith_eq_wordOfInt _ _),
    fun h hshift => stepFaults_of_illegal hf (decodeWord_of_undefined_leftShift h hshift),
    fun h hlogical harith => stepFaults_of_illegal hf (decodeWord_of_undefined_rightShift h hlogical harith)⟩

end Sys2Proof.Machine
end

section
/-! PROOFS. The load rows: the slot their mask selects, the value read as the number the rules state, and the step in and
out of bounds (30_encoding R114; 20_memory R51 to R54; 43_loads R210 to R215). -/

namespace Sys2Proof

/-- A word of a load's row decodes to the row's instruction: the LOAD table reads `funct3` alone (30_encoding R114). -/
theorem decodeWord_of_loadRow (op : Op) {w m : Word} (hrow : w &&& 0x0000707F#32 = m) (hop : opcodeOf m = 0x03#7)
    (hslot : dispatchLoad (funct3Of m) = some op) : decodeWord w = .ok (instrOf op (recordOf .load w)) := by
  rw [← funct3Of_of_row hrow] at hslot
  exact decodeWord_of_slot (by rw [opcodeOf_of_row hrow, hop]; rfl) hslot

end Sys2Proof

namespace Sys2Proof.Machine

/-! ## The value read, as a number (20_memory R51; 00_scope R9) -/

/-- A byte put below a value is its least significant one. -/
theorem toNat_append_byte {n : Nat} (v : BitVec n) (b : Byte) : (v ++ b).toNat = b.toNat + 256 * v.toNat := by
  rw [BitVec.toNat_append, ← Nat.shiftLeft_add_eq_or_of_lt b.isLt, Nat.shiftLeft_eq]
  omega

theorem State.halfAt_eq_toNat (s : State) (a : Nat) : s.halfAt a = (s.byteAt (a + 1) ++ s.byteAt a).toNat :=
  (toNat_append_byte _ _).symm

theorem State.wordAt_eq_toNat (s : State) (a : Nat) : s.wordAt a = (Memory.readLE s.mem a .word).toNat := by
  change _ = (s.byteAt (a + 2 + 1) ++ s.byteAt (a + 2) ++ s.byteAt (a + 1) ++ s.byteAt a).toNat
  simp only [toNat_append_byte, State.wordAt, State.halfAt]
  omega

theorem wordOfInt_toNat (v : Word) : wordOfInt v.toNat = v := by
  simp [wordOfInt]

theorem zext_eq_wordOfInt {n : Nat} (v : BitVec n) : zext v = wordOfInt v.toNat := by
  simp [wordOfInt, zext]

/-- A signed value of `n + 1` bits, as the rules word it: the number itself below `2^n`, less `2^(n+1)` from there on. -/
theorem sext_eq_wordOfInt {n : Nat} (v : BitVec (n + 1)) :
    sext v = wordOfInt (if v.toNat < 2 ^ n then v.toNat else v.toNat - (2 ^ (n + 1) : Nat)) := by
  have hpow : 2 ^ (n + 1) = 2 * 2 ^ n := by omega
  have hhalf : 2 * v.toNat < 2 ^ (n + 1) ↔ v.toNat < 2 ^ n := by omega
  rw [sext_eq_ofInt, BitVec.toInt_eq_toNat_cond, wordOfInt]
  simp only [hhalf]

theorem sextByte_readLE (s : State) (a : Nat) :
    sextByte (Memory.readLE s.mem a .byte) =
      wordOfInt (if (s.byteAt a).toNat < 128 then (s.byteAt a).toNat else (s.byteAt a).toNat - 256) := by
  rw [sextByte, Memory.readLE, setWidth_zext _ (by decide)]
  exact sext_eq_wordOfInt (n := 7) _

theorem sextHalf_readLE (s : State) (a : Nat) :
    sextHalf (Memory.readLE s.mem a .half) =
      wordOfInt (if s.halfAt a < 32768 then s.halfAt a else s.halfAt a - 65536) := by
  rw [sextHalf, Memory.readLE, setWidth_zext _ (by decide), State.halfAt_eq_toNat]
  exact sext_eq_wordOfInt (n := 15) _

theorem zextByte_readLE (s : State) (a : Nat) :
    zextByte (Memory.readLE s.mem a .byte) = wordOfInt (s.byteAt a).toNat := by
  rw [zextByte, Memory.readLE, setWidth_zext _ (by decide)]
  exact zext_eq_wordOfInt _

theorem zextHalf_readLE (s : State) (a : Nat) :
    zextHalf (Memory.readLE s.mem a .half) = wordOfInt (s.halfAt a) := by
  rw [zextHalf, Memory.readLE, setWidth_zext _ (by decide), State.halfAt_eq_toNat]
  exact zext_eq_wordOfInt _

theorem readLE_word_eq_wordOfInt (s : State) (a : Nat) :
    Memory.readLE s.mem a .word = wordOfInt (s.wordAt a) := by
  rw [State.wordAt_eq_toNat, wordOfInt_toNat]

/-! ## The step -/

/-- The effective address of a word's base and I-immediate, as a number modulo 2^32 (20_memory R52). -/
theorem effAddr_immI (base w : Word) :
    effAddr base ((immI w).setWidth 12) = wordOfInt (base.toNat + immINum w) := by
  rw [effAddr, sext_immI_field, add_wordOfInt]

/-- A step that raises from the state its cycle began in ends the run with that fault, registers and memory as before. -/
theorem stepFaults_of_raise_beginCycle {s : State} {record : FaultRecord} (h : step s = raise record s.beginCycle) :
    StepFaults s record ∧
      ∀ f left, step s = .fault (.raised f left) → left.regs = s.regs ∧ left.mem = s.mem := by
  refine ⟨⟨_, h, rfl, rfl⟩, fun f left hleft => ?_⟩
  cases h.symm.trans hleft
  exact ⟨rfl, rfl⟩

/-- A load of `n` bytes at `addr` into `rd` (43_loads R210): in bounds it sets `rd` to the value and goes on, out of bounds it
faults with registers and memory as before. -/
def LoadSteps (s : State) (addr : Word) (rd : Reg) (n : Nat) (v : Int) : Prop :=
  (addr.toNat + n ≤ s.memSize →
    StepsTo s (s.pc + 4#32) (fun t => RegSet s t rd (wordOfInt v) ∧ BytesKept s t)) ∧
  (s.memSize < addr.toNat + n → StepFaults s (.memory .load s.pc addr) ∧
    ∀ f left, step s = .fault (.raised f left) → left.regs = s.regs ∧ left.mem = s.mem)

/-- A step whose execute stage is a load: `loadTo` writes the extended value in bounds, and raises out of bounds. -/
theorem loadSteps_of_loadTo (width : Width) (extend : Word → Word) {s : State} {w addr : Word} {i : Instr} {rd rs1 : Reg}
    {imm : BitVec 12} {v : Int} (hf : s.Fetches w) (ha : aligned s.pc) (hd : decodeWord w = .ok i)
    (he : exec i s.beginCycle = loadTo s.beginCycle rd rs1 imm width extend)
    (haddr : effAddr (s.readReg rs1) imm = addr)
    (hv : extend (Memory.readLE s.mem addr.toNat width) = wordOfInt v) :
    LoadSteps s addr rd width.bytes v := by
  subst haddr
  rcases loadTo_cases s.beginCycle rd rs1 imm width extend with ⟨hin, hload⟩ | ⟨hout, hload⟩
  · refine ⟨fun _ => ?_, fun hover => absurd hin (Nat.not_le.mpr hover)⟩
    rw [← hv]
    exact stepsTo_of_writeResult hf ha hd (he.trans hload)
  · refine ⟨fun hin => absurd hin hout, fun _ => stepFaults_of_raise_beginCycle ?_⟩
    rw [step_of_decode hf hd, he, hload]
    rfl

/-- Settles O30: each row's mask and match select its slot, its execute stage is one `loadTo`, and the extended value read is
the number the row's rule states. -/
theorem stepOnLoadWords : Obligations.StepOnLoadWords := by
  intro s w hf ha
  have haddr := effAddr_immI (s.readReg (rs1Of w)) w
  exact ⟨fun h => loadSteps_of_loadTo .byte sextByte hf ha (decodeWord_of_loadRow .lb h rfl rfl) rfl haddr (sextByte_readLE _ _),
    fun h => loadSteps_of_loadTo .half sextHalf hf ha (decodeWord_of_loadRow .lh h rfl rfl) rfl haddr (sextHalf_readLE _ _),
    fun h => loadSteps_of_loadTo .word id hf ha (decodeWord_of_loadRow .lw h rfl rfl) rfl haddr (readLE_word_eq_wordOfInt _ _),
    fun h => loadSteps_of_loadTo .byte zextByte hf ha (decodeWord_of_loadRow .lbu h rfl rfl) rfl haddr (zextByte_readLE _ _),
    fun h => loadSteps_of_loadTo .half zextHalf hf ha (decodeWord_of_loadRow .lhu h rfl rfl) rfl haddr (zextHalf_readLE _ _)⟩

end Sys2Proof.Machine
end

section
/-! PROOFS. The store rows: the slot their mask selects, the address as the number the rules state, and the step in and out
of bounds (30_encoding R94, R115; 20_memory R55; 44_stores R230 to R233). -/

namespace Sys2Proof

/-- A word of a store's row decodes to the row's instruction: the STORE table reads `funct3` alone (30_encoding R115). -/
theorem decodeWord_of_storeRow (op : Op) {w m : Word} (hrow : w &&& 0x0000707F#32 = m) (hop : opcodeOf m = 0x23#7)
    (hslot : dispatchStore (funct3Of m) = some op) : decodeWord w = .ok (instrOf op (recordOf .store w)) := by
  rw [← funct3Of_of_row hrow] at hslot
  exact decodeWord_of_slot (by rw [opcodeOf_of_row hrow, hop]; rfl) hslot

end Sys2Proof

namespace Sys2Proof.Machine

/-- The effective address of a word's base and S-immediate, as a number modulo 2^32 (20_memory R52). -/
theorem effAddr_immS (base w : Word) :
    effAddr base ((immS w).setWidth 12) = wordOfInt (base.toNat + immSNum w) := by
  rw [effAddr, immS, setWidth_sext _ (by decide), sext_eq_ofInt]
  exact add_wordOfInt base (immSNum w)

/-- A store at `addr` of the low `n` bytes of `v` (44_stores R230): in bounds it writes those bytes and goes on, out of bounds
it faults with registers and memory as before. -/
def StoreSteps (s : State) (addr : Word) (n : Nat) (v : Word) : Prop :=
  (addr.toNat + n ≤ s.memSize →
    StepsTo s (s.pc + 4#32) (fun t => RegsKept s t ∧ BytesStored s t addr.toNat n v)) ∧
  (s.memSize < addr.toNat + n → StepFaults s (.memory .store s.pc addr) ∧
    ∀ f left, step s = .fault (.raised f left) → left.regs = s.regs ∧ left.mem = s.mem)

/-- A memory result over a whole step: it is the only change beside the pc, which goes on by 4 and so stays aligned. -/
theorem stepsTo_of_withMem {s : State} {w : Word} {i : Instr} {m : Memory} {P : State → Prop} (hf : s.Fetches w)
    (ha : aligned s.pc) (hd : decodeWord w = .ok i) (he : exec i s.beginCycle = .next (s.beginCycle.withMem m))
    (hP : P (s.beginCycle.withMem m).advance) : StepsTo s (s.pc + 4#32) P :=
  stepsTo_of_exec_next hf hd he (aligned_add_four ha) rfl hP

/-- A step whose execute stage is a store: `storeFrom` writes the bytes in bounds, and raises out of bounds. -/
theorem storeSteps_of_storeFrom (width : Width) {s : State} {w addr : Word} {i : Instr} {rs1 rs2 : Reg} {imm : BitVec 12}
    (hf : s.Fetches w) (ha : aligned s.pc) (hm : Memory.wf s.mem) (hd : decodeWord w = .ok i)
    (he : exec i s.beginCycle = storeFrom s.beginCycle rs1 rs2 imm width)
    (haddr : effAddr (s.readReg rs1) imm = addr) :
    StoreSteps s addr width.bytes (s.readReg rs2) := by
  subst haddr
  rcases storeFrom_cases s.beginCycle rs1 rs2 imm width with ⟨hin, hstore⟩ | ⟨hout, hstore⟩
  · refine ⟨fun _ => ?_, fun hover => absurd hin (Nat.not_le.mpr hover)⟩
    exact stepsTo_of_withMem hf ha hd (he.trans hstore)
      ⟨fun _ => rfl, fun k => Memory.readByte_store hm _ k width _⟩
  · refine ⟨fun hin => absurd hin hout, fun _ => stepFaults_of_raise_beginCycle ?_⟩
    rw [step_of_decode hf hd, he, hstore]
    rfl

/-- Settles O31: each row's mask and match select its slot, and its execute stage is one `storeFrom` at the address the rows
share. -/
theorem stepOnStoreWords : Obligations.StepOnStoreWords := by
  intro s w hf ha hm
  have haddr := effAddr_immS (s.readReg (rs1Of w)) w
  exact ⟨fun h => storeSteps_of_storeFrom .byte hf ha hm (decodeWord_of_storeRow .sb h rfl rfl) rfl haddr,
    fun h => storeSteps_of_storeFrom .half hf ha hm (decodeWord_of_storeRow .sh h rfl rfl) rfl haddr,
    fun h => storeSteps_of_storeFrom .word hf ha hm (decodeWord_of_storeRow .sw h rfl rfl) rfl haddr⟩

end Sys2Proof.Machine
end

section
/-! PROOFS. The branch rows: the slot their mask selects, the target as the number the rules state, and the step taken, taken
to a misaligned target, and not taken (30_encoding R95, R116; 40_control_loop R147; 45_branches R250 to R256). -/

namespace Sys2Proof

/-- A word of a branch's row decodes to the row's instruction: the BRANCH table reads `funct3` alone (30_encoding R116). -/
theorem decodeWord_of_branchRow (op : Op) {w m : Word} (hrow : w &&& 0x0000707F#32 = m) (hop : opcodeOf m = 0x63#7)
    (hslot : dispatchBranch (funct3Of m) = some op) : decodeWord w = .ok (instrOf op (recordOf .branch w)) := by
  rw [← funct3Of_of_row hrow] at hslot
  exact decodeWord_of_slot (by rw [opcodeOf_of_row hrow, hop]; rfl) hslot

end Sys2Proof

namespace Sys2Proof.Machine

/-- The B-immediate a word's instruction holds stands for the number of its rule (30_encoding R95). -/
theorem sext_immB_field (w : Word) : sext ((immB w).setWidth 13) = wordOfInt (immBNum w) := by
  rw [immB, setWidth_sext _ (by decide), sext_eq_ofInt, toInt_append_zero]
  rfl

/-- The target of a branch word, as a number modulo 2^32 (45_branches R250). -/
theorem relTarget_immB (pc w : Word) : relTarget pc ((immB w).setWidth 13) = wordOfInt (pc.toNat + immBNum w) := by
  rw [relTarget, sext_immB_field, add_wordOfInt]

/-- A step whose execute stage answers `u` with a misaligned next pc ends the run with the alignment fault of that target
(40_control_loop R147; 60_exceptions R314). -/
theorem stepFaults_of_exec_misaligned {s u : State} {w : Word} {i : Instr} (hf : s.Fetches w)
    (hd : decodeWord w = .ok i) (he : exec i s.beginCycle = .next u) (hmis : ¬ aligned u.nextPc) :
    StepFaults s (.alignment s.pc u.nextPc) := by
  obtain ⟨-, -, -, hsink, -⟩ := exec_next_keeps he
  have hstep : step s = raise (.alignment s.pc u.nextPc) u.advance := by
    rw [step_of_decode hf hd, he, finish_next, retire_misaligned hmis]
  exact ⟨_, hstep, rfl, hsink⟩

/-- A step whose execute stage is a branch (45_branches R250): taken, its next pc is the target, which the alignment check
may refuse; not taken, it is `pc + 4`, aligned like the pc. -/
theorem branchSteps_of_branchIf {s : State} {w target : Word} {i : Instr} {c : Bool} {taken : Prop} {offset : BitVec 13}
    (hf : s.Fetches w) (ha : aligned s.pc) (hd : decodeWord w = .ok i)
    (he : exec i s.beginCycle = branchIf s.beginCycle c offset) (hc : c = true ↔ taken)
    (htarget : relTarget s.pc offset = target) : BranchSteps s taken target := by
  subst htarget
  cases c with
  | true =>
    have htaken : taken := hc.mp rfl
    exact ⟨fun _ hal => stepsTo_of_exec_next hf hd he hal rfl ⟨fun _ => rfl, fun _ => rfl⟩,
      fun _ hmis => stepFaults_of_exec_misaligned hf hd he hmis, fun hnot => absurd htaken hnot⟩
  | false =>
    have hnot : ¬ taken := fun h => Bool.false_ne_true (hc.mpr h)
    exact ⟨fun h => absurd h hnot, fun h => absurd h hnot,
      fun _ => stepsTo_of_exec_next hf hd he (aligned_add_four ha) rfl ⟨fun _ => rfl, fun _ => rfl⟩⟩

/-- Settles O32: each row's mask and match select its slot, and its execute stage is one `branchIf` on the row's condition, to
the target the rows share. -/
theorem stepOnBranchWords : Obligations.StepOnBranchWords := by
  intro s w hf ha
  have htarget := relTarget_immB s.pc w
  exact ⟨fun h => branchSteps_of_branchIf hf ha (decodeWord_of_branchRow .beq h rfl rfl) rfl (condEq_iff _ _) htarget,
    fun h => branchSteps_of_branchIf hf ha (decodeWord_of_branchRow .bne h rfl rfl) rfl (condNe_iff _ _) htarget,
    fun h => branchSteps_of_branchIf hf ha (decodeWord_of_branchRow .blt h rfl rfl) rfl (condLt_iff _ _) htarget,
    fun h => branchSteps_of_branchIf hf ha (decodeWord_of_branchRow .bge h rfl rfl) rfl
      ((condGe_iff _ _).trans Int.not_lt.symm) htarget,
    fun h => branchSteps_of_branchIf hf ha (decodeWord_of_branchRow .bltu h rfl rfl) rfl (condLtu_iff _ _) htarget,
    fun h => branchSteps_of_branchIf hf ha (decodeWord_of_branchRow .bgeu h rfl rfl) rfl
      ((condGeu_iff _ _).trans Nat.not_lt.symm) htarget⟩

end Sys2Proof.Machine
end

section
/-! PROOFS. The jump rows: the slot their mask selects and JALR's undefined slots, the targets as the numbers the rules state,
and the step to an aligned and to a misaligned target (30_encoding R93, R97, R117, R122; 40_control_loop R147; 46_jumps R270,
R271). -/

namespace Sys2Proof

/-! ## The slots of the classes JAL and JALR -/

/-- The mask of the rows without `funct3` keeps the opcode, whatever the word's format. -/
theorem and_opcodeMask_eq_encU (w : Word) : w &&& 0x0000007F#32 = encU (opcodeOf w) 0 0#20 := by
  conv_lhs => rw [← encU_fields w]
  exact encU_and_mask ..

theorem opcodeOf_of_opcodeRow {w m : Word} (hrow : w &&& 0x0000007F#32 = m) : opcodeOf w = opcodeOf m := by
  rw [← hrow, and_opcodeMask_eq_encU, opcodeOf_encU]

/-- A word of JAL's row decodes to its instruction: the class has the one slot (30_encoding R111). -/
theorem decodeWord_of_jalRow {w : Word} (hrow : w &&& 0x0000007F#32 = 0x0000006F#32) :
    decodeWord w = .ok (.jal (rdOf w) ((immJ w).setWidth 21)) :=
  decodeWord_of_slot (c := .jal) (op := .jal) (by rw [opcodeOf_of_opcodeRow hrow]; rfl) rfl

/-- A word of JALR's row decodes to its instruction: the JALR table reads `funct3` alone (30_encoding R117). -/
theorem decodeWord_of_jalrRow {w : Word} (hrow : w &&& 0x0000707F#32 = 0x00000067#32) :
    decodeWord w = .ok (.jalr (rdOf w) (rs1Of w) ((immI w).setWidth 12)) := by
  have hslot : dispatchJalr (funct3Of w) = some .jalr := by rw [funct3Of_of_row hrow]; rfl
  exact decodeWord_of_slot (c := .jalr) (by rw [opcodeOf_of_row hrow]; rfl) hslot

/-- JALR's opcode outside its row has no slot: its `funct3` is not 000 (30_encoding R117). -/
theorem decodeWord_of_undefined_jalr {w : Word} (hop : w &&& 0x0000007F#32 = 0x00000067#32)
    (hrow : w &&& 0x0000707F#32 ≠ 0x00000067#32) : decodeWord w = .error .undefinedSlot := by
  have hopw : opcodeOf w = 0x67#7 := opcodeOf_of_opcodeRow hop
  have hf3 : funct3Of w ≠ 0b000#3 := fun h => hrow (by rw [and_rowMask_eq_encI, hopw, h]; rfl)
  exact (decodeWord_undefinedSlot_iff w).mpr ⟨.jalr, by rw [hopw]; rfl, if_neg hf3⟩

end Sys2Proof

namespace Sys2Proof.Machine

/-! ## The targets as numbers -/

/-- The J-immediate a word's instruction holds stands for the number of its rule (30_encoding R97). -/
theorem sext_immJ_field (w : Word) : sext ((immJ w).setWidth 21) = wordOfInt (immJNum w) := by
  rw [immJ, setWidth_sext _ (by decide), sext_eq_ofInt, toInt_append_zero]
  rfl

/-- The target of a JAL word, as a number modulo 2^32 (46_jumps R270). -/
theorem relTarget_immJ (pc w : Word) : relTarget pc ((immJ w).setWidth 21) = wordOfInt (pc.toNat + immJNum w) := by
  rw [relTarget, sext_immJ_field, add_wordOfInt]

/-- The target of a JALR word: the sum as a number modulo 2^32, its bit 0 dropped (46_jumps R271). -/
theorem jalrTarget_immI (base w : Word) :
    jalrTarget base ((immI w).setWidth 12) =
      BitVec.ofNat 32 ((wordOfInt (base.toNat + immINum w)).toNat / 2 * 2) := by
  rw [jalrTarget, clearBit0_eq, sext_immI_field, add_wordOfInt]

/-! ## The step -/

/-- A jump to `target` that links in `rd` (46_jumps R270, R271): it sets `rd` to `pc + 4` and goes there, or faults if the
target is not a multiple of 4. -/
def JumpSteps (s : State) (rd : Reg) (target : Word) : Prop :=
  (aligned target →
    StepsTo s target (fun t => RegSet s t rd (BitVec.ofNat 32 (s.pc.toNat + 4)) ∧ BytesKept s t)) ∧
  (¬ aligned target → StepFaults s (.alignment s.pc target))

/-- A step whose execute stage links and jumps: its next pc is the target, which the alignment check may refuse, and the link
is its only register result. -/
theorem jumpSteps_of_linkJump {s : State} {w target target' : Word} {i : Instr} {rd : Reg} (hf : s.Fetches w)
    (hd : decodeWord w = .ok i)
    (he : exec i s.beginCycle = .next ((s.beginCycle.writeReg rd (linkOf s.pc)).jumpTo target))
    (htarget : target = target') : JumpSteps s rd target' := by
  subst htarget
  obtain ⟨hreg, hbytes, -, -⟩ := writeReg_frame s.beginCycle rd (linkOf s.pc)
  rw [JumpSteps, ← pc_add_four_eq_ofNat]
  exact ⟨fun hal => stepsTo_of_exec_next hf hd he hal (by simp) ⟨hreg, hbytes⟩,
    fun hmis => stepFaults_of_exec_misaligned hf hd he hmis⟩

/-- Settles O33: the row's mask and match select JAL's slot, and its execute stage links and jumps to `pc + imm`. -/
theorem stepOnJalWords : Obligations.StepOnJalWords := by
  intro s w hf hrow
  exact jumpSteps_of_linkJump hf (decodeWord_of_jalRow hrow) rfl (relTarget_immJ s.pc w)

/-- Settles O34: the row's mask and match select JALR's slot, and its execute stage links and jumps to the target of the state
before the link; a word of the opcode outside the row has no slot. -/
theorem stepOnJalrWords : Obligations.StepOnJalrWords := by
  intro s w hf
  exact ⟨fun hrow => jumpSteps_of_linkJump hf (decodeWord_of_jalrRow hrow) rfl (jalrTarget_immI (s.readReg (rs1Of w)) w),
    fun hop hrow => stepFaults_of_illegal hf (decodeWord_of_undefined_jalr hop hrow)⟩

end Sys2Proof.Machine
end

section
/-! PROOFS. The upper-immediate rows: the slot their mask selects, and their results as the numbers the rules state
(30_encoding R96, R111, R122; 47_upper_imm R290, R291). -/

namespace Sys2Proof

/-! ## The slots of the classes LUI and AUIPC -/

/-- A word of LUI's row decodes to its instruction: the class has the one slot (30_encoding R111). -/
theorem decodeWord_of_luiRow {w : Word} (hrow : w &&& 0x0000007F#32 = 0x00000037#32) :
    decodeWord w = .ok (.lui (rdOf w) ((immU w).setWidth 20)) :=
  decodeWord_of_slot (c := .lui) (op := .lui) (by rw [opcodeOf_of_opcodeRow hrow]; rfl) rfl

/-- A word of AUIPC's row decodes to its instruction: the class has the one slot (30_encoding R111). -/
theorem decodeWord_of_auipcRow {w : Word} (hrow : w &&& 0x0000007F#32 = 0x00000017#32) :
    decodeWord w = .ok (.auipc (rdOf w) ((immU w).setWidth 20)) :=
  decodeWord_of_slot (c := .auipc) (op := .auipc) (by rw [opcodeOf_of_opcodeRow hrow]; rfl) rfl

end Sys2Proof

namespace Sys2Proof.Machine

/-! ## The upper immediate as a number -/

/-- `imm << 12` as a number: the field, which stays below 2^20, is multiplied by 2^12 (47_upper_imm R290). -/
theorem upperImm_eq_ofNat (imm20 : BitVec 20) : upperImm imm20 = BitVec.ofNat 32 (imm20.toNat * 2 ^ 12) := by
  have hzext : (zext imm20).toNat = imm20.toNat := BitVec.toNat_setWidth_of_le (by decide)
  rw [← hzext]
  exact shiftLeft_eq_ofNat (zext imm20) 12

theorem immU_field_toNat (w : Word) : ((immU w).setWidth 20).toNat = w.toNat / 2 ^ 12 := by
  rw [immU, setWidth_zext _ (by decide), BitVec.extractLsb'_toNat, Nat.shiftRight_eq_div_pow]
  exact Nat.mod_eq_of_lt (by omega)

/-- The value a word's U-immediate stands for is the word with its low 12 bits cleared (30_encoding R96). -/
theorem upperImm_immU (w : Word) : upperImm ((immU w).setWidth 20) = BitVec.ofNat 32 (w.toNat / 2 ^ 12 * 2 ^ 12) := by
  rw [upperImm_eq_ofNat, immU_field_toNat]

/-! ## The step -/

/-- Settles O35: each row's mask and match select its class's one slot, and its execute stage is one register result: the
upper immediate, or its sum with the instruction's own address. -/
theorem stepOnUpperImmediateWords : Obligations.StepOnUpperImmediateWords := by
  intro s w hf ha
  dsimp only
  rw [BitVec.ofNat_add, BitVec.ofNat_toNat, BitVec.setWidth_eq, ← upperImm_immU]
  exact ⟨fun hrow => stepsTo_of_writeResult hf ha (decodeWord_of_luiRow hrow) rfl,
    fun hrow => stepsTo_of_writeResult hf ha (decodeWord_of_auipcRow hrow) rfl⟩

end Sys2Proof.Machine
end

section
/-! PROOFS. Words and instructions are one another's encoding: the row a word's masked bits select, the instruction its
fields make up, and back (30_encoding R82 to R88, R110 to R119, R122). -/

namespace Sys2Proof

/-! ## From a row's fixed bits to its instruction -/

/-- The class whose dispatch table holds an operation (30_encoding R111). -/
def Op.cls : Op → Cls
  | .add | .sub | .sll | .slt | .sltu | .xor | .srl | .sra | .or | .and => .op
  | .addi | .slti | .sltiu | .xori | .ori | .andi | .slli | .srli | .srai => .opImm
  | .lb | .lh | .lw | .lbu | .lhu => .load
  | .sb | .sh | .sw => .store
  | .beq | .bne | .blt | .bge | .bltu | .bgeu => .branch
  | .jal => .jal
  | .jalr => .jalr
  | .lui => .lui
  | .auipc => .auipc
  | .ecall => .system

theorem decodeWord_ecall : decodeWord 0x00000073#32 = .ok .ecall := by decide

/-- A word with the fixed bits of an operation's row decodes to that operation, with the word's own fields
(30_encoding R122). -/
theorem decodeWord_of_row {w : Word} {op : Op} (hrow : w &&& op.maskBits = op.matchBits) :
    decodeWord w = .ok (instrOf op (recordOf op.cls w)) := by
  cases op
  case add | sub | sll | slt | sltu | xor | srl | sra | or | and => exact decodeWord_of_opRow hrow rfl rfl
  case addi | slti | sltiu | xori | ori | andi => exact decodeWord_of_opImmRow _ hrow rfl fun _ => rfl
  case slli | srli | srai => exact decodeWord_of_shiftRow _ hrow rfl rfl
  case lb | lh | lw | lbu | lhu => exact decodeWord_of_loadRow _ hrow rfl rfl
  case sb | sh | sw => exact decodeWord_of_storeRow _ hrow rfl rfl
  case beq | bne | blt | bge | bltu | bgeu => exact decodeWord_of_branchRow _ hrow rfl rfl
  case jal => exact decodeWord_of_jalRow hrow
  case jalr => exact decodeWord_of_jalrRow hrow
  case lui => exact decodeWord_of_luiRow hrow
  case auipc => exact decodeWord_of_auipcRow hrow
  case ecall =>
    obtain rfl : w = 0x00000073#32 := BitVec.and_allOnes.symm.trans hrow
    exact decodeWord_ecall

/-- Every instruction's word has the fixed bits of its row. -/
theorem encode_and_maskBits (i : Instr) : encode i &&& i.op.maskBits = i.op.matchBits := by
  cases i
  case add | sub | sll | slt | sltu | xor | srl | sra | or | and => exact encR_and_mask ..
  case addi | slti | sltiu | xori | ori | andi | lb | lh | lw | lbu | lhu | jalr => exact encI_and_mask ..
  case slli | srli | srai => exact encShift_and_mask ..
  case sb | sh | sw => exact encS_and_mask ..
  case beq | bne | blt | bge | bltu | bgeu => exact encB_and_mask ..
  case jal => exact encJ_and_mask ..
  case lui | auipc => exact encU_and_mask ..
  case ecall => exact Laws.FixedBits.ecall

/-! ## From an instruction's word to the instruction -/

theorem immI_encI_field (o : BitVec 7) (f3 : BitVec 3) (rd rs1 : Reg) (imm : BitVec 12) :
    (immI (encI o f3 rd rs1 imm)).setWidth 12 = imm := by
  rw [immI_encI, setWidth_sext _ (by decide)]

theorem immS_encS_field (f3 : BitVec 3) (rs1 rs2 : Reg) (imm : BitVec 12) :
    (immS (encS f3 rs1 rs2 imm)).setWidth 12 = imm := by
  rw [immS_encS, setWidth_sext _ (by decide)]

theorem immB_encB_field {f3 : BitVec 3} {rs1 rs2 : Reg} {offset : BitVec 13} (h : branchOffsetOk offset = true) :
    (immB (encB f3 rs1 rs2 offset)).setWidth 13 = offset := by
  rw [immB_encB _ _ _ _ h, setWidth_sext _ (by decide)]

theorem immU_encU_field (o : BitVec 7) (rd : Reg) (imm20 : BitVec 20) :
    (immU (encU o rd imm20)).setWidth 20 = imm20 := by
  rw [immU_encU, setWidth_zext _ (by decide)]

theorem immJ_encJ_field {rd : Reg} {offset : BitVec 21} (h : jumpOffsetOk offset = true) :
    (immJ (encJ rd offset)).setWidth 21 = offset := by
  rw [immJ_encJ _ _ h, setWidth_sext _ (by decide)]

/-- The fields of a well-formed instruction's word are the instruction's operands. -/
theorem instrOf_recordOf_encode (i : Instr) (hwf : i.wellFormed = true) :
    instrOf i.op (recordOf i.op.cls (encode i)) = i := by
  cases i
  case add | sub | sll | slt | sltu | xor | srl | sra | or | and =>
    simp [instrOf, recordOf, Instr.op, Op.cls, encode, Cls.hasRd, Cls.hasRs1, Cls.hasRs2]
  case addi | slti | sltiu | xori | ori | andi | lb | lh | lw | lbu | lhu | jalr =>
    simp [instrOf, recordOf, Instr.op, Op.cls, encode, Cls.hasRd, Cls.hasRs1, immOf, Cls.format, immI_encI_field, -immI_encI]
  case slli | srli | srai =>
    simp [instrOf, recordOf, Instr.op, Op.cls, encode, Cls.hasRd, Cls.hasRs1, immOf, Cls.format]
  case sb | sh | sw =>
    simp [instrOf, recordOf, Instr.op, Op.cls, encode, Cls.hasRs1, Cls.hasRs2, immOf, Cls.format, immS_encS_field, -immS_encS]
  case beq | bne | blt | bge | bltu | bgeu =>
    simp [instrOf, recordOf, Instr.op, Op.cls, encode, Cls.hasRs1, Cls.hasRs2, immOf, Cls.format, immB_encB_field hwf]
  case jal =>
    simp [instrOf, recordOf, Instr.op, Op.cls, encode, Cls.hasRd, immOf, Cls.format, immJ_encJ_field hwf]
  case lui | auipc =>
    simp [instrOf, recordOf, Instr.op, Op.cls, encode, Cls.hasRd, immOf, Cls.format, immU_encU_field, -immU_encU]
  case ecall => rfl

theorem decodeWord_encode {i : Instr} (hwf : i.wellFormed = true) : decodeWord (encode i) = .ok i := by
  rw [decodeWord_of_row (encode_and_maskBits i), instrOf_recordOf_encode i hwf]

/-- Settles O2: an instruction's word has its row's fixed bits, so it decodes to the row's operation, and the word's fields
are the instruction's operands. -/
theorem decodeOfEncodeIsIdentity : Obligations.DecodeOfEncodeIsIdentity := by
  intro i hwf
  refine ⟨decodeWord_encode hwf, fun rest => ?_⟩
  rw [encodeBytes, decodeBytes_bytesOfWord, decodeWord_encode hwf]

end Sys2Proof
end

section
/-! PROOFS. An accepted word's own meaning: each dispatch table, read from the operation it answers back to the fields that
select it, and the word those fields make up (30_encoding R112 to R118, R122). -/

namespace Sys2Proof

/-- The instruction has an encoding, and it is `w`. -/
def EncodesAs (i : Instr) (w : Word) : Prop := i.wellFormed = true ∧ encode i = w

theorem eq_ofNat_of_toNat_eq {n k : Nat} {v : BitVec n} (h : v.toNat = k) : v = BitVec.ofNat n k := by
  simp [← h]

/-! ## The tables read backwards: a slot's instruction encodes the fields that select the slot -/

theorem encodesAs_of_opSlot {f3 : BitVec 3} {variant : Bool} {op : Op} (h : opSlot f3 variant = some op) (r : Record) :
    EncodesAs (instrOf op r) (encR (if variant then 0x20#7 else 0x00#7) f3 r.rd r.rs1 r.rs2) := by
  unfold opSlot at h
  split at h <;> cases h
  all_goals next hf3 => rw [eq_ofNat_of_toNat_eq hf3]; exact ⟨rfl, rfl⟩

/-- Bit 5 of `funct7` tells its two values apart (30_encoding R100, R101). -/
theorem encodesAs_of_dispatchOp {f3 : BitVec 3} {f7 : BitVec 7} {op : Op} (h : dispatchOp f3 f7 (f7.getLsbD 5) = some op)
    (r : Record) : EncodesAs (instrOf op r) (encR f7 f3 r.rd r.rs1 r.rs2) := by
  obtain ⟨hf7, hslot⟩ : (f7 = 0x00#7 ∨ f7 = 0x20#7) ∧ opSlot f3 (f7.getLsbD 5) = some op := by
    simpa [dispatchOp] using h
  rcases hf7 with rfl | rfl <;> exact encodesAs_of_opSlot hslot r

/-- A slot of OP_IMM is a row of `funct3` alone, or a shift's row (30_encoding R101, R113). -/
theorem encodesAs_of_dispatchOpImm {f3 : BitVec 3} {f7 : BitVec 7} {op : Op} (h : dispatchOpImm f3 f7 = some op)
    (r : Record) :
    EncodesAs (instrOf op r) (encI 0x13#7 f3 r.rd r.rs1 (r.imm.setWidth 12)) ∨
      EncodesAs (instrOf op r) (encShift (f7.extractLsb' 1 6) f3 r.rd r.rs1 (r.imm.setWidth 6)) := by
  unfold dispatchOpImm at h
  split at h
  case h_2 hf3 =>
    obtain ⟨hf6, rfl⟩ : f7.extractLsb' 1 6 = 0b000000#6 ∧ Op.slli = op := by simpa using h
    rw [eq_ofNat_of_toNat_eq hf3, hf6]
    exact .inr ⟨rfl, rfl⟩
  case h_6 hf3 =>
    rw [eq_ofNat_of_toNat_eq hf3]
    split at h
    · next hf6 => cases h; rw [hf6]; exact .inr ⟨rfl, rfl⟩
    · split at h
      · next hf6 => cases h; rw [hf6]; exact .inr ⟨rfl, rfl⟩
      · cases h
  case h_9 => cases h
  all_goals next hf3 => cases h; rw [eq_ofNat_of_toNat_eq hf3]; exact .inl ⟨rfl, rfl⟩

theorem encodesAs_of_dispatchLoad {f3 : BitVec 3} {op : Op} (h : dispatchLoad f3 = some op) (r : Record) :
    EncodesAs (instrOf op r) (encI 0x03#7 f3 r.rd r.rs1 (r.imm.setWidth 12)) := by
  unfold dispatchLoad at h
  split at h <;> cases h
  all_goals next hf3 => rw [eq_ofNat_of_toNat_eq hf3]; exact ⟨rfl, rfl⟩

theorem encodesAs_of_dispatchStore {f3 : BitVec 3} {op : Op} (h : dispatchStore f3 = some op) (r : Record) :
    EncodesAs (instrOf op r) (encS f3 r.rs1 r.rs2 (r.imm.setWidth 12)) := by
  unfold dispatchStore at h
  split at h <;> cases h
  all_goals next hf3 => rw [eq_ofNat_of_toNat_eq hf3]; exact ⟨rfl, rfl⟩

theorem encodesAs_of_dispatchBranch {f3 : BitVec 3} {op : Op} (h : dispatchBranch f3 = some op) {r : Record}
    (heven : branchOffsetOk (r.imm.setWidth 13) = true) :
    EncodesAs (instrOf op r) (encB f3 r.rs1 r.rs2 (r.imm.setWidth 13)) := by
  unfold dispatchBranch at h
  split at h <;> cases h
  all_goals next hf3 => rw [eq_ofNat_of_toNat_eq hf3]; exact ⟨heven, rfl⟩

theorem encodesAs_of_dispatchJalr {f3 : BitVec 3} {op : Op} (h : dispatchJalr f3 = some op) (r : Record) :
    EncodesAs (instrOf op r) (encI 0x67#7 f3 r.rd r.rs1 (r.imm.setWidth 12)) := by
  obtain ⟨rfl, rfl⟩ : f3 = 0b000#3 ∧ Op.jalr = op := by simpa [dispatchJalr] using h
  exact ⟨rfl, rfl⟩

theorem encodesAs_of_dispatchSystem {r : Record} {op : Op} (h : dispatchSystem r = some op) :
    EncodesAs (instrOf op r) (encI 0x73#7 r.funct3 r.rd r.rs1 (r.imm.setWidth 12)) := by
  obtain ⟨⟨hf3, hrd, hrs1, himm⟩, rfl⟩ :
      (r.funct3 = 0b000#3 ∧ r.rd = 0 ∧ r.rs1 = 0 ∧ r.imm = 0#32) ∧ Op.ecall = op := by simpa [dispatchSystem] using h
  rw [hf3, hrd, hrs1, himm]
  exact ⟨rfl, rfl⟩

/-! ## The word of a decoded instruction -/

/-- The slot of a word of class OP, read off the word's own fields. -/
theorem dispatchSlot_recordOf_op (w : Word) :
    dispatchSlot (recordOf .op w) = dispatchOp (funct3Of w) (funct7Of w) ((funct7Of w).getLsbD 5) := by
  rw [← variantOf_eq]
  rfl

theorem EncodesAs.trans {i : Instr} {v w : Word} (h : EncodesAs i v) (hv : v = w) : EncodesAs i w := hv ▸ h

theorem encI_fields_of_opcode {w : Word} {o : BitVec 7} (h : opcodeOf w = o) :
    encI o (funct3Of w) (rdOf w) (rs1Of w) ((immI w).setWidth 12) = w := h ▸ encI_fields w

theorem encU_fields_of_opcode {w : Word} {o : BitVec 7} (h : opcodeOf w = o) :
    encU o (rdOf w) ((immU w).setWidth 20) = w := h ▸ encU_fields w

/-- The fields of a word of class `c` are those its slot's instruction encodes, so they make up the word again. -/
theorem encodesAs_of_slot {w : Word} {c : Cls} {op : Op} (hc : clsOf (opcodeOf w) = some c)
    (hd : dispatchSlot (recordOf c w) = some op) : EncodesAs (instrOf op (recordOf c w)) w := by
  have hop := opcode_of_clsOf hc
  cases c
  case op =>
    rw [dispatchSlot_recordOf_op] at hd
    exact (encodesAs_of_dispatchOp hd _).trans (encR_fields w hop)
  case opImm =>
    rw [dispatchSlot_recordOf_opImm] at hd
    rcases encodesAs_of_dispatchOpImm hd (recordOf .opImm w) with h | h
    · exact h.trans (encI_fields_of_opcode hop)
    · exact h.trans (encShift_fields w hop)
  case load => exact (encodesAs_of_dispatchLoad hd _).trans (encI_fields_of_opcode hop)
  case jalr => exact (encodesAs_of_dispatchJalr hd _).trans (encI_fields_of_opcode hop)
  case system => exact (encodesAs_of_dispatchSystem hd).trans (encI_fields_of_opcode hop)
  case store => exact (encodesAs_of_dispatchStore hd _).trans (encS_fields w hop)
  case branch =>
    exact (encodesAs_of_dispatchBranch (r := recordOf .branch w) hd (branchOffsetOk_immB w)).trans (encB_fields w hop)
  case lui => cases hd; exact ⟨rfl, encU_fields_of_opcode hop⟩
  case auipc => cases hd; exact ⟨rfl, encU_fields_of_opcode hop⟩
  case jal => cases hd; exact ⟨jumpOffsetOk_immJ w, encJ_fields w hop⟩

/-- Settles O3: a decoded word's instruction is its slot's, and that encodes the word's own fields. -/
theorem encodeOfDecodeIsIdentity : Obligations.EncodeOfDecodeIsIdentity := by
  intro w i hd
  obtain ⟨c, op, hc, hslot, rfl⟩ := slot_of_decodeWord hd
  exact encodesAs_of_slot hc hslot

/-! ## Rows -/

/-- An operation is selected exactly by the words that decode to one of its instructions. -/
theorem select_eq_ok_iff (w : Word) (op : Op) :
    (∃ r, select w = .ok (op, r)) ↔ ∃ i, decodeWord w = .ok i ∧ i.op = op := by
  have hop : ∀ p r, (instrOf p r).op = p := fun p r => by cases p <;> rfl
  unfold decodeWord
  cases select w with
  | error e => simp
  | ok p => simp [Prod.ext_iff, hop]

theorem row_iff (w : Word) (op : Op) :
    (∃ i, decodeWord w = .ok i ∧ i.op = op) ↔ w &&& op.maskBits = op.matchBits := by
  constructor
  · rintro ⟨i, hd, rfl⟩
    obtain ⟨-, henc⟩ := encodeOfDecodeIsIdentity w i hd
    exact henc ▸ encode_and_maskBits i
  · intro hrow
    exact ⟨_, decodeWord_of_row hrow, by cases op <;> rfl⟩

/-- Settles O4: a row's fixed bits are those of the words that decode to its instructions, and the decoder is a function. -/
theorem wordSelectsRowByMatchAndMask : Obligations.WordSelectsRowByMatchAndMask := by
  refine ⟨fun w op => (select_eq_ok_iff w op).trans (row_iff w op), fun w p q hp hq => ?_, fun w hno => ?_⟩
  · obtain ⟨i, hi, rfl⟩ := (row_iff w p).mpr hp
    obtain ⟨j, hj, rfl⟩ := (row_iff w q).mpr hq
    rw [Except.ok.inj (hi.symm.trans hj)]
  · cases hd : decodeWord w with
    | error reason => exact ⟨reason, rfl⟩
    | ok i => exact absurd ((row_iff w i.op).mp ⟨i, hd, rfl⟩) (hno i.op)

/-- Settles O1: each of the ten words is evaluated by the decoder. -/
theorem specWordsDecodeAsListed : Obligations.SpecWordsDecodeAsListed := by
  unfold Obligations.SpecWordsDecodeAsListed
  decide

end Sys2Proof
end

section
/-! PROOFS. The step as one case distinction over every outcome it has, and what that says of its faults (40_control_loop
R140 to R152; 60_exceptions R311 to R318). -/

namespace Sys2Proof.Machine

/-! ## Every outcome of a step -/

/-- The answers of `step s`, one constructor per stage that can end it. -/
inductive StepShape (s : State) : Result → Prop where
  /-- no step exists -/
  | terminated (hr : s.run ≠ .running) : StepShape s (.fault (.terminated s.run))
  /-- the fetch is out of bounds -/
  | fetchFault (hr : s.run = .running) (hb : ¬ s.pc.toNat + 4 ≤ s.memSize) :
      StepShape s (raise (.memory .fetch s.pc s.pc) s.beginCycle)
  /-- the word fetched is no instruction -/
  | illegal (w : Word) (reason : DecodeReason) (hf : s.Fetches w) (hd : decodeWord w = .error reason) :
      StepShape s (raise (.decode reason s.pc w) s.beginCycle)
  /-- a load out of bounds -/
  | loadFault (w : Word) (i : Instr) (a : Word) (width : Width) (hf : s.Fetches w) (hd : decodeWord w = .ok i)
      (hl : i.loadAccess s = some (a, width)) (hb : ¬ s.inBounds a width) :
      StepShape s (raise (.memory .load s.pc a) s.beginCycle)
  /-- a store out of bounds -/
  | storeFault (w : Word) (i : Instr) (a : Word) (width : Width) (hf : s.Fetches w) (hd : decodeWord w = .ok i)
      (hst : i.storeAccess s = some (a, width)) (hb : ¬ s.inBounds a width) :
      StepShape s (raise (.memory .store s.pc a) s.beginCycle)
  /-- the new pc is misaligned -/
  | misaligned (w : Word) (i : Instr) (u : State) (hf : s.Fetches w) (hd : decodeWord w = .ok i)
      (he : exec i s.beginCycle = .next u) (ha : ¬ aligned u.nextPc) :
      StepShape s (raise (.alignment s.pc u.nextPc) u.advance)
  /-- the instruction retires -/
  | retires (w : Word) (i : Instr) (u : State) (hf : s.Fetches w) (hd : decodeWord w = .ok i)
      (he : exec i s.beginCycle = .next u) (ha : aligned u.nextPc) : StepShape s (.next u.advance.haltStage)

/-- What `step` answers has one of the shapes. -/
theorem step_cases (s : State) : StepShape s (step s) := by
  by_cases hr : s.run = .running
  · by_cases hb : s.pc.toNat + 4 ≤ s.memSize
    · have hf := State.fetches_of_inBounds hr hb
      cases hd : decodeWord (Memory.readLE s.mem s.pc.toNat .word) with
      | error reason =>
        rw [step_of_illegal hf hd]
        exact .illegal _ reason hf hd
      | ok i =>
        rcases step_answers hf hd with ⟨u, he, ha, h⟩ | ⟨u, he, ha, h⟩ | ⟨a, width, hl, hb, h⟩ |
          ⟨a, width, hst, hb, h⟩ <;> rw [h]
        · exact .retires _ i u hf hd he ha
        · exact .misaligned _ i u hf hd he ha
        · exact .loadFault _ i a width hf hd hl hb
        · exact .storeFault _ i a width hf hd hst hb
    · rw [step_of_fetch_outOfBounds hr hb]
      exact .fetchFault hr hb
  · rw [step_of_not_running hr]
    exact .terminated hr

/-- Settles O44: no outcome of a step is a refusal. -/
theorem stepNeverRefuses : Obligations.StepNeverRefuses := by
  intro s r h
  have hc := step_cases s
  rw [h] at hc
  cases hc

/-- Settles O45: `issue` gives a state in which to execute to a running engine only. -/
theorem noStepFromATerminalState : Obligations.NoStepFromATerminalState := fun _ => step_of_not_running

/-- Settles O42: each faulting shape comes from a running engine, leaves the run state `Faulted` with its record and the sink
alone, and no step exists from there. -/
theorem faultIsTerminal : Obligations.FaultIsTerminal := by
  intro s left record h
  suffices hs : s.run = .running ∧ left.run = .faulted record ∧ left.sink = s.sink by
    obtain ⟨hr, hleft, hsink⟩ := hs
    have hterm : step left = .fault (.terminated left.run) := step_of_not_running (by rw [hleft]; exact nofun)
    exact ⟨hr, hleft, hleft ▸ hterm, hsink⟩
  have hc := step_cases s
  rw [h] at hc
  cases hc with
  | fetchFault hr => exact ⟨hr, rfl, rfl⟩
  | illegal w reason hf => exact ⟨hf.running, rfl, rfl⟩
  | loadFault w i a width hf => exact ⟨hf.running, rfl, rfl⟩
  | storeFault w i a width hf => exact ⟨hf.running, rfl, rfl⟩
  | misaligned w i u hf hd he =>
    obtain ⟨-, -, -, hsink, -⟩ := exec_next_keeps he
    exact ⟨hf.running, rfl, hsink⟩

/-- That a step ends in `Faulted` needs only its answer: the run state and the sink left follow. -/
theorem stepFaults_iff (s : State) (record : FaultRecord) :
    StepFaults s record ↔ ∃ left, step s = .fault (.raised record left) := by
  constructor
  · rintro ⟨left, h, -, -⟩
    exact ⟨left, h⟩
  · rintro ⟨left, h⟩
    obtain ⟨-, hleft, -, hsink⟩ := faultIsTerminal s left record h
    exact ⟨left, h, hleft, hsink⟩

/-- Between steps, a run that goes on has written no sink. -/
theorem State.Inv.sink_of_running {s : State} (hinv : s.Inv) (hr : s.run = .running) : s.sink = none := by
  rcases hinv.runSink with ⟨-, hsink⟩ | ⟨hhalted, -⟩
  · exact hsink
  · rw [hr] at hhalted
    cases hhalted

/-- Settles O54: a faulting step began `Running`, where the invariant has no sink, and leaves the sink alone. -/
theorem faultedRunWritesNoSink : Obligations.FaultedRunWritesNoSink := by
  intro s left record hinv h
  obtain ⟨hr, hleft, -, hsink⟩ := faultIsTerminal s left record h
  exact ⟨hsink.trans (hinv.sink_of_running hr), by rw [State.outcome, hleft]⟩

/-! ## What the execute stage answers, by what the instruction is -/

/-- A jump that links answers the link written and the jump asked for (46_jumps R270, R271). -/
theorem exec_of_link {i : Instr} {s : State} {rd : Reg} {target : Word} (hj : i.jumpTarget s = some target)
    (hd : i.dest = some rd) : exec i s = .next ((s.writeReg rd (linkOf s.pc)).jumpTo target) := by
  have hc := exec_cases i s
  generalize exec i s = r at hc ⊢
  cases hc with
  | link rd' target' hd' hj' =>
    cases hd.symm.trans hd'
    cases hj.symm.trans hj'
    rfl
  | exit he => rw [he] at hd; cases hd
  | _ => simp_all

/-- A taken branch answers the jump asked for and nothing else (45_branches R250). -/
theorem exec_of_taken {i : Instr} {s : State} {target : Word} (hj : i.jumpTarget s = some target)
    (hd : i.dest = none) : exec i s = .next (s.jumpTo target) := by
  have hc := exec_cases i s
  generalize exec i s = r at hc ⊢
  cases hc with
  | taken target' hd' hj' =>
    cases hj.symm.trans hj'
    rfl
  | exit he => rw [he] at hj; cases hj
  | _ => simp_all

/-- A load out of bounds raises its fault (43_loads R210). -/
theorem exec_of_load_outOfBounds {i : Instr} {s : State} {a : Word} {width : Width}
    (hl : i.loadAccess s = some (a, width)) (hb : ¬ s.inBounds a width) :
    exec i s = raise (.memory .load s.pc a) s := by
  have hc := exec_cases i s
  generalize exec i s = r at hc ⊢
  cases hc with
  | loadFault a' width' hl' =>
    cases hl.symm.trans hl'
    rfl
  | result rd v hd hj hst hin => exact absurd (hin a width hl) hb
  | exit he => rw [he] at hl; cases hl
  | _ => simp_all

/-- A store out of bounds raises its fault (44_stores R230). -/
theorem exec_of_store_outOfBounds {i : Instr} {s : State} {a : Word} {width : Width}
    (hst : i.storeAccess s = some (a, width)) (hb : ¬ s.inBounds a width) :
    exec i s = raise (.memory .store s.pc a) s := by
  have hc := exec_cases i s
  generalize exec i s = r at hc ⊢
  cases hc with
  | storeFault a' width' hst' =>
    cases hst.symm.trans hst'
    rfl
  | store a' width' v hd hj hst' hl hin =>
    cases hst.symm.trans hst'
    exact absurd hin hb
  | exit he => rw [he] at hst; cases hst
  | _ => simp_all

/-- A jump or taken branch completes, with its target as the next pc. -/
theorem exec_of_jumpTarget {i : Instr} {s : State} {target : Word} (hj : i.jumpTarget s = some target) :
    ∃ u, exec i s = .next u ∧ u.nextPc = target := by
  cases hd : i.dest with
  | none => exact ⟨_, exec_of_taken hj hd, by simp [State.nextPc]⟩
  | some rd => exact ⟨_, exec_of_link hj hd, by simp [State.nextPc]⟩

/-- A load or store neither jumps nor branches. -/
theorem jumpTarget_of_access {i : Instr} {s : State} (h : i.loadAccess s ≠ none ∨ i.storeAccess s ≠ none) :
    i.jumpTarget s = none := by
  have hc := exec_cases i s
  generalize exec i s = r at hc
  cases hc with
  | link rd target hd hj hst hl => exact absurd hl (h.resolve_right (· hst))
  | taken target hd hj hst hl => exact absurd hl (h.resolve_right (· hst))
  | exit he => rw [he]; rfl
  | result rd v hd hj => exact hj
  | none hd hj => exact hj
  | store a width v hd hj => exact hj
  | loadFault a width hl hst hj => exact hj
  | storeFault a width hst hl hj => exact hj

/-! ## The causes of a memory fault -/

theorem stepFaults_of_fetch_outOfBounds {s : State} (hr : s.run = .running) (hb : s.memSize < s.pc.toNat + 4) :
    StepFaults s (.memory .fetch s.pc s.pc) :=
  (stepFaults_iff s _).mpr ⟨_, step_of_fetch_outOfBounds hr (Nat.not_le.mpr hb)⟩

theorem stepFaults_of_load_outOfBounds {s : State} {w a : Word} {i : Instr} {width : Width} (hf : s.Fetches w)
    (hd : decodeWord w = .ok i) (hl : i.loadAccess s = some (a, width)) (hb : s.memSize < a.toNat + width.bytes) :
    StepFaults s (.memory .load s.pc a) := by
  have he := exec_of_load_outOfBounds (s := s.beginCycle) ((loadAccess_beginCycle i s).trans hl) (Nat.not_le.mpr hb)
  exact (stepFaults_iff s _).mpr ⟨_, by rw [step_of_decode hf hd, he, finish_raise]; rfl⟩

theorem stepFaults_of_store_outOfBounds {s : State} {w a : Word} {i : Instr} {width : Width} (hf : s.Fetches w)
    (hd : decodeWord w = .ok i) (hst : i.storeAccess s = some (a, width)) (hb : s.memSize < a.toNat + width.bytes) :
    StepFaults s (.memory .store s.pc a) := by
  have he := exec_of_store_outOfBounds (s := s.beginCycle) ((storeAccess_beginCycle i s).trans hst) (Nat.not_le.mpr hb)
  exact (stepFaults_iff s _).mpr ⟨_, by rw [step_of_decode hf hd, he, finish_raise]; rfl⟩

theorem stepFaults_of_misaligned_jump {s : State} {w target : Word} {i : Instr} (hf : s.Fetches w)
    (hd : decodeWord w = .ok i) (hj : i.jumpTarget s = some target) (hmis : ¬ aligned target) :
    StepFaults s (.alignment s.pc target) := by
  obtain ⟨u, he, rfl⟩ := exec_of_jumpTarget ((jumpTarget_beginCycle i s).trans hj)
  exact stepFaults_of_exec_misaligned hf hd he hmis

/-- Settles O41: one lemma per stage, each for a state in which no earlier stage faults. -/
theorem firstFaultInStageOrder : Obligations.FirstFaultInStageOrder := by
  intro s hr
  exact ⟨stepFaults_of_fetch_outOfBounds hr, fun w hf => ⟨fun reason => stepFaults_of_illegal hf,
    fun i a width => stepFaults_of_load_outOfBounds hf, fun i a width => stepFaults_of_store_outOfBounds hf,
    fun i target => stepFaults_of_misaligned_jump hf⟩⟩

/-- Settles O43: the decode and memory faults leave the state the cycle began in; the alignment fault leaves the executed
instruction's state advanced, whose one register result is the link of a jump that has one. -/
theorem stateAFaultLeaves : Obligations.StateAFaultLeaves := by
  intro s left record h
  have hc := step_cases s
  rw [h] at hc
  cases hc with
  | fetchFault => exact ⟨rfl, rfl, rfl, rfl⟩
  | illegal => exact ⟨rfl, rfl, rfl, rfl⟩
  | loadFault => exact ⟨rfl, rfl, rfl, rfl⟩
  | storeFault => exact ⟨rfl, rfl, rfl, rfl⟩
  | misaligned w i u hf hd he hmis =>
    refine ⟨rfl, rfl, hmis, fun w' i' rd hf' hd' hj hdest => ?_⟩
    obtain rfl := hf.unique hf'
    obtain rfl := Except.ok.inj (hd.symm.trans hd')
    have hu := Host.Outcome.next.inj (he.symm.trans (exec_of_link ((jumpTarget_beginCycle i s).trans hj) hdest))
    obtain ⟨hreg, -, -, -⟩ := writeReg_frame s.beginCycle rd (linkOf s.pc)
    change RegSet s u rd (s.pc + 4#32)
    rw [hu]
    exact hreg

/-- Settles O40: the shapes that raise a memory fault are the three accesses out of bounds, and each is raised in that case. -/
theorem memoryFaultCausesByAccess : Obligations.MemoryFaultCausesByAccess := by
  intro s addr hr
  refine ⟨⟨?_, ?_⟩, ⟨?_, ?_⟩, ⟨?_, ?_⟩, fun access left h => ?_⟩
  · rintro ⟨left, h, -, -⟩
    have hc := step_cases s
    rw [h] at hc
    cases hc with
    | fetchFault hr hb => exact ⟨rfl, Nat.not_le.mp hb⟩
  · rintro ⟨rfl, hb⟩
    exact stepFaults_of_fetch_outOfBounds hr hb
  · rintro ⟨left, h, -, -⟩
    have hc := step_cases s
    rw [h] at hc
    cases hc with
    | loadFault w i a width hf hd hl hb => exact ⟨w, i, width, hf, hd, hl, Nat.not_le.mp hb⟩
  · rintro ⟨w, i, width, hf, hd, hl, hb⟩
    exact stepFaults_of_load_outOfBounds hf hd hl hb
  · rintro ⟨left, h, -, -⟩
    have hc := step_cases s
    rw [h] at hc
    cases hc with
    | storeFault w i a width hf hd hst hb => exact ⟨w, i, width, hf, hd, hst, Nat.not_le.mp hb⟩
  · rintro ⟨w, i, width, hf, hd, hst, hb⟩
    exact stepFaults_of_store_outOfBounds hf hd hst hb
  · obtain ⟨-, -, hregs, hmem⟩ := stateAFaultLeaves s left _ h
    exact ⟨hregs, hmem⟩

/-- Settles O39: without a jump the next pc is `pc + 4`, which is aligned like the pc; with one it is the target. -/
theorem alignmentFaultOnlyByJumps : Obligations.AlignmentFaultOnlyByJumps := by
  intro s w i target hf hd ha
  have hcause : StepFaults s (.alignment s.pc target) → i.jumpTarget s = some target ∧ ¬ aligned target := by
    rintro ⟨left, h, -, -⟩
    have hc := step_cases s
    rw [h] at hc
    cases hc with
    | misaligned w' i' u hf' hd' he hmis =>
      obtain rfl := hf.unique hf'
      obtain rfl := Except.ok.inj (hd.symm.trans hd')
      have hpc := nextPc_of_exec he
      cases hj : i.jumpTarget s with
      | none =>
        rw [hj] at hpc
        exact absurd (hpc ▸ aligned_add_four ha) hmis
      | some target' =>
        rw [hj] at hpc
        exact ⟨congrArg some hpc.symm, hmis⟩
  refine ⟨⟨hcause, fun ⟨hj, hmis⟩ => stepFaults_of_misaligned_jump hf hd hj hmis⟩, fun haccess hfault => ?_⟩
  obtain ⟨hj, -⟩ := hcause hfault
  rw [jumpTarget_of_access haccess] at hj
  cases hj

end Sys2Proof.Machine
end

section
/-! PROOFS. The undefined slots as numbers of the word, table by table, and the decode faults they raise (30_encoding R101,
R112 to R119; 48_system R301; 60_exceptions R312). -/

namespace Sys2Proof

/-! ## The undefined slots of each table -/

theorem dispatchOp_eq_none_iff (f3 : BitVec 3) (f7 : BitVec 7) :
    dispatchOp f3 f7 (f7.getLsbD 5) = none ↔
      f7.toNat ≠ 0x00 ∧ f7.toNat ≠ 0x20 ∨ f7.toNat = 0x20 ∧ f3.toNat ≠ 0 ∧ f3.toNat ≠ 5 := by
  by_cases h0 : f7 = 0x00#7
  · subst h0
    revert f3
    decide
  · by_cases h20 : f7 = 0x20#7
    · subst h20
      revert f3
      decide
    · have hnone : dispatchOp f3 f7 (f7.getLsbD 5) = none := if_neg (not_or.mpr ⟨h0, h20⟩)
      have h0' : f7.toNat ≠ 0x00 := fun h => h0 (eq_ofNat_of_toNat_eq h)
      have h20' : f7.toNat ≠ 0x20 := fun h => h20 (eq_ofNat_of_toNat_eq h)
      exact iff_of_true hnone (.inl ⟨h0', h20'⟩)

/-- `instr[31:26]`, the upper six bits of `funct7`, as a number. -/
theorem funct6_eq_iff (f7 : BitVec 7) (f6 : BitVec 6) : f7.extractLsb' 1 6 = f6 ↔ f7.toNat / 2 = f6.toNat := by
  rw [← BitVec.toNat_inj, BitVec.extractLsb'_toNat, Nat.shiftRight_eq_div_pow]
  omega

theorem dispatchOpImm_eq_none_iff (f3 : BitVec 3) (f7 : BitVec 7) :
    dispatchOpImm f3 f7 = none ↔
      f3.toNat = 1 ∧ f7.toNat / 2 ≠ 0 ∨ f3.toNat = 5 ∧ f7.toNat / 2 ≠ 0 ∧ f7.toNat / 2 ≠ 16 := by
  unfold dispatchOpImm
  simp only [funct6_eq_iff]
  split
  case h_2 hf3 => simp [hf3]
  case h_6 hf3 => simp [hf3, ite_eq_iff]
  case h_9 =>
    have hlt : f3.toNat < 8 := f3.isLt
    interval_cases f3.toNat <;> contradiction
  all_goals next hf3 => simp [hf3]

theorem dispatchLoad_eq_none_iff (f3 : BitVec 3) :
    dispatchLoad f3 = none ↔ f3.toNat = 3 ∨ f3.toNat = 6 ∨ f3.toNat = 7 := by
  revert f3
  decide

theorem dispatchStore_eq_none_iff (f3 : BitVec 3) : dispatchStore f3 = none ↔ 3 ≤ f3.toNat := by
  revert f3
  decide

theorem dispatchBranch_eq_none_iff (f3 : BitVec 3) :
    dispatchBranch f3 = none ↔ f3.toNat = 2 ∨ f3.toNat = 3 := by
  revert f3
  decide

theorem dispatchJalr_eq_none_iff (f3 : BitVec 3) : dispatchJalr f3 = none ↔ f3.toNat ≠ 0 := by
  revert f3
  decide

/-- The one slot of SYSTEM is ECALL's, and ECALL has the one word (30_encoding R118). -/
theorem dispatchSystem_eq_none_iff {w : Word} (hop : opcodeOf w = 0x73#7) :
    dispatchSystem (recordOf .system w) = none ↔ w ≠ 0x00000073#32 := by
  constructor
  · rintro hnone rfl
    exact absurd hnone (by decide)
  · intro hw
    rw [dispatchSystem, ite_eq_right_iff]
    intro hslot
    obtain ⟨-, henc⟩ := encodesAs_of_slot (w := w) (c := .system) (by rw [hop]; rfl) (if_pos hslot)
    exact absurd henc.symm hw

/-! ## The decoder's answer -/

/-- What 60_exceptions R312 calls an undefined slot, class by class, in numbers of the word. -/
def UndefinedSlot (w : Word) : Prop :=
  (w.toNat % 128 = 0x33 ∧ (w.toNat / 2 ^ 25 ≠ 0x00 ∧ w.toNat / 2 ^ 25 ≠ 0x20 ∨
    w.toNat / 2 ^ 25 = 0x20 ∧ w.toNat / 2 ^ 12 % 8 ≠ 0 ∧ w.toNat / 2 ^ 12 % 8 ≠ 5)) ∨
  (w.toNat % 128 = 0x13 ∧ (w.toNat / 2 ^ 12 % 8 = 1 ∧ w.toNat / 2 ^ 25 / 2 ≠ 0 ∨
    w.toNat / 2 ^ 12 % 8 = 5 ∧ w.toNat / 2 ^ 25 / 2 ≠ 0 ∧ w.toNat / 2 ^ 25 / 2 ≠ 16)) ∨
  (w.toNat % 128 = 0x03 ∧ (w.toNat / 2 ^ 12 % 8 = 3 ∨ w.toNat / 2 ^ 12 % 8 = 6 ∨ w.toNat / 2 ^ 12 % 8 = 7)) ∨
  (w.toNat % 128 = 0x23 ∧ 3 ≤ w.toNat / 2 ^ 12 % 8) ∨
  (w.toNat % 128 = 0x63 ∧ (w.toNat / 2 ^ 12 % 8 = 2 ∨ w.toNat / 2 ^ 12 % 8 = 3)) ∨
  (w.toNat % 128 = 0x67 ∧ w.toNat / 2 ^ 12 % 8 ≠ 0) ∨
  (w.toNat % 128 = 0x73 ∧ w ≠ 0x00000073#32)

/-- In the class of the word, the dispatch table has no entry exactly where R312 says. -/
theorem dispatchSlot_eq_none_iff {w : Word} {c : Cls} (hc : clsOf (opcodeOf w) = some c) :
    dispatchSlot (recordOf c w) = none ↔ UndefinedSlot w := by
  have hop := opcode_of_clsOf hc
  have hnum : w.toNat % 128 = (opcodeOf w).toNat := (opcodeOf_toNat w).symm
  rw [hop] at hnum
  simp only [UndefinedSlot, hnum, ← funct3Of_toNat, ← funct7Of_toNat]
  cases c
  case op =>
    rw [dispatchSlot_recordOf_op, dispatchOp_eq_none_iff]
    simp
  case opImm =>
    rw [dispatchSlot_recordOf_opImm, dispatchOpImm_eq_none_iff]
    simp
  case load => exact (dispatchLoad_eq_none_iff _).trans (by simp [recordOf, Cls.hasFunct3])
  case store => exact (dispatchStore_eq_none_iff _).trans (by simp [recordOf, Cls.hasFunct3])
  case branch => exact (dispatchBranch_eq_none_iff _).trans (by simp [recordOf, Cls.hasFunct3])
  case jalr => exact (dispatchJalr_eq_none_iff _).trans (by simp [recordOf, Cls.hasFunct3])
  case system => exact (dispatchSystem_eq_none_iff hop).trans (by simp)
  case lui | auipc | jal => simp [dispatchSlot, recordOf]

theorem decodeWord_undefinedSlot_iff_number (w : Word) : decodeWord w = .error .undefinedSlot ↔
    w.toNat % 128 ∈ [0x33, 0x13, 0x03, 0x67, 0x73, 0x23, 0x63, 0x37, 0x17, 0x6F] ∧ UndefinedSlot w := by
  rw [decodeWord_undefinedSlot_iff, ← opcodeOf_toNat, ← not_not (a := _ ∈ _), ← clsOf_eq_none_iff]
  cases hc : clsOf (opcodeOf w) with
  | none => simp
  | some c => simp [dispatchSlot_eq_none_iff hc]

theorem decodeWord_of_undefined_system {w : Word} (hop : w &&& 0x0000007F#32 = 0x00000073#32)
    (hw : w ≠ 0x00000073#32) : decodeWord w = .error .undefinedSlot := by
  have hopw : opcodeOf w = 0x73#7 := opcodeOf_of_opcodeRow hop
  exact (decodeWord_undefinedSlot_iff w).mpr ⟨.system, by rw [hopw]; rfl, (dispatchSystem_eq_none_iff hopw).mpr hw⟩

/-- Settles O37: SYSTEM's one slot has ECALL's word, so any other word of its opcode is an undefined slot. -/
theorem otherSystemWordsFault : Obligations.OtherSystemWordsFault :=
  fun _ _ hf hop hw => Machine.stepFaults_of_illegal hf (decodeWord_of_undefined_system hop hw)

/-- Settles O6: the decoder's two errors are the two conditions on numbers, so any other word is an instruction; what a decode
fault leaves is said of every fault in `stateAFaultLeaves`. -/
theorem decodeFaultCausesByReason : Obligations.DecodeFaultCausesByReason := by
  intro s w hf
  refine ⟨fun hunknown => Machine.stepFaults_of_illegal hf ((decodeWord_unknownOpcode_iff_notMem w).mpr hunknown),
    fun hknown hslot => Machine.stepFaults_of_illegal hf ((decodeWord_undefinedSlot_iff_number w).mpr ⟨hknown, hslot⟩),
    fun hknown hslot => ?_, fun reason left h => ?_⟩
  · cases hd : decodeWord w with
    | ok i => exact ⟨i, rfl⟩
    | error reason =>
      cases reason with
      | unknownOpcode => exact absurd hknown ((decodeWord_unknownOpcode_iff_notMem w).mp hd)
      | undefinedSlot => exact absurd ((decodeWord_undefinedSlot_iff_number w).mp hd).2 hslot
  · obtain ⟨-, hleft⟩ := Machine.stateAFaultLeaves s left _ h
    exact hleft

end Sys2Proof
end

section
/-! PROOFS. A step that answers a next state: what it keeps, when it halts, and what the halt writes (40_control_loop R148,
R150; 48_system R300; 70_reset R355, R356). -/

namespace Sys2Proof.Machine

/-! ## What an executed instruction does to memory and to the request to halt -/

/-- An executed instruction leaves memory alone, or stores at its own address in bounds. -/
theorem exec_next_mem {i : Instr} {s u : State} (h : exec i s = .next u) :
    u.mem = s.mem ∨ ∃ a width v, i.storeAccess s = some (a, width) ∧ s.inBounds a width ∧
      u.mem = Memory.writeBytes s.mem a.toNat (storeBytes width v) := by
  have hc := exec_cases i s
  rw [h] at hc
  cases hc with
  | store a width v hd hj hst hl hb => exact .inr ⟨a, width, v, hst, hb, rfl⟩
  | result => exact .inl (State.writeReg_mem ..)
  | link => exact .inl (State.writeReg_mem ..)
  | taken => exact .inl rfl
  | none => exact .inl rfl
  | exit => exact .inl rfl

theorem exec_next_mem_wf {i : Instr} {s u : State} (h : exec i s = .next u) (hm : Memory.wf s.mem) : Memory.wf u.mem := by
  rcases exec_next_mem h with hu | ⟨a, width, v, -, -, hu⟩ <;> rw [hu]
  · exact hm
  · exact Memory.writeBytes_wf hm _ _

theorem exec_next_mem_bounded {i : Instr} {s u : State} (h : exec i s = .next u) (hm : ∀ c ∈ s.mem, c.1 < s.memSize) :
    ∀ c ∈ u.mem, c.1 < s.memSize := by
  rcases exec_next_mem h with hu | ⟨a, width, v, -, hb, hu⟩ <;> rw [hu]
  · exact hm
  · exact Memory.writeBytes_below hm (by rw [storeBytes_length]; exact hb)

/-- Only an ECALL under its exit condition asks for the halt (48_system R300). -/
theorem exec_haltReq_iff {i : Instr} {s u : State} (h : exec i s = .next u) :
    u.haltReq = true ↔ s.haltReq = true ∨ i = .ecall ∧ s.exitCondition = true := by
  have hc := exec_cases i s
  rw [h] at hc
  cases hc with
  | exit he hx => simp [he, hx]
  | none hd hj hst hl he =>
    have hno : ¬ (i = .ecall ∧ s.exitCondition = true) := fun ⟨hi, hx⟩ => by simp [he hi] at hx
    simp [hno]
  | result rd v hd hj hst hl he => simp [he]
  | link rd target hd hj hst hl he => simp [he]
  | taken target hd hj hst hl he => simp [he]
  | store a width v hd hj hst hl hb he => simp [he]

/-! ## The halt stage -/

theorem State.haltStage_run (s : State) : s.haltStage.run = if s.haltReq then .halted else s.run := by
  unfold State.haltStage
  split <;> rfl

theorem State.haltStage_sink (s : State) : s.haltStage.sink = if s.haltReq then some s.dump else s.sink := by
  unfold State.haltStage
  split <;> rfl

/-- The halt stage writes no register, so what it dumps is what its state holds. -/
@[simp] theorem State.haltStage_dump (s : State) : s.haltStage.dump = s.dump :=
  State.dump_congr fun r => State.haltStage_readReg s r

/-! ## The run state and the sink after a step -/

/-- After a step the run has halted with its dump written, if the instruction asked for it, and otherwise goes on with the
sink as before. -/
theorem step_next_run_sink {s u : State} {i : Instr} {w : Word} (hf : s.Fetches w) (he : exec i s.beginCycle = .next u) :
    (u.haltReq = true ∧ u.advance.haltStage.run = .halted ∧ u.advance.haltStage.sink = some u.advance.haltStage.dump) ∨
    (u.haltReq = false ∧ u.advance.haltStage.run = .running ∧ u.advance.haltStage.sink = s.sink) := by
  obtain ⟨-, hrun, -, hsink, -⟩ := exec_next_keeps he
  rw [State.haltStage_run, State.haltStage_sink, State.haltStage_dump, State.advance_haltReq, State.advance_run,
    State.advance_sink, hrun, hsink, State.beginCycle_run, hf.running, State.beginCycle_sink]
  cases u.haltReq <;> simp

/-- Settles O47: the executed instruction keeps x0's slot, the canonical form and the bound; the advance stage clears the
latches and the alignment check passed; the halt stage writes the sink exactly when it halts. -/
theorem stepKeepsTheInvariant : Obligations.StepKeepsTheInvariant := by
  intro s t hinv h
  obtain ⟨w, i, u, hf, -, he, ha, rfl⟩ := step_next_cases h
  obtain ⟨-, -, hsize, -, hx0⟩ := exec_next_keeps he
  exact {
    x0 := by simpa using hx0.trans hinv.x0
    pcAligned := by simpa using ha
    branched := by simp
    target := by simp
    haltReq := by simp
    memCanonical := by simpa using exec_next_mem_wf he hinv.memCanonical
    memBounded := by simpa [hsize] using exec_next_mem_bounded he hinv.memBounded
    runSink := by
      rcases step_next_run_sink hf he with ⟨-, hrun, hdump⟩ | ⟨-, hrun, hkept⟩
      · exact .inr ⟨hrun, hdump⟩
      · exact .inl ⟨hrun, hkept.trans (hinv.sink_of_running hf.running)⟩ }

/-- Settles O48: no stage of a step writes the capacity. -/
theorem stepKeepsTheCapacity : Obligations.StepKeepsTheCapacity := by
  intro s t h
  obtain ⟨w, i, u, -, -, he, -, rfl⟩ := step_next_cases h
  obtain ⟨-, -, hsize, -, -⟩ := exec_next_keeps he
  exact (State.haltStage_memSize _).trans hsize

theorem encode_ecall : encode .ecall = 0x00000073#32 := by decide

/-- Settles O49: a step halts exactly when its instruction asked for it, which is an ECALL that exits, and ECALL has the one
word. -/
theorem onlyTheExitEcallHalts : Obligations.OnlyTheExitEcallHalts := by
  intro s t h
  obtain ⟨w, i, u, hf, hd, he, -, rfl⟩ := step_next_cases h
  have hreq : u.haltReq = true ↔ s.Fetches 0x00000073#32 ∧ (s.readReg 17 = 10#32 ∨ s.readReg 10 = 10#32) := by
    rw [exec_haltReq_iff he, exitCondition_iff]
    constructor
    · rintro (hno | ⟨rfl, hx⟩)
      · cases hno
      · obtain ⟨-, rfl⟩ := encodeOfDecodeIsIdentity w .ecall hd
        exact ⟨encode_ecall ▸ hf, hx⟩
    · rintro ⟨hecall, hx⟩
      obtain rfl := hf.unique hecall
      exact .inr ⟨Except.ok.inj (hd.symm.trans decodeWord_ecall), hx⟩
  rcases step_next_run_sink hf he with ⟨hhalt, hrun, -⟩ | ⟨hgo, hrun, hsink⟩
  · exact ⟨iff_of_true hrun (hreq.mp hhalt), fun hno => absurd hrun hno⟩
  · have hno : u.advance.haltStage.run ≠ .halted := by rw [hrun]; exact nofun
    have hreq' : u.haltReq ≠ true := by rw [hgo]; exact nofun
    exact ⟨iff_of_false hno (mt hreq.mpr hreq'), fun _ => ⟨hrun, hsink⟩⟩

theorem State.dump_getElem? (s : State) (r : Reg) {k : Nat} (hk : k < 4) :
    s.dump[4 * r.val + k]? = some ((s.readReg r).extractLsb' (8 * k) 8) := by
  have hlt : 4 * r.val + k < s.dump.length := by
    rw [State.dump_length]
    omega
  rw [List.getElem?_eq_getElem hlt, ← s.dump_getD r k hk 0#8, List.getD_eq_getElem _ _ hlt]

/-- Settles O50: the sink of a halting step is its state's dump. -/
theorem resultSinkFormat : Obligations.ResultSinkFormat := by
  intro s t h hhalted
  obtain ⟨w, i, u, hf, -, he, -, rfl⟩ := step_next_cases h
  rcases step_next_run_sink hf he with ⟨-, -, hsink⟩ | ⟨-, hrun, -⟩
  · exact ⟨_, hsink, State.dump_length _, fun r k hk => State.dump_getElem? _ r hk⟩
  · rw [hrun] at hhalted
    cases hhalted

/-! ## ECALL -/

/-- Settles O15: ECALL asks for the halt or changes nothing, and either way leaves everything but the request alone. -/
theorem ecallCompletes : Obligations.EcallCompletes := by
  intro s
  have hx := exitCondition_iff s
  by_cases hexit : s.exitCondition = true
  · exact ⟨s.requestHalt, congrArg _ (if_pos hexit), fun _ => rfl, fun _ => rfl, ⟨rfl, rfl, rfl, rfl⟩, rfl, rfl,
      iff_of_true rfl (.inr (hx.mp hexit))⟩
  · exact ⟨s, congrArg _ (if_neg hexit), fun _ => rfl, fun _ => rfl, ⟨rfl, rfl, rfl, rfl⟩, rfl, rfl,
      (or_iff_left (mt hx.mpr hexit)).symm⟩

/-- Settles O36: ECALL's execute stage changes at most the request to halt, so the step advances the pc by 4 and halts exactly
when the exit condition made the request. -/
theorem stepOnEcall : Obligations.StepOnEcall := by
  intro s hf ha
  obtain ⟨u, he, hregs, hbytes, -, -, -, hreq⟩ := ecallCompletes s.beginCycle
  have hpc : u.nextPc = s.pc + 4#32 := nextPc_of_exec he
  have hal : aligned u.nextPc := hpc ▸ aligned_add_four ha
  refine ⟨fun hexit => ?_, fun hno => ?_⟩
  · have hstep : step s = .next u.advance.haltStage := by
      rw [step_of_decode hf decodeWord_ecall, he, finish_next, retire_aligned hal]
    rcases step_next_run_sink hf he with ⟨-, hrun, hsink⟩ | ⟨hgo, -, -⟩
    · exact ⟨_, hstep, hrun, (State.haltStage_pc _).trans hpc, fun r => (State.haltStage_readReg _ r).trans (hregs r),
        fun k => (State.haltStage_byteAt _ k).trans (hbytes k), hsink⟩
    · rw [hreq.mpr (.inr hexit)] at hgo
      cases hgo
  · have hgo : u.haltReq = false := Bool.eq_false_iff.mpr fun h => (hreq.mp h).elim nofun hno
    exact hpc ▸ stepsTo_of_exec_next hf decodeWord_ecall he hal hgo ⟨hregs, hbytes⟩

end Sys2Proof.Machine
end

section
/-! PROOFS. Each instruction's execute stage completes with its result and its frame (41_alu_reg to 47_upper_imm). -/

namespace Sys2Proof.Machine

/-! ## One lemma per shape of the execute stage -/

/-- The instruction completes from `s` with `rd` set to `v` and nothing else changed. -/
def Answers (i : Instr) (s : State) (rd : Reg) (v : Word) : Prop :=
  ∃ t, exec i s = .next t ∧ RegSet s t rd v ∧ BytesKept s t ∧ ControlKept s t ∧ LatchesKept s t

theorem answers_of_writeResult {i : Instr} {s : State} {rd : Reg} {v v' : Word}
    (he : exec i s = writeResult s rd v) (hv : v = v') : Answers i s rd v' :=
  hv ▸ ⟨s.writeReg rd v, he, writeReg_frame s rd v⟩

/-- Settles O9: each execute stage is one register result, and the result is the one its rule words. -/
theorem registerRegisterFormsComplete : Obligations.RegisterRegisterFormsComplete := by
  intro s rd rs1 rs2
  simp only [← shamtOfReg_eq, ← boolToWord_ltSigned, ← boolToWord_ltUnsigned]
  exact ⟨answers_of_writeResult rfl rfl, answers_of_writeResult rfl rfl, answers_of_writeResult rfl rfl,
    answers_of_writeResult rfl rfl, answers_of_writeResult rfl rfl, answers_of_writeResult rfl rfl,
    answers_of_writeResult rfl rfl, answers_of_writeResult rfl rfl, answers_of_writeResult rfl rfl,
    answers_of_writeResult rfl rfl⟩

/-- Settles O10: each execute stage is one register result of x[rs1] and the extended immediate, the low five bits of the
amount, or the upper immediate. -/
theorem immediateFormsComplete : Obligations.ImmediateFormsComplete := by
  intro s rd rs1 imm amount imm20
  simp only [← shamtOfAmount_eq, ← upperImm_eq]
  have hslti : boolToWord (ltSigned (s.readReg rs1) (sext imm)) =
      if (s.readReg rs1).toInt < imm.toInt then 1#32 else 0#32 := by
    rw [boolToWord_ltSigned, sext_toInt _ (by decide)]
  exact ⟨answers_of_writeResult rfl rfl, answers_of_writeResult rfl hslti,
    answers_of_writeResult rfl (boolToWord_ltUnsigned _ _), answers_of_writeResult rfl rfl,
    answers_of_writeResult rfl rfl, answers_of_writeResult rfl rfl, answers_of_writeResult rfl rfl,
    answers_of_writeResult rfl rfl, answers_of_writeResult rfl rfl, answers_of_writeResult rfl rfl,
    answers_of_writeResult rfl rfl⟩

/-- A load in bounds is a register result of the extended value read, out of bounds a fault (43_loads R210). -/
theorem answers_of_loadTo (width : Width) (extend : Word → Word) {i : Instr} {s : State} {rd rs1 : Reg} {imm : BitVec 12}
    {v : Word} (he : exec i s = loadTo s rd rs1 imm width extend)
    (hv : extend (Memory.readLE s.mem (effAddr (s.readReg rs1) imm).toNat width) = v) :
    ((effAddr (s.readReg rs1) imm).toNat + width.bytes ≤ s.memSize → Answers i s rd v) ∧
      (s.memSize < (effAddr (s.readReg rs1) imm).toNat + width.bytes →
        exec i s = raise (.memory .load s.pc (effAddr (s.readReg rs1) imm)) s) := by
  rcases loadTo_cases s rd rs1 imm width extend with ⟨hin, hload⟩ | ⟨hout, hload⟩
  · exact ⟨fun _ => answers_of_writeResult (he.trans hload) hv, fun hover => absurd hin (Nat.not_le.mpr hover)⟩
  · exact ⟨fun hin => absurd hin hout, fun _ => he.trans hload⟩

/-- Settles O11: each execute stage is one `loadTo`; the extension reads back the one or two bytes the read put together. -/
theorem loadsCompleteInBounds : Obligations.LoadsCompleteInBounds := by
  intro s rd rs1 imm
  exact ⟨answers_of_loadTo .byte sextByte rfl (congrArg sext (setWidth_zext _ (by decide))),
    answers_of_loadTo .half sextHalf rfl (congrArg sext (setWidth_zext _ (by decide))),
    answers_of_loadTo .word id rfl rfl,
    answers_of_loadTo .byte zextByte rfl (congrArg zext (setWidth_zext _ (by decide))),
    answers_of_loadTo .half zextHalf rfl (congrArg zext (setWidth_zext _ (by decide)))⟩

/-- A store in bounds changes its bytes and nothing else, out of bounds it is a fault (44_stores R230). -/
theorem answers_of_storeFrom (width : Width) {i : Instr} {s : State} {rs1 rs2 : Reg} {imm : BitVec 12}
    (hm : Memory.wf s.mem) (he : exec i s = storeFrom s rs1 rs2 imm width) :
    ((effAddr (s.readReg rs1) imm).toNat + width.bytes ≤ s.memSize →
      ∃ t, exec i s = .next t ∧ RegsKept s t ∧
        BytesStored s t (effAddr (s.readReg rs1) imm).toNat width.bytes (s.readReg rs2) ∧ ControlKept s t ∧
        LatchesKept s t) ∧
      (s.memSize < (effAddr (s.readReg rs1) imm).toNat + width.bytes →
        exec i s = raise (.memory .store s.pc (effAddr (s.readReg rs1) imm)) s) := by
  rcases storeFrom_cases s rs1 rs2 imm width with ⟨hin, hstore⟩ | ⟨hout, hstore⟩
  · exact ⟨fun _ => ⟨_, he.trans hstore, fun _ => rfl, fun k => Memory.readByte_store hm _ k width _,
      ⟨rfl, rfl, rfl, rfl⟩, ⟨rfl, rfl, rfl⟩⟩, fun hover => absurd hin (Nat.not_le.mpr hover)⟩
  · exact ⟨fun hin => absurd hin hout, fun _ => he.trans hstore⟩

/-- Settles O12: each execute stage is one `storeFrom`. -/
theorem storesCompleteInBounds : Obligations.StoresCompleteInBounds := fun _ _ _ _ hm =>
  ⟨answers_of_storeFrom .byte hm rfl, answers_of_storeFrom .half hm rfl, answers_of_storeFrom .word hm rfl⟩

/-- A branch asks for its jump exactly when its condition holds, and changes nothing else (45_branches R250). -/
theorem answers_of_branchIf {i : Instr} {s : State} {c : Bool} {taken : Prop} {offset : BitVec 13}
    (he : exec i s = branchIf s c offset) (hc : c = true ↔ taken) :
    ∃ t, exec i s = .next t ∧ RegsKept s t ∧ BytesKept s t ∧ ControlKept s t ∧
      (taken → JumpAsked s t (relTarget s.pc offset)) ∧ (¬ taken → LatchesKept s t) := by
  cases c with
  | true =>
    exact ⟨_, he, fun _ => rfl, fun _ => rfl, ⟨rfl, rfl, rfl, rfl⟩, fun _ => ⟨rfl, rfl, rfl⟩,
      fun hnot => absurd (hc.mp rfl) hnot⟩
  | false =>
    exact ⟨_, he, fun _ => rfl, fun _ => rfl, ⟨rfl, rfl, rfl, rfl⟩, fun h => absurd (hc.mpr h) Bool.false_ne_true,
      fun _ => ⟨rfl, rfl, rfl⟩⟩

/-- Settles O13: each execute stage is one `branchIf` on its rule's condition. -/
theorem branchesComplete : Obligations.BranchesComplete := fun _ _ _ _ =>
  ⟨answers_of_branchIf rfl (condEq_iff _ _), answers_of_branchIf rfl (condNe_iff _ _),
    answers_of_branchIf rfl (condLt_iff _ _), answers_of_branchIf rfl (condGe_iff _ _),
    answers_of_branchIf rfl (condLtu_iff _ _), answers_of_branchIf rfl (condGeu_iff _ _)⟩

/-- A jump that links writes its link and asks for its jump, and changes nothing else (46_jumps). -/
theorem answers_of_linkJump {i : Instr} {s : State} {rd : Reg} {target target' : Word}
    (he : exec i s = .next ((s.writeReg rd (linkOf s.pc)).jumpTo target)) (ht : target = target') :
    ∃ t, exec i s = .next t ∧ RegSet s t rd (s.pc + 4#32) ∧ BytesKept s t ∧ ControlKept s t ∧ JumpAsked s t target' := by
  obtain ⟨hreg, hbytes, hcontrol, -, -, hhalt⟩ := writeReg_frame s rd (linkOf s.pc)
  exact ⟨_, he, hreg, hbytes, hcontrol, rfl, ht, hhalt⟩

/-- JALR's target is the sum, less one when it is odd (46_jumps R271). -/
theorem jalrTarget_eq (base : Word) (imm : BitVec 12) :
    jalrTarget base imm = if (base + sext imm).toNat % 2 = 1 then base + sext imm - 1#32 else base + sext imm := by
  rw [jalrTarget, clearBit0_eq]
  generalize base + sext imm = sum
  split <;> bv_omega

/-- Settles O14: each execute stage links and asks for its target, which JALR computes from x[rs1] before the link. -/
theorem jumpsComplete : Obligations.JumpsComplete := fun _ _ _ _ _ =>
  ⟨answers_of_linkJump rfl rfl, answers_of_linkJump rfl (jalrTarget_eq _ _)⟩

/-- Settles O20: SUB reads the sum ADD wrote, and the second operand, which ADD left alone. -/
theorem subUndoesAdd : Obligations.SubUndoesAdd := by
  intro s t u rd rd' rs1 rs2 hrd hrd' hne hadd hsub
  obtain rfl : s.writeReg rd (s.readReg rs1 + s.readReg rs2) = t := Host.Outcome.next.inj hadd
  obtain rfl := Host.Outcome.next.inj hsub
  rw [State.readReg_writeReg_self _ _ hrd', State.readReg_writeReg_self _ _ hrd,
    State.readReg_writeReg_of_ne _ _ hne.symm, BitVec.add_sub_cancel]

end Sys2Proof.Machine
end

section
/-! PROOFS. Memory as data: what a canonical list says of each address, and what a write changes (20_memory R50 to R55). -/

namespace Sys2Proof.Machine

/-! ## The canonical form -/

/-- The canonical form lists an address exactly when its byte differs from the unlisted one, and lists that byte. -/
theorem Memory.mem_iff_readByte {m : Memory} (hm : Memory.wf m) (c : Host.Cell) :
    c ∈ m ↔ c.2 ≠ Config.unlistedByte ∧ Memory.readByte m c.1 = c.2 := by
  induction m with
  | nil => simp [eq_comm]
  | cons d m ih =>
    obtain ⟨hsorted, hlisted⟩ := hm
    obtain ⟨hd, hsorted'⟩ := List.pairwise_cons.mp hsorted
    have ih := ih ⟨hsorted', fun e he => hlisted e (List.mem_cons_of_mem d he)⟩
    rw [Memory.readByte_cons, List.mem_cons]
    by_cases ha : d.1 = c.1
    · have hnotin : c ∉ m := fun hc => absurd (hd c hc) (by omega)
      rw [if_pos ha, or_iff_left hnotin]
      constructor
      · rintro rfl
        exact ⟨hlisted c List.mem_cons_self, rfl⟩
      · rintro ⟨-, hb⟩
        exact Prod.ext ha.symm hb.symm
    · have hne : c ≠ d := fun h => ha (by rw [h])
      rw [if_neg ha, or_iff_right hne, ih]

/-- Settles O24: canonical memories that read alike list the same cells, and each lists them in rising order. -/
theorem canonicalMemoriesAreEqualWhenTheyReadAlike : Obligations.CanonicalMemoriesAreEqualWhenTheyReadAlike := by
  intro m m' hm hm' hread
  have hcells : ∀ c, c ∈ m ↔ c ∈ m' := fun c => by
    rw [Memory.mem_iff_readByte hm, Memory.mem_iff_readByte hm', hread]
  have hnodup : ∀ {l : Memory}, Memory.wf l → l.Nodup := fun hl => hl.1.imp fun hlt heq => by
    rw [heq] at hlt
    exact lt_irrefl _ hlt
  have hperm : m.Perm m' := (List.perm_ext_iff_of_nodup (hnodup hm) (hnodup hm')).mpr hcells
  exact hperm.eq_of_pairwise (fun c d _ _ hcd hdc => absurd hcd (Nat.lt_asymm hdc)) hm.1 hm'.1

/-! ## MemWrite -/

/-- Settles O23: in bounds the memory written is `writeBytes` of the value's low bytes; past the capacity it is the store's
fault. -/
theorem memWriteStoresItsBytesOnly : Obligations.MemWriteStoresItsBytesOnly := by
  intro s addr width v hm
  constructor
  · intro hin
    exact ⟨_, State.memWrite_inBounds v hin, fun k => Memory.readByte_store hm _ k width v, rfl, ⟨rfl, rfl, rfl, rfl⟩,
      ⟨rfl, rfl, rfl⟩, Memory.writeBytes_wf hm _ _⟩
  · intro hout
    exact State.memWrite_outOfBounds v (Nat.not_le.mpr hout)

/-! ## A word stored, then read -/

/-- Byte `k` of what was stored. -/
theorem BytesStored.byteAt_add {s t : State} {a n k : Nat} {v : Word} (h : BytesStored s t a n v) (hk : k < n) :
    t.byteAt (a + k) = v.extractLsb' (8 * k) 8 := by
  rw [h (a + k), if_pos (by omega), Nat.add_sub_cancel_left]

/-- LH answers the sign-extended halfword whose two bytes stand at its address (43_loads R212). -/
theorem exec_lh_of_bytes {t : State} {rd rs1 : Reg} {imm : BitVec 12} {v : Word} {start : Nat} (hrd : rd ≠ 0)
    (hin : (effAddr (t.readReg rs1) imm).toNat + 2 ≤ t.memSize)
    (h0 : t.byteAt (effAddr (t.readReg rs1) imm).toNat = v.extractLsb' start 8)
    (h1 : t.byteAt ((effAddr (t.readReg rs1) imm).toNat + 1) = v.extractLsb' (start + 8) 8) :
    ∃ u, exec (.lh rd rs1 imm) t = .next u ∧ u.readReg rd = (v.extractLsb' start 16).signExtend 32 := by
  obtain ⟨-, ⟨hlh, -⟩, -, -, -⟩ := loadsCompleteInBounds t rd rs1 imm
  obtain ⟨u, he, ⟨hval, -, -⟩, -, -, -⟩ := hlh hin
  exact ⟨u, he, by rw [hval hrd, h0, h1, extract_split v start 8 8]⟩

/-- Settles O21: the store leaves the base register and the capacity, and puts the word's four bytes where the two loads read
theirs. -/
theorem halvesOfAStoredWord : Obligations.HalvesOfAStoredWord := by
  intro s t rs1 rs2 rd imm imm2 hm hrd haddr2 hin hwrap hsw
  obtain ⟨-, -, hstore, -⟩ := storesCompleteInBounds s rs1 rs2 imm hm
  obtain ⟨t', ht', hregs, hbytes, ⟨-, -, hsize, -⟩, -⟩ := hstore hin
  obtain rfl := Host.Outcome.next.inj (ht'.symm.trans hsw)
  have hnum2 : (effAddr (s.readReg rs1) imm2).toNat = (effAddr (s.readReg rs1) imm).toNat + 2 := by
    rw [haddr2]
    bv_omega
  constructor
  · refine exec_lh_of_bytes hrd ?_ ?_ ?_ <;> rw [hregs rs1]
    · omega
    · exact hbytes.byteAt_add (k := 0) (by decide)
    · exact hbytes.byteAt_add (k := 1) (by decide)
  · refine exec_lh_of_bytes hrd ?_ ?_ ?_ <;> rw [hregs rs1, hnum2]
    · omega
    · exact hbytes.byteAt_add (k := 2) (by decide)
    · exact hbytes.byteAt_add (k := 3) (by decide)

end Sys2Proof.Machine
end

section
/-! PROOFS. Frames over all instructions: what an instruction may write, and what it may depend on (10_state R21 to R28). -/

namespace Sys2Proof.Machine

/-! ## What may change -/

/-- Settles O16: only the two shapes with a register result write a register, and it is the destination. -/
theorem onlyTheDestinationRegisterChanges : Obligations.OnlyTheDestinationRegisterChanges := by
  intro i s t h r hr
  have hc := exec_cases i s
  rw [h] at hc
  cases hc with
  | result rd v hd =>
    exact State.readReg_writeReg_of_ne s v fun hrd => hr (hrd ▸ hd)
  | link rd target hd =>
    exact State.readReg_writeReg_of_ne s (linkOf s.pc) fun hrd => hr (hrd ▸ hd)
  | taken => rfl
  | none => rfl
  | store => rfl
  | exit => rfl

/-- Settles O19: x0 reads 0 in every state, no instruction reaches its slot, and a register other than the destination x0 reads
as before. -/
theorem zeroRegisterStaysZero : Obligations.ZeroRegisterStaysZero := by
  intro i s t h
  obtain ⟨-, -, -, -, hslot⟩ := exec_next_keeps h
  refine ⟨State.readReg_zero t, hslot, fun hdest r => ?_⟩
  by_cases hr : r = 0
  · rw [hr, State.readReg_zero, State.readReg_zero]
  · exact onlyTheDestinationRegisterChanges i s t h r fun hd => hr (Option.some.inj (hd.symm.trans hdest))

/-- Settles O17: memory is left alone or stored to, and a byte that differs after a store lies among the bytes stored. -/
theorem onlyStoredBytesChange : Obligations.OnlyStoredBytesChange := by
  intro i s t hm h k hk
  rcases exec_next_mem h with hmem | ⟨a, width, v, hst, -, hmem⟩
  · exact absurd (congrArg (Memory.readByte · k) hmem) hk
  · refine ⟨a, width, hst, not_not.mp fun hout => hk ?_⟩
    rw [State.byteAt, hmem, Memory.readByte_store hm, if_neg hout]
    rfl

/-! ## What it may depend on -/

/-- Two states agree on all that `i` may depend on. -/
structure SameInputs (i : Instr) (s s' : State) : Prop where
  wf : Memory.wf s.mem
  wf' : Memory.wf s'.mem
  pc : s'.pc = s.pc
  memSize : s'.memSize = s.memSize
  latches : LatchesKept s s'
  sources : ∀ r ∈ i.sources, s'.readReg r = s.readReg r
  loaded : ∀ a width, i.loadAccess s = some (a, width) →
    ∀ k, k < width.bytes → s'.byteAt (a.toNat + k) = s.byteAt (a.toNat + k)

/-- From `s'`, `i` does what took `s` to `t`: the same destination value, stored bytes, jump and request to halt. -/
def SameEffect (i : Instr) (s s' t : State) : Prop :=
  ∃ t', exec i s' = .next t' ∧ LatchesKept t t' ∧ (∀ rd, i.dest = some rd → t'.readReg rd = t.readReg rd) ∧
    (∀ a width, i.storeAccess s = some (a, width) → i.storeAccess s' = some (a, width) ∧
      ∀ k, k < width.bytes → t'.byteAt (a.toNat + k) = t.byteAt (a.toNat + k))

section
variable {i : Instr} {s s' t : State}

/-- The destination of one value reads alike in both states, x0 included. -/
theorem readReg_writeReg_self_eq (s s' : State) (rd : Reg) (v : Word) :
    (s'.writeReg rd v).readReg rd = (s.writeReg rd v).readReg rd := by
  by_cases hrd : rd = 0
  · rw [hrd, State.readReg_zero, State.readReg_zero]
  · rw [State.readReg_writeReg_self _ _ hrd, State.readReg_writeReg_self _ _ hrd]

theorem sameEffect_of_writeResult {rd : Reg} {v v' : Word} (hin : SameInputs i s s') (hd : i.dest = some rd)
    (hst : i.storeAccess s = none) (he : exec i s = writeResult s rd v) (he' : exec i s' = writeResult s' rd v')
    (hv : v' = v) (h : exec i s = .next t) : SameEffect i s s' t := by
  subst hv
  obtain rfl := Host.Outcome.next.inj (he.symm.trans h)
  refine ⟨_, he', by simpa [LatchesKept] using hin.latches, fun rd' hd' => ?_, fun a width hst' => ?_⟩
  · obtain rfl := Option.some.inj (hd.symm.trans hd')
    exact readReg_writeReg_self_eq s s' rd v'
  · cases hst.symm.trans hst'

theorem sameEffect_of_loadTo {rd rs1 : Reg} {imm : BitVec 12} {width : Width} {extend : Word → Word}
    (hin : SameInputs i s s') (hd : i.dest = some rd) (hst : i.storeAccess s = none)
    (hl : i.loadAccess s = some (effAddr (s.readReg rs1) imm, width))
    (he : ∀ s, exec i s = loadTo s rd rs1 imm width extend) (h1 : s'.readReg rs1 = s.readReg rs1)
    (h : exec i s = .next t) : SameEffect i s s' t := by
  rcases loadTo_cases s rd rs1 imm width extend with ⟨hb, hload⟩ | ⟨-, hload⟩
  · rcases loadTo_cases s' rd rs1 imm width extend with ⟨-, hload'⟩ | ⟨hb', -⟩
    · refine sameEffect_of_writeResult hin hd hst ((he s).trans hload) ((he s').trans hload') ?_ h
      rw [h1, Memory.readLE_congr (hin.loaded _ _ hl)]
    · rw [h1, State.inBounds, hin.memSize] at hb'
      exact absurd hb hb'
  · rw [he, hload] at h
    cases h

theorem sameEffect_of_storeFrom {rs1 rs2 : Reg} {imm : BitVec 12} {width : Width} (hin : SameInputs i s s')
    (hd : i.dest = none) (hst : ∀ s, i.storeAccess s = some (effAddr (s.readReg rs1) imm, width))
    (he : ∀ s, exec i s = storeFrom s rs1 rs2 imm width) (h1 : s'.readReg rs1 = s.readReg rs1)
    (h2 : s'.readReg rs2 = s.readReg rs2) (h : exec i s = .next t) : SameEffect i s s' t := by
  rcases storeFrom_cases s rs1 rs2 imm width with ⟨hb, hstore⟩ | ⟨-, hstore⟩
  · obtain rfl := Host.Outcome.next.inj (((he s).trans hstore).symm.trans h)
    rcases storeFrom_cases s' rs1 rs2 imm width with ⟨-, hstore'⟩ | ⟨hb', -⟩
    · refine ⟨_, (he s').trans hstore', hin.latches, (fun rd hd' => by cases hd.symm.trans hd'), fun a width' hst' => ?_⟩
      cases (hst s).symm.trans hst'
      refine ⟨by rw [hst s', h1], fun k hk => ?_⟩
      rw [State.withMem_byteAt, State.withMem_byteAt, Memory.readByte_store hin.wf', Memory.readByte_store hin.wf, h1, h2,
        if_pos (by omega), if_pos (by omega)]
    · rw [h1, State.inBounds, hin.memSize] at hb'
      exact absurd hb hb'
  · rw [he, hstore] at h
    cases h

theorem sameEffect_of_branchIf {c c' : Bool} {offset : BitVec 13} (hin : SameInputs i s s') (hd : i.dest = none)
    (hst : i.storeAccess s = none) (he : exec i s = branchIf s c offset) (he' : exec i s' = branchIf s' c' offset)
    (hc : c' = c) (h : exec i s = .next t) : SameEffect i s s' t := by
  subst hc
  obtain rfl := Host.Outcome.next.inj (he.symm.trans h)
  refine ⟨_, he', ?_, (fun rd hd' => by cases hd.symm.trans hd'), (fun a width hst' => by cases hst.symm.trans hst')⟩
  rw [hin.pc]
  obtain ⟨-, -, hhalt⟩ := hin.latches
  cases c' with
  | true => exact ⟨rfl, rfl, hhalt⟩
  | false => exact hin.latches

theorem sameEffect_of_linkJump {rd : Reg} {target target' : Word} (hin : SameInputs i s s') (hd : i.dest = some rd)
    (hst : i.storeAccess s = none) (he : exec i s = .next ((s.writeReg rd (linkOf s.pc)).jumpTo target))
    (he' : exec i s' = .next ((s'.writeReg rd (linkOf s'.pc)).jumpTo target')) (ht : target' = target)
    (h : exec i s = .next t) : SameEffect i s s' t := by
  subst ht
  obtain rfl := Host.Outcome.next.inj (he.symm.trans h)
  refine ⟨_, he', ?_, fun rd' hd' => ?_, (fun a width hst' => by cases hst.symm.trans hst')⟩
  · obtain ⟨-, -, hhalt⟩ := hin.latches
    exact ⟨rfl, rfl, by simpa using hhalt⟩
  · obtain rfl := Option.some.inj (hd.symm.trans hd')
    rw [hin.pc]
    exact readReg_writeReg_self_eq s s' rd (linkOf s.pc)

theorem sameEffect_of_ecall (hin : SameInputs .ecall s s') (h : exec .ecall s = .next t) : SameEffect .ecall s s' t := by
  have hx : s'.exitCondition = s.exitCondition := by
    rw [State.exitCondition, hin.sources 17 (by decide), hin.sources 10 (by decide), State.exitCondition]
  obtain rfl := Host.Outcome.next.inj h
  refine ⟨_, rfl, ?_, nofun, nofun⟩
  rw [hx]
  obtain ⟨hb, ht, -⟩ := hin.latches
  cases s.exitCondition with
  | true => exact ⟨hb, ht, rfl⟩
  | false => exact hin.latches

end

/-- Settles O18: in each shape of the execute stage the value, address, condition or target is computed from the registers
read, the pc and the bytes loaded, on which the two states agree. -/
theorem resultDependsOnSourcesOnly : Obligations.ResultDependsOnSourcesOnly := by
  intro i s s' t hwf hwf' hpc hsize hlatches hsources hloaded h
  have hin : SameInputs i s s' := ⟨hwf, hwf', hpc, hsize, hlatches, hsources, hloaded⟩
  cases i
  case add rd rs1 rs2 | sub rd rs1 rs2 | sll rd rs1 rs2 | slt rd rs1 rs2 | sltu rd rs1 rs2 | xor rd rs1 rs2
      | srl rd rs1 rs2 | sra rd rs1 rs2 | or rd rs1 rs2 | and rd rs1 rs2 =>
    have h1 := hsources rs1 (by simp [Instr.sources])
    have h2 := hsources rs2 (by simp [Instr.sources])
    exact sameEffect_of_writeResult hin rfl rfl rfl rfl (by rw [h1, h2]) h
  case addi rd rs1 imm | slti rd rs1 imm | sltiu rd rs1 imm | xori rd rs1 imm | ori rd rs1 imm | andi rd rs1 imm
      | slli rd rs1 imm | srli rd rs1 imm | srai rd rs1 imm =>
    have h1 := hsources rs1 (by simp [Instr.sources])
    exact sameEffect_of_writeResult hin rfl rfl rfl rfl (by rw [h1]) h
  case lb rd rs1 imm | lh rd rs1 imm | lw rd rs1 imm | lbu rd rs1 imm | lhu rd rs1 imm =>
    exact sameEffect_of_loadTo hin rfl rfl rfl (fun _ => rfl) (hsources rs1 (by simp [Instr.sources])) h
  case sb rs1 rs2 imm | sh rs1 rs2 imm | sw rs1 rs2 imm =>
    exact sameEffect_of_storeFrom hin rfl (fun _ => rfl) (fun _ => rfl) (hsources rs1 (by simp [Instr.sources]))
      (hsources rs2 (by simp [Instr.sources])) h
  case beq rs1 rs2 offset | bne rs1 rs2 offset | blt rs1 rs2 offset | bge rs1 rs2 offset | bltu rs1 rs2 offset
      | bgeu rs1 rs2 offset =>
    have h1 := hsources rs1 (by simp [Instr.sources])
    have h2 := hsources rs2 (by simp [Instr.sources])
    exact sameEffect_of_branchIf hin rfl rfl rfl rfl (by rw [h1, h2]) h
  case jal rd offset => exact sameEffect_of_linkJump hin rfl rfl rfl rfl (by rw [hpc]) h
  case jalr rd rs1 imm =>
    have h1 := hsources rs1 (by simp [Instr.sources])
    exact sameEffect_of_linkJump hin rfl rfl rfl rfl (by rw [h1]) h
  case lui rd imm20 => exact sameEffect_of_writeResult hin rfl rfl rfl rfl rfl h
  case auipc rd imm20 => exact sameEffect_of_writeResult hin rfl rfl rfl rfl (by rw [hpc]) h
  case ecall => exact sameEffect_of_ecall hin h

end Sys2Proof.Machine
end

section
/-! PROOFS. The instruction a step runs: the bytes at the pc, an instruction placed there, SLTIU's row, and a store into the
next word (20_memory R57; 40_control_loop R152; 42_alu_imm R192; 70_reset R358). -/

namespace Sys2Proof.Machine

/-! ## The bytes at the pc -/

/-- The four bytes at an address are those of the little-endian word read there. -/
theorem State.map_byteAt_range (s : State) (a : Nat) :
    (List.range 4).map (fun k => s.byteAt (a + k)) = bytesOfWord (Memory.readLE s.mem a .word) :=
  calc (List.range 4).map (fun k => s.byteAt (a + k))
    _ = (List.range 4).map (fun k => (Memory.readLE s.mem a .word).extractLsb' (8 * k) 8) :=
      List.map_congr_left fun k hk => (Memory.readLE_byte s.mem a .word k (List.mem_range.mp hk)).symm
    _ = bytesOfWord (Memory.readLE s.mem a .word) := rfl

theorem decodeWord_of_decodeBytes {w : Word} {i : Instr} (h : decodeBytes (bytesOfWord w) = .ok (i, [])) :
    decodeWord w = .ok i := by
  rw [← List.append_nil (bytesOfWord w), decodeBytes_bytesOfWord] at h
  cases hd : decodeWord w with
  | error e => rw [hd] at h; cases h
  | ok j => rw [hd] at h; cases h; rfl

/-- Settles O25: the engine fetches the word of the bytes at its pc, and `finish` of the execute stage's answer is the advance,
the alignment check and the halt stage, or the fault itself. -/
theorem stepRunsTheDecodedInstruction : Obligations.StepRunsTheDecodedInstruction := by
  intro s i hr hb hd
  rw [State.map_byteAt_range] at hd
  have hstep := step_of_decode (State.fetches_of_inBounds hr hb) (decodeWord_of_decodeBytes hd)
  refine ⟨fun t he ha => ?_, fun t he hmis => ?_, fun f he => ?_⟩ <;> rw [hstep, he]
  · exact retire_aligned ha
  · exact retire_misaligned hmis
  · rfl

/-- A running engine whose memory begins, at its pc, with a word's bytes fetches that word. -/
theorem State.fetches_of_bytesOfWord {s : State} {w : Word} (hr : s.run = .running) (hb : s.pc.toNat + 4 ≤ s.memSize)
    (hbytes : ∀ k, k < 4 → s.byteAt (s.pc.toNat + k) = (bytesOfWord w).getD k Config.unlistedByte) : s.Fetches w :=
  ⟨hr, hb, fun k hk => (hbytes k hk).trans (bytesOfWord_getD w k hk _)⟩

theorem tableWord_toNat (w : Word) : tableWord 32 w.toNat = w := by
  rw [tableWord, Nat.mod_eq_of_lt w.isLt, BitVec.ofNat_toNat, BitVec.setWidth_eq]

/-- Settles O26: the word placed is fetched, since writing it puts its bytes at the pc, and it decodes to its instruction. -/
theorem placedInstructionRunsNext : Obligations.PlacedInstructionRunsNext := by
  intro s i hwf hr hb hm
  have hplaced : s.withFetchWord 32 (encode i).toNat =
      s.withMem (Memory.writeBytes s.mem s.pc.toNat (bytesOfWord (encode i))) := by
    rw [State.withFetchWord, tableWord_toNat]
    exact if_pos hb
  have hf : (s.withFetchWord 32 (encode i).toNat).Fetches (encode i) := by
    rw [hplaced]
    refine State.fetches_of_bytesOfWord hr hb fun k hk => ?_
    rw [State.withMem_byteAt, State.withMem_pc, Memory.readByte_writeBytes hm, bytesOfWord_length, if_pos (by omega),
      Nat.add_sub_cancel_left]
  refine ⟨hf, ?_⟩
  have hpc : (s.withFetchWord 32 (encode i).toNat).pc = s.pc := by rw [hplaced, State.withMem_pc]
  rw [step_of_decode hf (decodeWord_encode hwf), hpc]

/-! ## SLTIU -/

/-- The sign-extended immediate read as unsigned is its number modulo 2^32 (42_alu_imm R192). -/
theorem wordOfInt_toNat_eq_emod (k : Int) : ((wordOfInt k).toNat : Int) = k % 2 ^ 32 := by
  rw [wordOfInt, BitVec.toNat_ofInt, Int.toNat_of_nonneg (Int.emod_nonneg _ (by decide))]
  rfl

theorem boolToWord_ltUnsigned_immI (a w : Word) :
    boolToWord (ltUnsigned a (sext ((immI w).setWidth 12))) =
      if (a.toNat : Int) < immINum w % 2 ^ 32 then 1#32 else 0#32 := by
  rw [boolToWord_ltUnsigned, sext_immI_field, ← wordOfInt_toNat_eq_emod]
  simp only [Int.ofNat_lt]

/-- Settles O29: SLTIU's row selects its slot, and its result compares with the immediate's number modulo 2^32. -/
theorem stepOnSltiuWords : Obligations.StepOnSltiuWords := by
  intro s w hf ha hrow
  exact stepsTo_of_opImm hf ha (decodeWord_of_opImmRow .sltiu hrow rfl fun _ => rfl) rfl (boolToWord_ltUnsigned_immI _ _)

/-! ## A store into the next word -/

/-- Settles O51: the step stores the word's four bytes at `pc + 4` and goes on there, where it fetches them. -/
theorem storeIntoTheNextInstruction : Obligations.StoreIntoTheNextInstruction := by
  intro s w rs1 rs2 imm hf hd ha hm hin hwrap haddr
  have hnext : (s.pc + 4#32).toNat = s.pc.toNat + 4 := by bv_omega
  obtain ⟨hstore, -⟩ := storeSteps_of_storeFrom .word hf ha hm hd rfl haddr
  obtain ⟨t, hstep, ⟨hpc, hrun, hsize, -, -, -, -⟩, -, hbytes⟩ := hstore (by rw [hnext]; exact hin)
  refine ⟨t, hstep, hrun, ?_, fun k hk => ?_⟩
  · rw [hpc, hsize, hnext]
    exact hin
  · rw [hpc]
    exact hbytes.byteAt_add hk

end Sys2Proof.Machine
end

section
/-! PROOFS. Runs under a budget: a jump to itself, and what a larger budget can change (40_control_loop R153). -/

namespace Sys2Proof.Machine

theorem State.outcome_of_running {s : State} (hr : s.run = .running) : s.outcome = none := by
  rw [State.outcome, hr]

/-- A terminal state shows its outcome under every budget. -/
theorem runFor_of_not_running {s : State} (hr : s.run ≠ .running) (fuel : Nat) : runFor fuel s = s.outcome := by
  cases fuel with
  | zero => rfl
  | succ fuel =>
    rw [runFor]
    cases h : s.run with
    | running => exact absurd h hr
    | halted => rfl
    | faulted record => rfl

/-- Settles O53, by induction on the budget: a budget of 0 shows an outcome only of a terminal state, which shows it under every
budget. -/
theorem outcomeDoesNotDependOnTheBudget : Obligations.OutcomeDoesNotDependOnTheBudget := by
  intro s fuel more o
  induction fuel generalizing s with
  | zero =>
    intro h
    have hr : s.run ≠ .running := fun hr => by
      rw [runFor, State.outcome_of_running hr] at h
      cases h
    rw [runFor_of_not_running hr]
    exact h
  | succ fuel ih =>
    intro h
    rw [Nat.succ_add]
    by_cases hr : s.run = .running
    · unfold runFor at h ⊢
      simp only [hr] at h ⊢
      cases hs : step s with
      | next t => rw [hs] at h; exact ih t h
      | fault f => rw [hs] at h; cases f <;> exact h
      | refused r => rw [hs] at h; exact h
    · rw [runFor_of_not_running hr] at h ⊢
      exact h

/-- Advancing to a jump back to the pc undoes the jump. -/
theorem State.advance_jumpTo_pc {s : State} (hb : s.branched = false) (ht : s.target = 0#32) :
    (s.jumpTo s.pc).advance = s := by
  cases s
  simp_all [State.advance, State.jumpTo, State.nextPc]

/-- A jump to the pc itself that links nowhere leaves a state between steps as it was. -/
theorem step_of_jump_to_self {s : State} {w : Word} {i : Instr} (hinv : s.Inv) (hf : s.Fetches w)
    (hd : decodeWord w = .ok i) (hj : i.jumpTarget s = some s.pc) (hlink : ∀ rd, i.dest = some rd → rd = 0) :
    step s = .next s := by
  have hself : s.beginCycle = s := State.beginCycle_eq_self hinv.branched hinv.target hinv.haltReq
  have he : exec i s = .next (s.jumpTo s.pc) := by
    cases hdest : i.dest with
    | none => exact exec_of_taken hj hdest
    | some rd => rw [exec_of_link hj hdest, hlink rd hdest, State.writeReg_zero]
  have hpc : (s.jumpTo s.pc).nextPc = s.pc := by simp [State.nextPc]
  rw [step_of_decode hf hd, hself, he, finish_next, retire_aligned (by rw [hpc]; exact hinv.pcAligned),
    State.advance_jumpTo_pc hinv.branched hinv.target, State.haltStage_of_no_request hinv.haltReq]

theorem runFor_of_step_self {s : State} (hr : s.run = .running) (hs : step s = .next s) (fuel : Nat) :
    runFor fuel s = none := by
  induction fuel with
  | zero => exact State.outcome_of_running hr
  | succ fuel ih =>
    simp only [runFor, hr, hs]
    exact ih

/-- Settles O52: such a step answers the state it began in, so by induction on the budget the run is still `Running`; the word
0x0000006F is `jal x0, 0`. -/
theorem jumpToSelfNeverFinishes : Obligations.JumpToSelfNeverFinishes := by
  have hself : ∀ (s : State) (w : Word) (i : Instr) (fuel : Nat), s.Inv → s.Fetches w → decodeWord w = .ok i →
      i.jumpTarget s = some s.pc → (∀ rd, i.dest = some rd → rd = 0) → step s = .next s ∧ runFor fuel s = none := by
    intro s w i fuel hinv hf hd hj hlink
    have hstep := step_of_jump_to_self hinv hf hd hj hlink
    exact ⟨hstep, runFor_of_step_self hf.running hstep fuel⟩
  refine ⟨hself, fun s fuel hinv hf => ?_⟩
  have hd : decodeWord 0x0000006F#32 = .ok (.jal 0 0#21) := by decide
  have hj : (Instr.jal 0 0#21).jumpTarget s = some s.pc := congrArg some (BitVec.add_zero s.pc)
  exact hself s _ _ fuel hinv hf hd hj fun rd h => (Option.some.inj h).symm

end Sys2Proof.Machine
end

section
/-! PROOFS. The start of a run: the state `boot` answers meets the invariant and runs the image's first instruction, and
what else `boot` answers (10_state R33; 60_exceptions R317; 70_reset R350 to R352). -/

namespace Sys2Proof.Machine

/-- A loaded image meets the invariant: its bytes lie below the capacity, and everything else is as at reset. -/
theorem State.loaded_inv {n : Nat} {bytes : List Byte} (h : bytes.length ≤ n) : (State.loaded n bytes).Inv where
  x0 := rfl
  pcAligned := rfl
  branched := rfl
  target := rfl
  haltReq := rfl
  memCanonical := Memory.writeBytes_wf reset_mem_wf 0 bytes
  memBounded := Memory.writeBytes_below (m := State.reset.mem) nofun ((Nat.zero_add _).trans_le h)
  runSink := .inl ⟨rfl, rfl⟩

/-- Settles O56: `boot` loads an image that fits. -/
theorem bootMeetsTheInvariant : Obligations.BootMeetsTheInvariant := fun memSize bytes hfits =>
  ⟨State.loaded memSize bytes, boot_image_of_length_le hfits, State.loaded_inv hfits, rfl, rfl⟩

/-- Settles O46: reset is the empty image loaded at the default capacity. -/
theorem invariantHoldsAtReset : Obligations.InvariantHoldsAtReset :=
  State.loaded_inv (n := Config.memSizeDefault) (bytes := []) (Nat.zero_le _)

/-- Settles O57: `boot` answers an error for each of the three. -/
theorem engineNeverStartsWithoutAnImage : Obligations.EngineNeverStartsWithoutAnImage := fun _ =>
  ⟨rfl, rfl, fun _ hlong => if_neg (Nat.not_le.mpr hlong)⟩

/-- Settles O58: the image's first four bytes are fetched from address 0 and decode to the instruction; the latches are clear
already at boot. -/
theorem bootedImageRunsItsFirstInstruction : Obligations.BootedImageRunsItsFirstInstruction := by
  intro memSize i rest hwf hfits
  have hlen : (encodeBytes i ++ rest).length = 4 + rest.length := List.length_append
  refine ⟨State.loaded memSize (encodeBytes i ++ rest), boot_image_of_length_le (by omega), ?_⟩
  have hf : (State.loaded memSize (encodeBytes i ++ rest)).Fetches (encode i) := by
    refine State.fetches_of_bytesOfWord rfl (Nat.le_trans (Nat.le_add_right 4 _) hfits) fun k hk => ?_
    have hzero : (0#32).toNat + k = k := Nat.zero_add k
    rw [State.loaded_byteAt, State.loaded_pc, hzero]
    exact List.getD_append (encodeBytes i) rest _ k hk
  have hself : (State.loaded memSize (encodeBytes i ++ rest)).beginCycle = State.loaded memSize (encodeBytes i ++ rest) :=
    State.beginCycle_eq_self rfl rfl rfl
  rw [step_of_decode hf (decodeWord_encode hwf), hself, State.loaded_pc]

/-- With an empty image the first word fetched is 0 (70_reset R351). -/
theorem State.loaded_nil_fetches {n : Nat} (h : 4 ≤ n) : (State.loaded n []).Fetches 0#32 where
  running := rfl
  fetchInBounds := h
  bytes k _ := by rw [State.loaded_byteAt, BitVec.extractLsb'_zero]; rfl

theorem stepFaults_of_empty_image {n : Nat} (h : 4 ≤ n) :
    StepFaults (State.loaded n []) (.decode .unknownOpcode 0#32 0#32) :=
  stepFaults_of_illegal (State.loaded_nil_fetches h) (by decide)

/-- Settles O59: reset is the empty image loaded at the default capacity, and `boot` loads it at any other. -/
theorem emptyImageFaultsAtOnce : Obligations.EmptyImageFaultsAtOnce := by
  refine ⟨stepFaults_of_empty_image (n := Config.memSizeDefault) (by decide), fun memSize s hsize hboot => ?_⟩
  obtain rfl := Except.ok.inj ((boot_image_of_length_le (Nat.zero_le memSize)).symm.trans hboot)
  exact stepFaults_of_empty_image hsize

/-- Settles O60: each status is the number its definition assigns. -/
theorem exitStatusPerOutcome : Obligations.ExitStatusPerOutcome :=
  ⟨fun _ => rfl, rfl, rfl, rfl, rfl, rfl⟩

end Sys2Proof.Machine
end
